-- ==== Sys2Proof/Word.lean ====
section
/-! DEFINITION. The word types of the codec-framer (00_scope.md R7, R9, R10): all values are unsigned bit vectors, bit 0
is the least significant bit. -/

namespace Sys2Proof

/-- A stream byte, a role code, a status: `BYTE_W` = 8 bits (R7). -/
abbrev Byte := BitVec 8

/-- The instruction word `W`, the response, the address operand: 32 bits (R7, R15). -/
abbrev Word := BitVec 32

/-- `LEN_W` = 16 bits: lengths, counts and `ERRINFO` (R7, R38). -/
abbrev Half := BitVec 16

/-- The index field of a role, `IDX_W` = 5 bits (R7, R92). -/
abbrev Index := BitVec 5

/-- A command word, 48 bits (R110). -/
abbrev Cmd := BitVec 48

/-- The five-byte frame header as one number, byte 0 leftmost (R100, format FRAME40). -/
abbrev Header := BitVec 40

end Sys2Proof
end

