-- ==== Sys2Proof/Config.lean ====
section
/-! DEFINITION. What the spec fixes as constants (00_scope.md R7), what it leaves open as parameters (R7, U9, U10), and
the one free value: the outcome of a wait that the environment decides (20_memory.md R62, U7). -/

namespace Sys2Proof.Config

/-- `START`, the frame start marker (R7, R100). -/
def start : Byte := 0x1B#8

/-- `TOKEN`, the frame token (R7, R100). -/
def token : Byte := 0x0E#8

/-- The number of roles of a valid template and of bits of the word, `WORD_W` (R7, R94). -/
def wordW : Nat := 32

/-- The parameters the spec leaves OPEN (R7; U9, U10). They are carried in the state, so that every statement about a
state holds for every value of them (log 1). -/
structure Params where
  /-- `N_TPL`, the number of template slots, 1 to 256 (R7, D10). -/
  nTpl : Nat
  /-- `MAX_PAYLOAD`, the largest payload, 0 to 65535 (R7, D19). -/
  maxPayload : Nat
  /-- `SEQ_RESET`, the value of `SEQ` after reset (R7, R283, D16). -/
  seqReset : Byte
  deriving DecidableEq, Repr

/-- The spec's default values (R7). DESIGN CHOICE to start from them (log 1); unsafe for claims about runs from
`State.reset` only. -/
def defaults : Params := { nTpl := 64, maxPayload := 65535, seqReset := 0x01#8 }

/-- The ranges R7 gives the parameters. -/
def Params.wf (p : Params) : Bool :=
  decide (1 ≤ p.nTpl) && decide (p.nTpl ≤ 256) && decide (p.maxPayload ≤ 65535)

/-- The outcome of one single-byte wait `StreamRead()` (20_memory.md R62): exactly two. -/
inductive Draw where
  /-- A byte was or became available within the bound; it is removed and returned. -/
  | byte (b : Byte)
  /-- No byte became available within `T_BYTE`. -/
  | timeout
  deriving DecidableEq, Repr, Inhabited

/-- FREE VALUE (R62, R63, U6, U7; log 3): what the environment answers to the `n`-th wait for which the state holds no
arrived byte and no listed event. It has no body: nothing can be proved of its values. -/
opaque lineDraw : Nat → Draw

end Sys2Proof.Config
end

