-- ==== Sys2Proof/Machine/State.lean ====
section
/-! DEFINITION. The state of the codec-framer (10_state.md), the error kinds (60_exceptions.md R241), the reasons a step
can stop, and the state after reset (R47, R280). -/

namespace Sys2Proof.Machine

/-- A store of bytes in canonical form: addresses strictly rising, no entry equal to what an unlisted address reads as
(`Memory.wf`, Machine/Ops.lean). -/
abbrev Memory := List Host.Cell

/-- The control state of the receive machine (R31). -/
inductive RxState where
  /-- Code 0: no receive is in progress. -/
  | idle
  /-- Code 1: waits for frame byte 0, the start marker. -/
  | wStart
  /-- Code 2: waits for frame byte 1, the sequence number. -/
  | wSeq
  /-- Code 3: waits for frame byte 2, the high byte of the length. -/
  | wLenHi
  /-- Code 4: waits for frame byte 3, the low byte of the length. -/
  | wLenLo
  /-- Code 5: waits for frame byte 4, the token. -/
  | wToken
  /-- Code 6: waits for a payload byte. -/
  | wData
  /-- Code 7: waits for the checksum. -/
  | wCsum
  deriving DecidableEq, Repr

/-- The errors the block raises (R241), `OK` apart. -/
inductive ErrKind where
  /-- Transport: a byte did not arrive within the bound (R201). -/
  | timeout
  /-- Transport: frame byte 0 is not the start marker (R190). -/
  | badStart
  /-- Transport: frame byte 1 is not `SEQ` (R191). -/
  | badSeq
  /-- Transport: frame byte 4 is not the token (R194). -/
  | badToken
  /-- Transport: the received length exceeds `RXMAX` (R193). -/
  | tooLong
  /-- Transport: the exclusive OR of the frame is not zero (R197). -/
  | checksum
  /-- Configuration: wrong role count or undefined role code (R131). -/
  | invalidTemplate
  /-- Configuration: `t ≥ N_TPL` (R131, R137, R138). -/
  | templateRange
  /-- Configuration: the slot is valid already (R133). -/
  | templateLocked
  /-- Configuration: the slot is not valid (R138). -/
  | templateNotValid
  /-- Usage: reserved `op` or non-zero unused field (R230). -/
  | illegalOp
  /-- Usage: `L > MAX_PAYLOAD` (R170). -/
  | payloadTooLong
  deriving DecidableEq, Repr

/-- What the result port returns for an operation (R111). -/
structure Result where
  /-- The 8-bit status, `0x00` is `OK` (R240). -/
  status : Byte
  /-- The value of up to 32 bits, zero-extended; none where the operation returns none. -/
  value : Option Word
  /-- The byte list of an accepted RECV; empty otherwise. -/
  payload : List Byte
  deriving DecidableEq, Repr

/-- The codec operation that goes through the positions of a template, with its operand (R140, R145, R150, R155, R160). -/
inductive ScanOp where
  /-- ENCFIX. -/
  | encfix
  /-- ENCADDR, with its address. -/
  | encaddr (address : Word)
  /-- ENCIN, with its data byte. -/
  | encin (data : Byte)
  /-- DECOUT. -/
  | decout
  /-- OUTIDX. -/
  | outidx
  deriving DecidableEq, Repr

/-- A codec operation between two positions (log 7): the loop variables of its pseudocode. -/
structure Scan where
  /-- The operation. -/
  op : ScanOp
  /-- The slot it names. -/
  slot : Byte
  /-- The position `k` it looks at next, 0 to 31. -/
  pos : Nat
  /-- `out` of DECOUT (R155). -/
  out : Byte
  /-- The least output position found so far, `k0` of OUTIDX (R160). -/
  first : Option Nat
  deriving DecidableEq, Repr

/-- What the line brings, in order (R60, R62; log 3, log 8). -/
inductive LineEvent where
  /-- A byte arrives. -/
  | byte (b : Byte)
  /-- Five bytes arrive without a gap, frame byte 0 leftmost. -/
  | header (h : Header)
  /-- Nothing arrives for longer than `T_BYTE`: a wait that is running ends in `timeout`. -/
  | silence
  deriving DecidableEq, Repr

/-- Why a step can stop with a fault. -/
inductive Fault where
  /-- Raised by a receive step (and by FRAME.HEADER, which takes five) that would touch an entry of `RXBUF` at or above
  `MAX_PAYLOAD`, an entry that does not exist (R36). Safe: R195 says the store is always in range, and no state of the
  invariant reaches it (log 13). -/
  | rxbufRange
  deriving DecidableEq, Repr

/-- Why a step can be refused. -/
inductive Refusal where
  /-- Raised by an arm of `exec` whose instruction has no meaning yet; no arm of this model answers it. Safe: it stops. -/
  | notModelled (mnemonic : String)
  deriving DecidableEq, Repr

/-- The state: the spec's own (10_state.md section 1 to 3, and the two streams of 20_memory.md R60), then the model's own
fields (INVENTORY.md). -/
structure State where
  /-- `TPL`: the role code of slot `t`, position `k` stands at address `32 * t + k` (R20). -/
  tpl : Memory
  /-- `TPLV`: bit `t` is the validity of slot `t` (R21). -/
  tplv : BitVec 256
  /-- `BUF` as the word `W` (R23, R15). -/
  buf : Word
  /-- `RESP` as a word (R24, R15). -/
  resp : Word
  /-- `SEQ`, the sequence number (R30). -/
  seq : Byte
  /-- `RXS`, the receive machine's control state (R31). -/
  rxs : RxState
  /-- `RXLEN` (R32). -/
  rxlen : Half
  /-- `RXCNT` (R33). -/
  rxcnt : Half
  /-- `RXSUM` (R34). -/
  rxsum : Byte
  /-- `RXMAX` (R35). -/
  rxmax : Half
  /-- `RXBUF` (R36). -/
  rxbuf : Memory
  /-- `TXSUM`, scratch of SEND (R37). -/
  txsum : Byte
  /-- `ERR` (R38). -/
  err : Byte
  /-- `ERRINFO` (R38). -/
  errinfo : Half
  /-- `CFGF`, the sticky configuration-fault flag (R39). -/
  cfgf : Bool
  /-- `TXS`, every byte written to the stream, in order (R60). -/
  txs : List Byte
  /-- `RXQ`, the bytes arrived and not yet read, in order of arrival (R60). -/
  rxq : List Byte
  /-- The open parameters (R7; log 1). -/
  par : Config.Params
  /-- What the result port returned last (R111; log 5). -/
  result : Option Result
  /-- The command words the host will present, in order (R110; log 4). -/
  cmds : List Cmd
  /-- The bytes the byte-list port will deliver, in order (R111; log 4). -/
  blist : List Byte
  /-- What the line will bring, in order (R60, R62; log 3). -/
  line : List LineEvent
  /-- How many free draws were taken (log 3). -/
  waits : Nat
  /-- The reset event is pending (R280; log 10). -/
  resetPin : Bool
  /-- A codec operation taken one position at a time (log 7). -/
  scan : Option Scan
  deriving DecidableEq, Repr

/-- The machine right after reset (R47, R280): the spec's values; the default parameters (log 1); the streams empty
(log 12); nothing presented by the host or the line (log 3, log 4). -/
def State.reset : State :=
  { tpl := [], tplv := 0#256, buf := 0#32, resp := 0#32, seq := Config.defaults.seqReset
    rxs := .idle, rxlen := 0#16, rxcnt := 0#16, rxsum := 0#8, rxmax := 0#16, rxbuf := [], txsum := 0#8
    err := 0#8, errinfo := 0#16, cfgf := false, txs := [], rxq := []
    par := Config.defaults, result := none, cmds := [], blist := [], line := [], waits := 0
    resetPin := false, scan := none }

end Sys2Proof.Machine
end

