-- ==== Sys2Proof/Machine/Flags.lean ====
section
/-! DEFINITION. Status: the block has no arithmetic flags (10_state.md R40). Its status bits are `TPLV`, `CFGF` and busy;
here are also the codes of `RXS` (R31) and of the errors with their classes (60_exceptions.md R241 to R244), and the
checksum (30_encoding.md R102). -/

namespace Sys2Proof.Machine

/-- The 3-bit code of a receive state (R31). -/
def rxCode : RxState → BitVec 3
  | .idle => 0#3
  | .wStart => 1#3
  | .wSeq => 2#3
  | .wLenHi => 3#3
  | .wLenLo => 4#3
  | .wToken => 5#3
  | .wData => 6#3
  | .wCsum => 7#3

/-- Busy: a receive is in progress and the host is blocked (R40, R70). -/
def busy (s : State) : Bool := s.rxs != .idle

/-- The status code of an error (R241). -/
def errCode : ErrKind → Byte
  | .timeout => 0x01#8
  | .badStart => 0x10#8
  | .badSeq => 0x11#8
  | .badToken => 0x12#8
  | .tooLong => 0x13#8
  | .checksum => 0x20#8
  | .invalidTemplate => 0x40#8
  | .templateRange => 0x41#8
  | .templateLocked => 0x42#8
  | .templateNotValid => 0x43#8
  | .illegalOp => 0x50#8
  | .payloadTooLong => 0x51#8

/-- The status `OK` (R240). -/
def okCode : Byte := 0x00#8

/-- The configuration errors, which set `CFGF` (R243). -/
def isConfiguration : ErrKind → Bool
  | .invalidTemplate => true
  | .templateRange => true
  | .templateLocked => true
  | .templateNotValid => true
  | .timeout => false
  | .badStart => false
  | .badSeq => false
  | .badToken => false
  | .tooLong => false
  | .checksum => false
  | .illegalOp => false
  | .payloadTooLong => false

/-- The transport errors, which RECV raises and which end it (R202, R242). -/
def isTransport : ErrKind → Bool
  | .timeout => true
  | .badStart => true
  | .badSeq => true
  | .badToken => true
  | .tooLong => true
  | .checksum => true
  | .invalidTemplate => false
  | .templateRange => false
  | .templateLocked => false
  | .templateNotValid => false
  | .illegalOp => false
  | .payloadTooLong => false

/-- `t < N_TPL` (R138 line 1). -/
def slotInRange (s : State) (t : Byte) : Bool := decide (t.toNat < s.par.nTpl)

/-- `TPLV[t]` (R21). -/
def slotValid (s : State) (t : Byte) : Bool := s.tplv.getLsbD t.toNat

/-- `TPLV[t] <- 1` (R131 line 6). -/
def setValid (v : BitVec 256) (t : Byte) : BitVec 256 := v ||| (1#256 <<< t.toNat)

/-- The exclusive OR of a running sum and the bytes of a list, in order (R102, R175). -/
def xorOnto (sum : Byte) (bytes : List Byte) : Byte := bytes.foldl (fun a b => a ^^^ b) sum

/-- The checksum of a list of bytes: seed 0, no inversion (R102). -/
def checksum (bytes : List Byte) : Byte := xorOnto 0#8 bytes

end Sys2Proof.Machine
end

