-- ==== Sys2Proof/Syntax.lean ====
section
/-! DEFINITION. The roles of a template (30_encoding.md R90) and the instructions: one constructor for each row of
spec/opcode_table.json (formats CMD48, ROLE8 and FRAME40). -/

namespace Sys2Proof

/-- A role, one of exactly six variants (R90, R91). -/
inductive Role where
  /-- `F0`: the word's bit is the constant 0. -/
  | f0
  /-- `F1`: the word's bit is the constant 1. -/
  | f1
  /-- `X`: don't-care. -/
  | x
  /-- `A(n)`: the word's bit carries bit `n` of the address. -/
  | a (n : Index)
  /-- `I(n)`: the word's bit carries bit `n` of the input data byte. -/
  | i (n : Index)
  /-- `O(n)`: the response's bit carries bit `n` of the output byte. -/
  | o (n : Index)
  deriving DecidableEq, Repr

/-- The instructions. The first fourteen are the host's operations (R112); a byte list (R111) is an operand, and its
length is the operand `n` of TPLLOAD and `L` of SEND (log 19). The six roles are the entries of a template, which a codec
operation goes through one position at a time (R91, R92; log 7). The last is the frame header on the wire (R100; log 8). -/
inductive Instr where
  /-- `TPLLOAD t, n, roles` (R131), `n` the length of `roles`. -/
  | tplload (t : Byte) (roles : List Byte)
  /-- `TPLVALID t` (R137). -/
  | tplvalid (t : Byte)
  /-- `ENCFIX t` (R140). -/
  | encfix (t : Byte)
  /-- `ENCADDR t, address` (R145). -/
  | encaddr (t : Byte) (address : Word)
  /-- `ENCIN t, data` (R150). -/
  | encin (t : Byte) (data : Byte)
  /-- `DECOUT t` (R155). -/
  | decout (t : Byte)
  /-- `OUTIDX t` (R160). -/
  | outidx (t : Byte)
  /-- `SEND L, payload` (R170), `L` the length of `payload`. -/
  | send (payload : List Byte)
  /-- `RECV maxSize` (R185). -/
  | recv (maxSize : Half)
  /-- `LDBUF w` (R220). -/
  | ldbuf (w : Word)
  /-- `RDBUF` (R221). -/
  | rdbuf
  /-- `LDRESP w` (R222). -/
  | ldresp (w : Word)
  /-- `RDSEQ` (R223). -/
  | rdseq
  /-- `RDERR` (R224). -/
  | rderr
  /-- Role code `F0` (R91, R92). -/
  | roleF0
  /-- Role code `F1` (R91, R92). -/
  | roleF1
  /-- Role code `X` (R91, R92). -/
  | roleX
  /-- Role code `A(n)` (R91, R92). -/
  | roleA (n : Index)
  /-- Role code `I(n)` (R91, R92). -/
  | roleI (n : Index)
  /-- Role code `O(n)` (R91, R92). -/
  | roleO (n : Index)
  /-- The frame header `1B seq lenHi lenLo 0E` (R100). -/
  | frameHeader (seq lenHi lenLo : Byte)
  deriving DecidableEq, Repr

/-- The host's operations as the `op` field names them (R112). -/
inductive Op where
  /-- `0x10`. -/
  | tplload
  /-- `0x11`. -/
  | tplvalid
  /-- `0x12`. -/
  | encfix
  /-- `0x13`. -/
  | encaddr
  /-- `0x14`. -/
  | encin
  /-- `0x15`. -/
  | decout
  /-- `0x16`. -/
  | outidx
  /-- `0x20`. -/
  | send
  /-- `0x21`. -/
  | recv
  /-- `0x30`. -/
  | ldbuf
  /-- `0x31`. -/
  | rdbuf
  /-- `0x32`. -/
  | ldresp
  /-- `0x33`. -/
  | rdseq
  /-- `0x34`. -/
  | rderr
  deriving DecidableEq, Repr

end Sys2Proof
end

