-- ==== Sys2Proof/WellFormed.lean ====
section
/-! DEFINITION. Which instructions have an encoding: the byte list of a command must have a length its count field can
hold (30_encoding.md R111, R112). Every other operand is a bit field of exactly its type's width. -/

namespace Sys2Proof

/-- An instruction the encoding can express: `n` is 8 bits (R131), `L` is 16 bits (R170). -/
def Instr.wf : Instr → Bool
  | .tplload _ roles => decide (roles.length ≤ 255)
  | .send payload => decide (payload.length ≤ 65535)
  | .tplvalid _ => true
  | .encfix _ => true
  | .encaddr _ _ => true
  | .encin _ _ => true
  | .decout _ => true
  | .outidx _ => true
  | .recv _ => true
  | .ldbuf _ => true
  | .rdbuf => true
  | .ldresp _ => true
  | .rdseq => true
  | .rderr => true
  | .roleF0 => true
  | .roleF1 => true
  | .roleX => true
  | .roleA _ => true
  | .roleI _ => true
  | .roleO _ => true
  | .frameHeader _ _ _ => true

end Sys2Proof
end

