-- ==== Sys2Proof/Decode.lean ====
section
/-! DEFINITION. The encodings of 30_encoding.md: role codes (R92), the frame header (R100), the command word and its byte
list (R110 to R112), their decoder, total and rejecting by name (R114, R116, R230), and after it the encoder. -/

namespace Sys2Proof

/-! ### Role codes (R92) -/

/-- The tag of a role code, `code[7:5]` (R92). -/
def roleTag (code : Byte) : BitVec 3 := code.extractLsb' 5 3

/-- The index of a role code, `code[4:0]` (R92). -/
def roleIndex (code : Byte) : Index := code.extractLsb' 0 5

/-- The role a role code stands for; none for the undefined codes (R92): for the tags without an index the index field
must be 0. -/
def decodeRole (code : Byte) : Option Role :=
  let n := roleIndex code
  match (roleTag code).toNat with
  | 0 => if n = 0#5 then some .f0 else none
  | 1 => if n = 0#5 then some .f1 else none
  | 2 => if n = 0#5 then some .x else none
  | 3 => some (.a n)
  | 4 => some (.i n)
  | 5 => some (.o n)
  | _ => none

/-- A code is defined when it stands for a role: the 99 values of R92. -/
def roleDefined (code : Byte) : Bool := (decodeRole code).isSome

/-- The role code `tag ‖ index` (R92). -/
def roleCode (tag : BitVec 3) (n : Index) : Byte := tag ++ n

/-- The code of a role (R92). -/
def encodeRole : Role → Byte
  | .f0 => roleCode 0#3 0#5
  | .f1 => roleCode 1#3 0#5
  | .x => roleCode 2#3 0#5
  | .a n => roleCode 3#3 n
  | .i n => roleCode 4#3 n
  | .o n => roleCode 5#3 n

/-! ### The frame header (R100) -/

/-- The five bytes of a 40-bit number, frame byte 0 leftmost (R100, format FRAME40). -/
def headerBytes (h : Header) : List Byte :=
  [h.extractLsb' 32 8, h.extractLsb' 24 8, h.extractLsb' 16 8, h.extractLsb' 8 8, h.extractLsb' 0 8]

/-- The header bytes `1B seq lenHi lenLo 0E` (R100). -/
def frameHeaderBytes (seq lenHi lenLo : Byte) : List Byte :=
  [Config.start, seq, lenHi, lenLo, Config.token]

/-- The header as one number, byte 0 leftmost (R100). -/
def headerWord (b0 b1 b2 b3 b4 : Byte) : Header := b0 ++ b1 ++ b2 ++ b3 ++ b4

/-! ### The command word (R110) -/

/-- `op = cmd[47:40]` (R110). -/
def cmdOp (w : Cmd) : Byte := w.extractLsb' 40 8

/-- `t = cmd[39:32]` (R110). -/
def cmdT (w : Cmd) : Byte := w.extractLsb' 32 8

/-- `imm = cmd[31:0]` (R110). -/
def cmdImm (w : Cmd) : Word := w.extractLsb' 0 32

/-- `imm[31:8]`, unused by the operations whose immediate is a byte (R112). -/
def immAbove8 (imm : Word) : BitVec 24 := imm.extractLsb' 8 24

/-- `imm[31:16]`, unused by the operations whose immediate is 16 bits (R112). -/
def immAbove16 (imm : Word) : BitVec 16 := imm.extractLsb' 16 16

/-- `imm[7:0]` (R112). -/
def imm8 (imm : Word) : Byte := imm.extractLsb' 0 8

/-- `imm[15:0]` (R112). -/
def imm16 (imm : Word) : Half := imm.extractLsb' 0 16

/-- `op ‖ t ‖ imm` (R110, R112). -/
def mkCmd (op t : Byte) (imm : Word) : Cmd := op ++ t ++ imm

/-- Why a word is no instruction. -/
inductive Reject where
  /-- A reserved `op` value (R116): the machine raises `IllegalOp` (R230). -/
  | reservedOp (op : Byte)
  /-- A defined `op` with a non-zero unused field (R110, R116): the machine raises `IllegalOp` (R230). -/
  | unusedField (op : Byte)
  /-- Fewer bytes at the byte-list port than the count field says (R111): the command is not fully presented (log 6). -/
  | shortList (need : Nat)
  /-- An undefined role code (R92). -/
  | undefinedRole (code : Byte)
  /-- Five bytes that are no frame header: byte 0 is not the start marker or byte 4 not the token (R100). -/
  | notHeader (h : Header)
  deriving DecidableEq, Repr

/-- The operation an `op` value names; none for the reserved values (R112, R116). -/
def opOfByte (op : Byte) : Option Op :=
  match op.toNat with
  | 0x10 => some .tplload
  | 0x11 => some .tplvalid
  | 0x12 => some .encfix
  | 0x13 => some .encaddr
  | 0x14 => some .encin
  | 0x15 => some .decout
  | 0x16 => some .outidx
  | 0x20 => some .send
  | 0x21 => some .recv
  | 0x30 => some .ldbuf
  | 0x31 => some .rdbuf
  | 0x32 => some .ldresp
  | 0x33 => some .rdseq
  | 0x34 => some .rderr
  | _ => none

/-- How many bytes the byte-list port delivers with a command word (R111, R112): `n` for TPLLOAD, `L` for SEND, otherwise
none. -/
def listLen (w : Cmd) : Nat :=
  match opOfByte (cmdOp w) with
  | some .tplload => (imm8 (cmdImm w)).toNat
  | some .send => (imm16 (cmdImm w)).toNat
  | _ => 0

/-- A command without byte list whose unused fields must be zero. -/
def whenZero (unusedZero : Bool) (op : Byte) (i : Instr) : Except Reject Instr :=
  if unusedZero then .ok i else .error (.unusedField op)

/-- A command with a byte list of `n` bytes (R111). -/
def whenListed (unusedZero : Bool) (op : Byte) (n : Nat) (bytes : List Byte) (mk : List Byte → Instr) :
    Except Reject Instr :=
  if unusedZero then
    if n ≤ bytes.length then .ok (mk (bytes.take n)) else .error (.shortList n)
  else .error (.unusedField op)

/-- The operation `op` of a command word, the bytes at the byte-list port being `bytes` (R112). -/
def decodeOp (op : Op) (w : Cmd) (bytes : List Byte) : Except Reject Instr :=
  match op with
  | .tplload => whenListed (immAbove8 (cmdImm w) == 0#24) (cmdOp w) (listLen w) bytes (.tplload (cmdT w))
  | .tplvalid => whenZero (cmdImm w == 0#32) (cmdOp w) (.tplvalid (cmdT w))
  | .encfix => whenZero (cmdImm w == 0#32) (cmdOp w) (.encfix (cmdT w))
  | .encaddr => .ok (.encaddr (cmdT w) (cmdImm w))
  | .encin => whenZero (immAbove8 (cmdImm w) == 0#24) (cmdOp w) (.encin (cmdT w) (imm8 (cmdImm w)))
  | .decout => whenZero (cmdImm w == 0#32) (cmdOp w) (.decout (cmdT w))
  | .outidx => whenZero (cmdImm w == 0#32) (cmdOp w) (.outidx (cmdT w))
  | .send => whenListed (cmdT w == 0#8 && immAbove16 (cmdImm w) == 0#16) (cmdOp w) (listLen w) bytes .send
  | .recv => whenZero (cmdT w == 0#8 && immAbove16 (cmdImm w) == 0#16) (cmdOp w) (.recv (imm16 (cmdImm w)))
  | .ldbuf => whenZero (cmdT w == 0#8) (cmdOp w) (.ldbuf (cmdImm w))
  | .rdbuf => whenZero (cmdT w == 0#8 && cmdImm w == 0#32) (cmdOp w) .rdbuf
  | .ldresp => whenZero (cmdT w == 0#8) (cmdOp w) (.ldresp (cmdImm w))
  | .rdseq => whenZero (cmdT w == 0#8 && cmdImm w == 0#32) (cmdOp w) .rdseq
  | .rderr => whenZero (cmdT w == 0#8 && cmdImm w == 0#32) (cmdOp w) .rderr

/-- The instruction of a command word (R112, R116). -/
def decodeCmd (w : Cmd) (bytes : List Byte) : Except Reject Instr :=
  match opOfByte (cmdOp w) with
  | some op => decodeOp op w bytes
  | none => .error (.reservedOp (cmdOp w))

/-- The instruction of a role code (R92). -/
def decodeRoleWord (code : Byte) : Except Reject Instr :=
  match decodeRole code with
  | some .f0 => .ok .roleF0
  | some .f1 => .ok .roleF1
  | some .x => .ok .roleX
  | some (.a n) => .ok (.roleA n)
  | some (.i n) => .ok (.roleI n)
  | some (.o n) => .ok (.roleO n)
  | none => .error (.undefinedRole code)

/-- The instruction of a frame header (R100). -/
def decodeHeader (h : Header) : Except Reject Instr :=
  if h.extractLsb' 32 8 = Config.start ∧ h.extractLsb' 0 8 = Config.token then
    .ok (.frameHeader (h.extractLsb' 24 8) (h.extractLsb' 16 8) (h.extractLsb' 8 8))
  else .error (.notHeader h)

/-- A word of one of the three formats of spec/opcode_table.json, with its byte list where it has one. -/
inductive Encoded where
  /-- Format CMD48: a command word and its byte list (R110, R111). -/
  | cmd (w : Cmd) (bytes : List Byte)
  /-- Format ROLE8 (R92). -/
  | role (code : Byte)
  /-- Format FRAME40 (R100). -/
  | header (h : Header)
  deriving DecidableEq, Repr

/-- The decoder, total on every word of every format. -/
def decode : Encoded → Except Reject Instr
  | .cmd w bytes => decodeCmd w bytes
  | .role code => decodeRoleWord code
  | .header h => decodeHeader h

/-! ### The encoder (R92, R100, R112) -/

/-- The words of a well-formed instruction. -/
def encode : Instr → Encoded
  | .tplload t roles => .cmd (mkCmd 0x10#8 t ((BitVec.ofNat 8 roles.length).setWidth 32)) roles
  | .tplvalid t => .cmd (mkCmd 0x11#8 t 0#32) []
  | .encfix t => .cmd (mkCmd 0x12#8 t 0#32) []
  | .encaddr t address => .cmd (mkCmd 0x13#8 t address) []
  | .encin t data => .cmd (mkCmd 0x14#8 t (data.setWidth 32)) []
  | .decout t => .cmd (mkCmd 0x15#8 t 0#32) []
  | .outidx t => .cmd (mkCmd 0x16#8 t 0#32) []
  | .send payload => .cmd (mkCmd 0x20#8 0#8 ((BitVec.ofNat 16 payload.length).setWidth 32)) payload
  | .recv maxSize => .cmd (mkCmd 0x21#8 0#8 (maxSize.setWidth 32)) []
  | .ldbuf w => .cmd (mkCmd 0x30#8 0#8 w) []
  | .rdbuf => .cmd (mkCmd 0x31#8 0#8 0#32) []
  | .ldresp w => .cmd (mkCmd 0x32#8 0#8 w) []
  | .rdseq => .cmd (mkCmd 0x33#8 0#8 0#32) []
  | .rderr => .cmd (mkCmd 0x34#8 0#8 0#32) []
  | .roleF0 => .role (encodeRole .f0)
  | .roleF1 => .role (encodeRole .f1)
  | .roleX => .role (encodeRole .x)
  | .roleA n => .role (encodeRole (.a n))
  | .roleI n => .role (encodeRole (.i n))
  | .roleO n => .role (encodeRole (.o n))
  | .frameHeader seq lenHi lenLo => .header (headerWord Config.start seq lenHi lenLo Config.token)

/-- The word of `nbits` bits numbered as spec/opcode_table.json numbers them, with a byte list of zeros: the words of the
command port, of the template store and of the wire are each one number, so there is no byte order to lay out but the
header's, whose byte 0 is leftmost (R100). -/
def tableWord (nbits w : Nat) : Option Encoded :=
  match nbits with
  | 48 => some (.cmd (BitVec.ofNat 48 w) (List.replicate (listLen (BitVec.ofNat 48 w)) 0#8))
  | 8 => some (.role (BitVec.ofNat 8 w))
  | 40 => some (.header (BitVec.ofNat 40 w))
  | _ => none

/-- The instruction the decoder reads from a table word; none where it refuses. -/
def decodeTableWord (nbits w : Nat) : Option Instr :=
  match tableWord nbits w with
  | some e =>
    match decode e with
    | .ok i => some i
    | .error _ => none
  | none => none

end Sys2Proof
end

