-- ==== Sys2Proof/Machine/Operands.lean ====
section
/-! DEFINITION. Operand forms: bits of the word by position and its four bytes (00_scope.md R10, R15; 20_memory.md R67),
the bit an indexed role selects (40_codec.md R145, R150, R155), the bytes of a length (R65, R175). -/

namespace Sys2Proof.Machine

/-- `v[k]`, 0 where `k` is at or above the width (R10). -/
def bit {n : Nat} (v : BitVec n) (k : Nat) : Bool := v.getLsbD k

/-- `W[k] <- b`, every other position unchanged (R15, R140). -/
def writeBit (w : Word) (k : Nat) (b : Bool) : Word :=
  if b then w ||| (1#32 <<< k) else w &&& ~~~(1#32 <<< k)

/-- Byte `j` of a word, `BUF[j]` or `RESP[j]`, big-endian: position `k` is bit `k mod 8` of byte `3 - (k div 8)`
(R15, R67). -/
def wordByte (w : Word) (j : Nat) : Byte := w.extractLsb' (8 * (3 - j)) 8

/-- The word of four bytes, byte 0 most significant (R15, R67). -/
def wordOfBytes (b0 b1 b2 b3 : Byte) : Word := b0 ++ b1 ++ b2 ++ b3

/-- The byte that holds position `k`: `3 - (k div 8)` (R15, R160). -/
def byteOfPosition (k : Nat) : Nat := 3 - k / 8

/-- `(address >> n) & 1` (R145). -/
def addressBit (address : Word) (n : Index) : Bool := bit address n.toNat

/-- `(zext_32(data) >> n) & 1`: data bit `n`, 0 for `n ≥ 8` (R150). -/
def dataBit (data : Byte) (n : Index) : Bool := bit (data.setWidth 32) n.toNat

/-- `bit << n` within a byte, the contribution of an output role; nothing for `n ≥ 8` (R155). -/
def outputBit (b : Bool) (n : Index) : Byte :=
  if n.toNat ≤ 7 then (if b then 1#8 <<< n.toNat else 0#8) else 0#8

/-- `L[15:8]`, the high byte of a length (R65, R175). -/
def lenHi (len : Half) : Byte := len.extractLsb' 8 8

/-- `L[7:0]`, the low byte of a length (R65, R175). -/
def lenLo (len : Half) : Byte := len.extractLsb' 0 8

/-- `RXLEN[15:8] <- b` (R192). -/
def setLenHi (len : Half) (b : Byte) : Half := b ++ lenLo len

/-- `RXLEN[7:0] <- b` (R193). -/
def setLenLo (len : Half) (b : Byte) : Half := lenHi len ++ b

/-- A length as the 16-bit number it is sent and recorded as. -/
def lengthHalf {α : Type} (l : List α) : Half := BitVec.ofNat 16 l.length

/-- The address in `TPL` of slot `t`, position `k` (R20). -/
def tplAddr (t : Byte) (k : Nat) : Nat := Config.wordW * t.toNat + k

end Sys2Proof.Machine
end

