-- ==== Sys2Proof/Machine/Ops.lean ====
section
/-! DEFINITION. The named operations the meanings are built of: byte stores, raising an error (60_exceptions.md R250; the
block has no return from one, R260, R262), the result port, the template check, the scan of a template, the transmit
stream, the receive machine (42_framer_receive.md R186), arrival of bytes, and the reset event. -/

namespace Sys2Proof.Machine

/-! ### Byte stores (R12, R20, R36) -/

/-- What an address that is not listed reads as (DESIGN CHOICE, log 11). -/
def memDefault : Byte := 0x00#8

/-- `MemRead(B+i, 1)` (R12). -/
def Memory.read : Memory → Nat → Byte
  | [], _ => memDefault
  | (a, v) :: m, i => if a = i then v else Memory.read m i

/-- `MemWrite(B+i, 1, b)` (R12), keeping the canonical form. -/
def Memory.write : Memory → Nat → Byte → Memory
  | [], i, b => if b = memDefault then [] else [(i, b)]
  | (a, v) :: m, i, b =>
    if i < a then (if b = memDefault then (a, v) :: m else (i, b) :: (a, v) :: m)
    else if i = a then (if b = memDefault then m else (i, b) :: m)
    else (a, v) :: Memory.write m i b

/-- The canonical form: addresses strictly rising, no entry that reads as an unlisted address does. -/
def Memory.wf : Memory → Bool
  | [] => true
  | (a, v) :: m => v != memDefault && m.all (fun c => decide (a < c.1)) && Memory.wf m

/-- The bytes of a list written at successive addresses from `i`. -/
def Memory.writeAll : Memory → Nat → List Byte → Memory
  | m, _, [] => m
  | m, i, b :: bs => Memory.writeAll (Memory.write m i b) (i + 1) bs

/-- The `n` bytes from address 0. -/
def Memory.firstBytes (m : Memory) (n : Nat) : List Byte := (List.range n).map (Memory.read m)

/-! ### Ending an operation: `OK` or an error (R13, R111, R240, R250) -/

/-- An operation ends `OK` with a value: only the result port shows it; `ERR`, `ERRINFO` and `CFGF` stay (R38). -/
def endOk (value : Option Word) (payload : List Byte) (s : State) : State :=
  { s with result := some { status := okCode, value := value, payload := payload } }

/-- `raise Kind(info)`, in full (R250): the error record; `CFGF` for a configuration error (R243); `RXS <- IDLE` for the
errors of a RECV (R202); the status to the host, no value and no payload. -/
def raise (kind : ErrKind) (info : Half) (s : State) : State :=
  { s with
    err := errCode kind
    errinfo := info
    cfgf := s.cfgf || isConfiguration kind
    rxs := if isTransport kind then .idle else s.rxs
    result := some { status := errCode kind, value := none, payload := [] } }

/-- `zext_16` of a byte, the information of most errors (R241). -/
def info8 (b : Byte) : Half := b.setWidth 16

/-- `f` of the next state an outcome answers; a fault or a refusal stays. -/
def andThen (o : Host.Outcome State Fault Refusal) (f : State → Host.Outcome State Fault Refusal) :
    Host.Outcome State Fault Refusal :=
  match o with
  | .next s => f s
  | .fault r => .fault r
  | .refused r => .refused r

/-! ### Templates (R131, R138) -/

/-- The template range check, then `go` (R131 line 1, R137 line 1, R138 line 1). -/
def rangeCheck (t : Byte) (s : State) (go : Host.Outcome State Fault Refusal) : Host.Outcome State Fault Refusal :=
  if slotInRange s t then go else .next (raise .templateRange (info8 t) s)

/-- The template check of every user of a template, then `go` (R138). -/
def templateCheck (t : Byte) (s : State) (go : Host.Outcome State Fault Refusal) : Host.Outcome State Fault Refusal :=
  rangeCheck t s (if slotValid s t then go else .next (raise .templateNotValid (info8 t) s))

/-- The least position, counted from `k`, whose code is undefined, with that code (R131 line 4). -/
def firstUndefined : Nat → List Byte → Option (Nat × Byte)
  | _, [] => none
  | k, c :: cs => if roleDefined c then firstUndefined (k + 1) cs else some (k, c)

/-- `0x8000 | (k << 8) | code` (R131 line 4). -/
def undefinedInfo (k : Nat) (code : Byte) : Half := 0x8000#16 ||| (BitVec.ofNat 16 k <<< 8) ||| info8 code

/-- `role(t,k)`, the role that `TPL[t][k]` encodes; none for an undefined code, which a valid slot never holds. -/
def roleAt (s : State) (t : Byte) (k : Nat) : Option Role := decodeRole (Memory.read s.tpl (tplAddr t k))

/-! ### What a role does at a position (R91) -/

/-- What a codec operation works on: the word `W`, `out` of DECOUT, `k0` of OUTIDX. -/
structure CodecAcc where
  /-- The word `W`. -/
  word : Word
  /-- `out` (R155). -/
  out : Byte
  /-- The least output position so far (R160). -/
  first : Option Nat
  deriving DecidableEq, Repr

/-- `F0` at position `k`: ENCFIX writes the constant 0 (R91, R140). -/
def actF0 (op : ScanOp) (k : Nat) (c : CodecAcc) : CodecAcc :=
  match op with
  | .encfix => { c with word := writeBit c.word k false }
  | _ => c

/-- `F1` at position `k`: ENCFIX writes the constant 1 (R91, R140). -/
def actF1 (op : ScanOp) (k : Nat) (c : CodecAcc) : CodecAcc :=
  match op with
  | .encfix => { c with word := writeBit c.word k true }
  | _ => c

/-- `X`: no operation writes the bit and none reads it (R91). -/
def actX (c : CodecAcc) : CodecAcc := c

/-- `A(n)` at position `k`: ENCADDR writes address bit `n` (R91, R145). -/
def actA (n : Index) (op : ScanOp) (k : Nat) (c : CodecAcc) : CodecAcc :=
  match op with
  | .encaddr address => { c with word := writeBit c.word k (addressBit address n) }
  | _ => c

/-- `I(n)` at position `k`: ENCIN writes data bit `n`, 0 for `n ≥ 8` (R91, R150). -/
def actI (n : Index) (op : ScanOp) (k : Nat) (c : CodecAcc) : CodecAcc :=
  match op with
  | .encin data => { c with word := writeBit c.word k (dataBit data n) }
  | _ => c

/-- `O(n)` at position `k`: DECOUT ORs the response's bit `k` into bit `n` of the result (R91, R155); OUTIDX takes note of
the least such position (R160); no operation writes the word. -/
def actO (n : Index) (op : ScanOp) (resp : Word) (k : Nat) (c : CodecAcc) : CodecAcc :=
  match op with
  | .decout => { c with out := c.out ||| outputBit (bit resp k) n }
  | .outidx => { c with first := match c.first with | none => some k | some j => some j }
  | _ => c

/-- What the role of position `k` does under an operation. -/
def roleAct (op : ScanOp) (resp : Word) (k : Nat) (r : Option Role) (c : CodecAcc) : CodecAcc :=
  match r with
  | some .f0 => actF0 op k c
  | some .f1 => actF1 op k c
  | some .x => actX c
  | some (.a n) => actA n op k c
  | some (.i n) => actI n op k c
  | some (.o n) => actO n op resp k c
  | none => c

/-- `for k in 0..31` of the pseudocode of R140, R145, R150, R155, R160. -/
def scanAll (op : ScanOp) (resp : Word) (roles : Nat → Option Role) (c : CodecAcc) : CodecAcc :=
  (List.range Config.wordW).foldl (fun c k => roleAct op resp k (roles k) c) c

/-- The value OUTIDX returns: `3 - (k0 div 8)`, `0xFF` for none (R160). -/
def outidxValue (first : Option Nat) : Word :=
  match first with
  | some k => BitVec.ofNat 32 (byteOfPosition k)
  | none => 0xFF#32

/-- The value a codec operation returns (R112). -/
def scanValue (op : ScanOp) (c : CodecAcc) : Option Word :=
  match op with
  | .encfix => none
  | .encaddr _ => none
  | .encin _ => none
  | .decout => some (c.out.setWidth 32)
  | .outidx => some (outidxValue c.first)

/-- The end of a codec operation: the word back in `BUF`, the value on the port. -/
def scanEnd (op : ScanOp) (c : CodecAcc) (s : State) : State :=
  endOk (scanValue op c) [] { s with buf := c.word }

/-- A codec operation on a slot, after its template check: all 32 positions in one step (R70, log 9). -/
def codecOp (op : ScanOp) (t : Byte) (s : State) : State :=
  scanEnd op (scanAll op s.resp (roleAt s t) { word := s.buf, out := 0#8, first := none }) s

/-- The start of a codec operation taken one position at a time (log 7): `k = 0`, `out = 0`, no output position yet. -/
def scanStart (op : ScanOp) (t : Byte) (s : State) : State :=
  { s with scan := some { op := op, slot := t, pos := 0, out := 0#8, first := none }, result := none }

/-- One position of a scan: the role's action `act` on the operation and the position, then the next position, or after
position 31 the end of the operation. With no scan in progress a role code does nothing: no operation reads it (R91,
log 7). -/
def scanStep (act : ScanOp → Nat → CodecAcc → CodecAcc) (s : State) : State :=
  match s.scan with
  | none => s
  | some sc =>
    let c := act sc.op sc.pos { word := s.buf, out := sc.out, first := sc.first }
    if sc.pos + 1 < Config.wordW then
      { s with buf := c.word, scan := some { sc with pos := sc.pos + 1, out := c.out, first := c.first } }
    else scanEnd sc.op c { s with scan := none }

/-! ### The transmit stream (R61, R170) -/

/-- `StreamWrite(b)`: appends and always completes (R61). -/
def streamWrite (b : Byte) (s : State) : State := { s with txs := s.txs ++ [b] }

/-- `emit` for each byte of a list: the byte to the stream and into `TXSUM` (R170). -/
def emitAll (bytes : List Byte) (s : State) : State :=
  { s with txs := s.txs ++ bytes, txsum := xorOnto s.txsum bytes }

/-- `StreamWrite(TXSUM)`, the checksum byte (R170 line 9). -/
def writeChecksum (s : State) : State := streamWrite s.txsum s

/-- The bytes of a frame before its checksum: header and payload (R100). -/
def frameBody (seq : Byte) (payload : List Byte) : List Byte :=
  frameHeaderBytes seq (lenHi (lengthHalf payload)) (lenLo (lengthHalf payload)) ++ payload

/-- Lines 2 to 9 of SEND (R170): `TXSUM` starts at 0, every byte of header and payload is emitted, and the
sum they leave in `TXSUM` is written as the checksum. -/
def sendFrame (payload : List Byte) (s : State) : State :=
  writeChecksum (emitAll (frameBody s.seq payload) { s with txsum := 0#8 })

/-! ### The receive machine (R185 to R202) -/

/-- The start step of RECV (R185): nothing is returned until the machine is idle again. -/
def recvStart (maxSize : Half) (s : State) : State :=
  { s with
    rxmax := BitVec.ofNat 16 (min maxSize.toNat s.par.maxPayload)
    rxlen := 0#16, rxcnt := 0#16, rxsum := 0#8, rxs := .wStart, result := none }

/-- The accepted frame (R200): `SEQ <- (SEQ + 1) mod 256`, `RXS <- IDLE`, the payload on the port. -/
def accept (s : State) : Host.Outcome State Fault Refusal :=
  if s.rxlen.toNat ≤ s.par.maxPayload then
    .next (endOk (some (s.rxlen.setWidth 32)) (Memory.firstBytes s.rxbuf s.rxlen.toNat)
      { s with seq := s.seq + 1#8, rxs := .idle })
  else .fault .rxbufRange

/-- State `W_DATA` (R195): the byte into `RXBUF[RXCNT]`, the count up, the checksum next after the last byte. -/
def storeData (b : Byte) (s : State) : Host.Outcome State Fault Refusal :=
  if s.rxcnt.toNat < s.par.maxPayload then
    .next { s with
      rxbuf := Memory.write s.rxbuf s.rxcnt.toNat b
      rxcnt := s.rxcnt + 1#16
      rxs := if s.rxcnt + 1#16 = s.rxlen then .wCsum else .wData }
  else .fault .rxbufRange

/-- The rule of the current state applied to the byte read, `RXSUM` being folded already (R190 to R200). -/
def recvRule (b : Byte) (s : State) : Host.Outcome State Fault Refusal :=
  match s.rxs with
  | .idle => .next s
  | .wStart => if b = Config.start then .next { s with rxs := .wSeq } else .next (raise .badStart (info8 b) s)
  | .wSeq => if b = s.seq then .next { s with rxs := .wLenHi } else .next (raise .badSeq (s.seq ++ b) s)
  | .wLenHi => .next { s with rxlen := setLenHi s.rxlen b, rxs := .wLenLo }
  | .wLenLo =>
    if (setLenLo s.rxlen b).toNat ≤ s.rxmax.toNat then .next { s with rxlen := setLenLo s.rxlen b, rxs := .wToken }
    else .next (raise .tooLong (setLenLo s.rxlen b) { s with rxlen := setLenLo s.rxlen b })
  | .wToken =>
    if b = Config.token then .next { s with rxs := if s.rxlen = 0#16 then .wCsum else .wData }
    else .next (raise .badToken (info8 b) s)
  | .wData => storeData b s
  | .wCsum => if s.rxsum = 0#8 then accept s else .next (raise .checksum (info8 s.rxsum) s)

/-- One receive step on a byte: fold it into `RXSUM`, then the rule of the state (R189). In `IDLE` the machine takes no
step (R186). -/
def recvByte (b : Byte) (s : State) : Host.Outcome State Fault Refusal :=
  match s.rxs with
  | .idle => .next s
  | _ => recvRule b { s with rxsum := s.rxsum ^^^ b }

/-- One receive step on the outcome of its `StreamRead()` (R62, R189, R201). -/
def recvStep (d : Config.Draw) (s : State) : Host.Outcome State Fault Refusal :=
  match d with
  | .byte b => recvByte b s
  | .timeout =>
    match s.rxs with
    | .idle => .next s
    | _ => .next (raise .timeout ((rxCode s.rxs).setWidth 16) s)

/-- A byte arrives from the peer: a wait that is running takes it at once, otherwise it waits at the tail of `RXQ`
(R60, R62, R64). -/
def arrive (b : Byte) (s : State) : Host.Outcome State Fault Refusal :=
  if busy s && s.rxq.isEmpty then recvByte b s else .next { s with rxq := s.rxq ++ [b] }

/-- Bytes arrive one after the other. -/
def arriveAll : List Byte → State → Host.Outcome State Fault Refusal
  | [], s => .next s
  | b :: bs, s => andThen (arrive b s) (arriveAll bs)

/-! ### Reset (R47, R280, R281) -/

/-- The reset event: the block's registers at their reset values; the streams, the parameters and what host and line will
do are not the block's and stay. `TPL` and `RXBUF`, whose contents reset leaves unspecified and no operation can see, list
nothing (DESIGN CHOICE, log 11). An operation in progress is abandoned without a result (R281). -/
def resetEvent (s : State) : State :=
  { s with
    tpl := [], tplv := 0#256, buf := 0#32, resp := 0#32, seq := s.par.seqReset
    rxs := .idle, rxlen := 0#16, rxcnt := 0#16, rxsum := 0#8, rxmax := 0#16, rxbuf := [], txsum := 0#8
    err := 0#8, errinfo := 0#16, cfgf := false
    result := none, resetPin := false, scan := none }

end Sys2Proof.Machine
end

