-- ==== Sys2Proof/Machine/Codec.lean ====
section
/-! DEFINITION. The codec's operations (40_codec.md), one definition per instruction. -/

namespace Sys2Proof.Machine

/-- `TPLLOAD t, n, roles` (R131), `n` the length of `roles`: range, lock, count, codes, in this order (R252), then the 32
codes and the validity bit. -/
def execTplload (t : Byte) (roles : List Byte) (s : State) : Host.Outcome State Fault Refusal :=
  rangeCheck t s <|
    if slotValid s t then .next (raise .templateLocked (info8 t) s)
    else if roles.length ≠ Config.wordW then .next (raise .invalidTemplate (lengthHalf roles) s)
    else
      match firstUndefined 0 roles with
      | some (k, code) => .next (raise .invalidTemplate (undefinedInfo k code) s)
      | none =>
        .next (endOk none []
          { s with tpl := Memory.writeAll s.tpl (tplAddr t 0) roles, tplv := setValid s.tplv t })

/-- `TPLVALID t` (R137): the validity bit; only the range is checked. -/
def execTplvalid (t : Byte) (s : State) : Host.Outcome State Fault Refusal :=
  rangeCheck t s (.next (endOk (some (if slotValid s t then 1#32 else 0#32)) [] s))

/-- `ENCFIX t` (R140). -/
def execEncfix (t : Byte) (s : State) : Host.Outcome State Fault Refusal :=
  templateCheck t s (.next (codecOp .encfix t s))

/-- `ENCADDR t, address` (R145). -/
def execEncaddr (t : Byte) (address : Word) (s : State) : Host.Outcome State Fault Refusal :=
  templateCheck t s (.next (codecOp (.encaddr address) t s))

/-- `ENCIN t, data` (R150). -/
def execEncin (t : Byte) (data : Byte) (s : State) : Host.Outcome State Fault Refusal :=
  templateCheck t s (.next (codecOp (.encin data) t s))

/-- `DECOUT t` (R155). -/
def execDecout (t : Byte) (s : State) : Host.Outcome State Fault Refusal :=
  templateCheck t s (.next (codecOp .decout t s))

/-- `OUTIDX t` (R160). -/
def execOutidx (t : Byte) (s : State) : Host.Outcome State Fault Refusal :=
  templateCheck t s (.next (codecOp .outidx t s))

end Sys2Proof.Machine
end

