-- ==== Sys2Proof/Machine/Framer.lean ====
section
/-! DEFINITION. The framer's operations (41_framer_send.md, 42_framer_receive.md) and the frame header on the line. -/

namespace Sys2Proof.Machine

/-- `SEND L, payload` (R170), `L` the length of `payload`: the whole frame in one step (R77), or `PayloadTooLong` before
any byte is written. -/
def execSend (payload : List Byte) (s : State) : Host.Outcome State Fault Refusal :=
  if payload.length ≤ s.par.maxPayload then .next (endOk none [] (sendFrame payload s))
  else .next (raise .payloadTooLong (lengthHalf payload) s)

/-- `RECV maxSize` (R185): the start step; the steps of the machine follow, one per `StreamRead()` (R189, Step.lean). -/
def execRecv (maxSize : Half) (s : State) : Host.Outcome State Fault Refusal := .next (recvStart maxSize s)

/-- The frame header (R100): its five bytes reach the block, one after the other; a receive in progress takes them by
R189 to R194, and what no receive takes waits in `RXQ` (R64; log 8). -/
def execFrameHeader (seq lenHi lenLo : Byte) (s : State) : Host.Outcome State Fault Refusal :=
  arriveAll (frameHeaderBytes seq lenHi lenLo) s

end Sys2Proof.Machine
end

