-- ==== Sys2Proof/Machine/HostAccess.lean ====
section
/-! DEFINITION. The host access operations (43_host_access.md R220 to R225) and the illegal command (R230). -/

namespace Sys2Proof.Machine

/-- `LDBUF w` (R220). -/
def execLdbuf (w : Word) (s : State) : Host.Outcome State Fault Refusal := .next (endOk none [] { s with buf := w })

/-- `RDBUF` (R221): `BUF[0] ‖ BUF[1] ‖ BUF[2] ‖ BUF[3]`. -/
def execRdbuf (s : State) : Host.Outcome State Fault Refusal := .next (endOk (some s.buf) [] s)

/-- `LDRESP w` (R222). -/
def execLdresp (w : Word) (s : State) : Host.Outcome State Fault Refusal := .next (endOk none [] { s with resp := w })

/-- `RDSEQ` (R223). -/
def execRdseq (s : State) : Host.Outcome State Fault Refusal := .next (endOk (some (s.seq.setWidth 32)) [] s)

/-- `CFGF ‖ ERR ‖ ERRINFO`, 25 bits (R224). -/
def errRecord (s : State) : BitVec 25 := BitVec.ofBool s.cfgf ++ s.err ++ s.errinfo

/-- `RDERR` (R224). -/
def execRderr (s : State) : Host.Outcome State Fault Refusal := .next (endOk (some ((errRecord s).setWidth 32)) [] s)

/-- An illegal command word: `raise IllegalOp(op)` (R230). -/
def illegalCommand (w : Cmd) (s : State) : State := raise .illegalOp (info8 (cmdOp w)) s

end Sys2Proof.Machine
end

