-- ==== Sys2Proof/Machine/Roles.lean ====
section
/-! DEFINITION. The six role codes as the codec goes through them (30_encoding.md R91, R92): what one role does at the
position a codec operation is looking at. A codec operation of Machine/Codec.lean is 32 of these (log 7). -/

namespace Sys2Proof.Machine

/-- Role `F0` (R91). -/
def execRoleF0 (s : State) : Host.Outcome State Fault Refusal := .next (scanStep actF0 s)

/-- Role `F1` (R91). -/
def execRoleF1 (s : State) : Host.Outcome State Fault Refusal := .next (scanStep actF1 s)

/-- Role `X` (R91). -/
def execRoleX (s : State) : Host.Outcome State Fault Refusal := .next (scanStep (fun _ _ c => actX c) s)

/-- Role `A(n)` (R91). -/
def execRoleA (n : Index) (s : State) : Host.Outcome State Fault Refusal := .next (scanStep (actA n) s)

/-- Role `I(n)` (R91, R93). -/
def execRoleI (n : Index) (s : State) : Host.Outcome State Fault Refusal := .next (scanStep (actI n) s)

/-- Role `O(n)` (R91, R93). -/
def execRoleO (n : Index) (s : State) : Host.Outcome State Fault Refusal :=
  .next (scanStep (fun op k c => actO n op s.resp k c) s)

end Sys2Proof.Machine
end

