-- ==== Sys2Proof/Machine/Dispatch.lean ====
section
/-! DEFINITION. One arm per instruction. -/

namespace Sys2Proof.Machine

def exec (i : Instr) (s : State) : Host.Outcome State Fault Refusal :=
  match i with
  | .tplload t roles => Sys2Proof.Machine.execTplload t roles s
  | .tplvalid t => Sys2Proof.Machine.execTplvalid t s
  | .encfix t => Sys2Proof.Machine.execEncfix t s
  | .encaddr t address => Sys2Proof.Machine.execEncaddr t address s
  | .encin t data => Sys2Proof.Machine.execEncin t data s
  | .decout t => Sys2Proof.Machine.execDecout t s
  | .outidx t => Sys2Proof.Machine.execOutidx t s
  | .send payload => Sys2Proof.Machine.execSend payload s
  | .recv maxSize => Sys2Proof.Machine.execRecv maxSize s
  | .ldbuf w => Sys2Proof.Machine.execLdbuf w s
  | .rdbuf => Sys2Proof.Machine.execRdbuf s
  | .ldresp w => Sys2Proof.Machine.execLdresp w s
  | .rdseq => Sys2Proof.Machine.execRdseq s
  | .rderr => Sys2Proof.Machine.execRderr s
  | .roleF0 => Sys2Proof.Machine.execRoleF0 s
  | .roleF1 => Sys2Proof.Machine.execRoleF1 s
  | .roleX => Sys2Proof.Machine.execRoleX s
  | .roleA n => Sys2Proof.Machine.execRoleA n s
  | .roleI n => Sys2Proof.Machine.execRoleI n s
  | .roleO n => Sys2Proof.Machine.execRoleO n s
  | .frameHeader seq lenHi lenLo => Sys2Proof.Machine.execFrameHeader seq lenHi lenLo s

end Sys2Proof.Machine
end

