-- ==== Sys2Proof/Machine/Fetch.lean ====
section
/-! DEFINITION. Where the next instruction stands: a command at the host's ports (30_encoding.md R110, R111), a role code
in the template store while a codec operation is between two positions (log 7), a header on the line (log 8). -/

namespace Sys2Proof.Machine

/-- The state with a fetched command taken from the ports: its word, and the bytes that accompany it (R111). -/
def takeCommand (w : Cmd) (rest : List Cmd) (s : State) : State :=
  { s with cmds := rest, blist := s.blist.drop (listLen w) }

/-- The state with an illegal command's word taken from the port; its byte list is empty (R111, R230). -/
def dropCommand (rest : List Cmd) (s : State) : State := { s with cmds := rest }

/-- The role code the scan looks at, `TPL[t][k]` (R20). -/
def scanCode (sc : Scan) (s : State) : Byte := Memory.read s.tpl (tplAddr sc.slot sc.pos)

/-- The state in which a command word and its bytes are the next to be run: the ports hold them first, and no reset,
receive or scan goes before. -/
def placeCommand (w : Cmd) (bytes : List Byte) (s : State) : State :=
  { s with cmds := w :: s.cmds, blist := bytes ++ s.blist, resetPin := false, rxs := .idle, scan := none }

/-- The state in which a role code is the next to be run: ENCFIX looks at position 0 of slot 0, which holds the code. -/
def placeRole (code : Byte) (s : State) : State :=
  { s with
    tpl := Memory.write s.tpl (tplAddr 0#8 0) code
    scan := some { op := .encfix, slot := 0#8, pos := 0, out := 0#8, first := none }
    resetPin := false }

/-- The state in which a header is the next to be run: the first thing the line brings, with no arrived byte before it
where a receive waits, and no command before it where none does. -/
def placeHeader (h : Header) (s : State) : State :=
  { s with
    line := .header h :: s.line
    cmds := if busy s then s.cmds else []
    rxq := if busy s then [] else s.rxq
    resetPin := false
    scan := none }

end Sys2Proof.Machine
end

