-- ==== Sys2Proof/Machine/Step.lean ====
section
/-! DEFINITION. One step of the machine. The reset event goes first (R280); then a codec operation between two positions;
then a receive in progress, one `StreamRead()` per step (R77, R189); and in `IDLE` the host's next command (R282). -/

namespace Sys2Proof.Machine

/-- The line's next event, for a wait on an empty `RXQ` and for an idle block (R60, R62): a byte or a header arrives; a
silence ends a running wait in `timeout`. Where the data of the state ends, a running wait is a free draw (log 3) and an
idle block waits for the host (R282). -/
def lineStep (s : State) : Host.Outcome State Fault Refusal :=
  match s.line with
  | .byte b :: rest => arrive b { s with line := rest }
  | .silence :: rest => recvStep .timeout { s with line := rest }
  | .header h :: rest =>
    match decode (.header h) with
    | .ok i => exec i { s with line := rest }
    | .error _ => arriveAll (headerBytes h) { s with line := rest }
  | [] => if busy s then recvStep (Config.lineDraw s.waits) { s with waits := s.waits + 1 } else .next s

/-- The host's next command (R110, R230): its instruction; `IllegalOp` for an illegal word; while its byte list is not
fully presented the block waits (log 6). With no command at all the block waits (R282) and what the line brings is
queued (R64). -/
def commandStep (s : State) : Host.Outcome State Fault Refusal :=
  match s.cmds with
  | [] => lineStep s
  | w :: rest =>
    match decode (.cmd w s.blist) with
    | .ok i => exec i (takeCommand w rest s)
    | .error (.shortList _) => .next s
    | .error _ => .next (illegalCommand w (dropCommand rest s))

/-- One position of a codec operation: the role code in the template store (log 7); an undefined code, which no valid slot
holds, writes nothing. -/
def roleStep (sc : Scan) (s : State) : Host.Outcome State Fault Refusal :=
  match decode (.role (scanCode sc s)) with
  | .ok i => exec i s
  | .error _ => .next (scanStep (fun _ _ c => c) s)

/-- One receive step: the head of `RXQ`, or else what the line brings (R62, R189). -/
def receiveStep (s : State) : Host.Outcome State Fault Refusal :=
  match s.rxq with
  | b :: rest => recvStep (.byte b) { s with rxq := rest }
  | [] => lineStep s

/-- One step. -/
def step (s : State) : Host.Outcome State Fault Refusal :=
  if s.resetPin then .next (resetEvent s)
  else
    match s.scan with
    | some sc => roleStep sc s
    | none => if busy s then receiveStep s else commandStep s

/-- `s` with the table word of `nbits` bits stored where `step` fetches its next instruction, with a byte list of zeros
where the word has one. Words of no format change nothing. -/
def State.withFetchWord (s : State) (nbits w : Nat) : State :=
  match tableWord nbits w with
  | some (.cmd c bytes) => placeCommand c bytes s
  | some (.role code) => placeRole code s
  | some (.header h) => placeHeader h s
  | none => s

end Sys2Proof.Machine
end

