-- ==== Sys2Proof/Machine/Text.lean ====
section
/-! DEFINITION. The text notation of 30_encoding.md R118 and R119: template text, position 31 first, and operation text.
Numbers are written in decimal, one of the notations of 00_scope.md R9. Notation only: no step reads it. -/

namespace Sys2Proof.Machine

/-- The token of a role (R16, R118). -/
def roleToken : Role → String
  | .f0 => "0"
  | .f1 => "1"
  | .x => "x"
  | .a n => "a" ++ toString n.toNat
  | .i n => "i" ++ toString n.toNat
  | .o n => "o" ++ toString n.toNat

/-- The byte list that TPLLOAD is given for a template text: the text has position 31 first, the list position 0 first
(R111, R118). -/
def templateBytes (text : List Role) : List Byte := text.reverse.map encodeRole

/-- The token of a role code; an undefined code, which no text denotes, as its number. -/
def codeToken (code : Byte) : String :=
  match decodeRole code with
  | some r => roleToken r
  | none => toString code.toNat

/-- Template text, tokens separated by spaces, the last position first (R118). -/
def templateText (roles : List Byte) : String := String.intercalate " " (roles.reverse.map codeToken)

/-- A byte list in square brackets (R119). -/
def bytesText (bytes : List Byte) : String :=
  "[" ++ String.intercalate " " (bytes.map (fun b => toString b.toNat)) ++ "]"

/-- A text in braces (R119), U+007B and U+007D. -/
def inBraces (text : String) : String :=
  String.singleton (Char.ofNat 123) ++ text ++ String.singleton (Char.ofNat 125)

/-- A mnemonic and its operands, separated by commas (R119). -/
def operationText (mnemonic : String) (operands : List String) : String :=
  if operands.isEmpty then mnemonic else mnemonic ++ " " ++ String.intercalate ", " operands

/-- The mnemonic of an instruction, as spec/opcode_table.json has it. -/
def mnemonic : Instr → String
  | .tplload _ _ => "TPLLOAD"
  | .tplvalid _ => "TPLVALID"
  | .encfix _ => "ENCFIX"
  | .encaddr _ _ => "ENCADDR"
  | .encin _ _ => "ENCIN"
  | .decout _ => "DECOUT"
  | .outidx _ => "OUTIDX"
  | .send _ => "SEND"
  | .recv _ => "RECV"
  | .ldbuf _ => "LDBUF"
  | .rdbuf => "RDBUF"
  | .ldresp _ => "LDRESP"
  | .rdseq => "RDSEQ"
  | .rderr => "RDERR"
  | .roleF0 => "ROLE.F0"
  | .roleF1 => "ROLE.F1"
  | .roleX => "ROLE.X"
  | .roleA _ => "ROLE.A"
  | .roleI _ => "ROLE.I"
  | .roleO _ => "ROLE.O"
  | .frameHeader _ _ _ => "FRAME.HEADER"

/-- The operands of an instruction, written out (R119). -/
def operandTexts : Instr → List String
  | .tplload t roles => [toString t.toNat, toString roles.length, inBraces (templateText roles)]
  | .tplvalid t => [toString t.toNat]
  | .encfix t => [toString t.toNat]
  | .encaddr t address => [toString t.toNat, toString address.toNat]
  | .encin t data => [toString t.toNat, toString data.toNat]
  | .decout t => [toString t.toNat]
  | .outidx t => [toString t.toNat]
  | .send payload => [toString payload.length, bytesText payload]
  | .recv maxSize => [toString maxSize.toNat]
  | .ldbuf w => [toString w.toNat]
  | .rdbuf => []
  | .ldresp w => [toString w.toNat]
  | .rdseq => []
  | .rderr => []
  | .roleF0 => []
  | .roleF1 => []
  | .roleX => []
  | .roleA n => [toString n.toNat]
  | .roleI n => [toString n.toNat]
  | .roleO n => [toString n.toNat]
  | .frameHeader seq lenHi lenLo => [toString seq.toNat, toString lenHi.toNat, toString lenLo.toNat]

/-- Operation text (R119). -/
def instrText (i : Instr) : String := operationText (mnemonic i) (operandTexts i)

end Sys2Proof.Machine
end

