-- ==== Sys2Proof/Machine/Pseudo.lean ====
section
/-! DEFINITION. The pseudo-operations (30_encoding.md R120): BUILD (40_codec.md R165) and EXCHANGE (42_framer_receive.md
R216). Each is exactly its sequence; after a step that raises an error the later steps are not executed. -/

namespace Sys2Proof.Machine

/-- The operation that has just ended, ended `OK`. -/
def endedOk (s : State) : Bool :=
  match s.result with
  | some r => r.status == okCode
  | none => false

/-- The next operation of a sequence, if the one before it ended `OK` (R120). -/
def thenOp (o : Host.Outcome State Fault Refusal) (i : Instr) : Host.Outcome State Fault Refusal :=
  andThen o (fun s => if endedOk s then exec i s else .next s)

/-- `BUILD t, address, data`: `LDBUF 0`; `ENCFIX t`; `ENCADDR t, address`; `ENCIN t, data` (R120, R165). -/
def build (t : Byte) (address : Word) (data : Byte) (s : State) : Host.Outcome State Fault Refusal :=
  thenOp (thenOp (thenOp (exec (.ldbuf 0#32) s) (.encfix t)) (.encaddr t address)) (.encin t data)

/-- `EXCHANGE L, payload, maxSize`: `SEND`; `RECV` (R120, R216). The receive then runs by steps of the machine. -/
def exchange (payload : List Byte) (maxSize : Half) (s : State) : Host.Outcome State Fault Refusal :=
  thenOp (exec (.send payload) s) (.recv maxSize)

end Sys2Proof.Machine
end

