-- ==== Sys2Proof/Safety.lean ====
section
/-! DEFINITION. What counts as a safe run, and the terms the statements use: the faulted states (10_state.md R39, U1), the
invariant of the machine, the frame of a payload (30_encoding.md R100), the bytes a receive has read so far, the bound on
the steps a receive still takes (42_framer_receive.md R217), the command words of spec/opcode_table.json, and RECV in one
big step (R210). -/

namespace Sys2Proof.Machine

/-- A faulted state: a configuration error has happened since reset (R39, R243, U1). No rule of the block reads `CFGF`; a
claim about a correct host excludes these states. -/
def Faulted (s : State) : Prop := s.cfgf = true

/-- The `OK` result with a value and a payload (R111, R240). -/
def okPort (value : Option Word) (payload : List Byte) : Option Result :=
  some { status := 0x00#8, value := value, payload := payload }

/-- The result of an operation that raised: the status, no value, no payload (R111, R250). -/
def errPort (status : Byte) : Option Result :=
  some { status := status, value := none, payload := [] }

/-- A slot every codec operation may use: in range and valid (R138). -/
def Usable (s : State) (t : Byte) : Prop := t.toNat < s.par.nTpl ∧ s.tplv.getLsbD t.toNat = true

/-- The block can take a command: no reset pending, no scan, no receive (R70, R282). -/
def Ready (s : State) : Prop := s.resetPin = false ∧ s.scan = none ∧ s.rxs = .idle

/-- A receive waits in state `st`, no reset pending (R189). -/
def Waiting (s : State) (st : RxState) : Prop := s.resetPin = false ∧ s.scan = none ∧ s.rxs = st ∧ st ≠ .idle

/-! ### Frames (R100) -/

/-- The exclusive OR of a list of bytes (R102). -/
def xorAll : List Byte → Byte
  | [] => 0x00#8
  | b :: bs => b ^^^ xorAll bs

/-- The frame bytes before the checksum, for a sequence number and a payload: `1B seq lenHi lenLo 0E payload` (R100). -/
def frameFront (seq : Byte) (payload : List Byte) : List Byte :=
  [0x1B#8, seq, BitVec.ofNat 8 (payload.length / 256), BitVec.ofNat 8 (payload.length % 256), 0x0E#8] ++ payload

/-- The whole frame (R100, R102). -/
def frame (seq : Byte) (payload : List Byte) : List Byte :=
  frameFront seq payload ++ [xorAll (frameFront seq payload)]

/-- The frame bytes the receive in progress has read so far, as the registers hold them (R190 to R195): the ones it
matched, the length, and the payload bytes stored. -/
def bytesRead (s : State) : List Byte :=
  match s.rxs with
  | .idle => []
  | .wStart => []
  | .wSeq => [0x1B#8]
  | .wLenHi => [0x1B#8, s.seq]
  | .wLenLo => [0x1B#8, s.seq, lenHi s.rxlen]
  | .wToken => [0x1B#8, s.seq, lenHi s.rxlen, lenLo s.rxlen]
  | .wData => [0x1B#8, s.seq, lenHi s.rxlen, lenLo s.rxlen, 0x0E#8] ++ Memory.firstBytes s.rxbuf s.rxcnt.toNat
  | .wCsum => [0x1B#8, s.seq, lenHi s.rxlen, lenLo s.rxlen, 0x0E#8] ++ Memory.firstBytes s.rxbuf s.rxcnt.toNat

/-- A bound on the `StreamRead()`s the receive in progress still performs (R217). -/
def readsLeft (s : State) : Nat :=
  match s.rxs with
  | .idle => 0
  | .wStart => 65541
  | .wSeq => 65540
  | .wLenHi => 65539
  | .wLenLo => 65538
  | .wToken => 2 + s.rxlen.toNat
  | .wData => 1 + (s.rxlen.toNat - s.rxcnt.toNat)
  | .wCsum => 1

/-! ### The invariant -/

/-- The counters of a receive in progress (R193, R195): the payload fits what the host will take, and what it will take
fits the buffer. -/
def ReceiveCounts (s : State) : Prop :=
  match s.rxs with
  | .idle => True
  | .wStart => s.rxcnt = 0#16
  | .wSeq => s.rxcnt = 0#16
  | .wLenHi => s.rxcnt = 0#16
  | .wLenLo => s.rxcnt = 0#16
  | .wToken => s.rxcnt = 0#16 ∧ s.rxlen.toNat ≤ s.rxmax.toNat
  | .wData => s.rxcnt.toNat < s.rxlen.toNat ∧ s.rxlen.toNat ≤ s.rxmax.toNat
  | .wCsum => s.rxcnt = s.rxlen ∧ s.rxlen.toNat ≤ s.rxmax.toNat

/-- The invariant of the machine. -/
structure Inv (s : State) : Prop where
  /-- The parameters are in the ranges of R7. -/
  params : s.par.wf = true
  /-- The template store is canonical. -/
  tplForm : Memory.wf s.tpl = true
  /-- The receive buffer is canonical. -/
  rxbufForm : Memory.wf s.rxbuf = true
  /-- The template store has entries of its slots only (R20). -/
  tplRange : ∀ c ∈ s.tpl, c.1 < 32 * s.par.nTpl
  /-- The receive buffer has entries below `MAX_PAYLOAD` only (R36). -/
  rxbufRange : ∀ c ∈ s.rxbuf, c.1 < s.par.maxPayload
  /-- A valid slot exists and holds 32 defined role codes (R21). -/
  templates : ∀ t : Byte, s.tplv.getLsbD t.toNat = true →
    t.toNat < s.par.nTpl ∧ ∀ k, k < 32 → roleDefined (Memory.read s.tpl (32 * t.toNat + k)) = true
  /-- `ERR` holds `OK` or the code of an error of R241. -/
  errCodes : s.err = 0x00#8 ∨ ∃ kind, s.err = errCode kind
  /-- A configuration error on record has left its sticky mark (R243). -/
  errSticky : s.err ∈ [0x40#8, 0x41#8, 0x42#8, 0x43#8] → s.cfgf = true
  /-- A receive in progress takes no more than the buffer holds (R185). -/
  rxmaxRange : s.rxs ≠ .idle → s.rxmax.toNat ≤ s.par.maxPayload
  /-- The counters of a receive in progress. -/
  counts : ReceiveCounts s
  /-- `RXSUM` is the exclusive OR of the frame bytes read so far (R34, R189). -/
  sum : s.rxs ≠ .idle → s.rxsum = xorAll (bytesRead s)
  /-- A receive in progress has returned nothing yet (R185). -/
  quiet : s.rxs ≠ .idle → s.result = none
  /-- A scan is within a template of a usable slot, and no receive runs beside it (R70, R138). -/
  scanning : ∀ sc, s.scan = some sc → s.rxs = .idle ∧ sc.pos < 32 ∧ s.tplv.getLsbD sc.slot.toNat = true

/-! ### The command words of spec/opcode_table.json (R112) -/

/-- Mask and match of the fourteen rows of format CMD48. -/
def commandRows : List (Cmd × Cmd) :=
  [(0xFF00FFFFFF00#48, 0x100000000000#48), (0xFF00FFFFFFFF#48, 0x110000000000#48),
   (0xFF00FFFFFFFF#48, 0x120000000000#48), (0xFF0000000000#48, 0x130000000000#48),
   (0xFF00FFFFFF00#48, 0x140000000000#48), (0xFF00FFFFFFFF#48, 0x150000000000#48),
   (0xFF00FFFFFFFF#48, 0x160000000000#48), (0xFFFFFFFF0000#48, 0x200000000000#48),
   (0xFFFFFFFF0000#48, 0x210000000000#48), (0xFFFF00000000#48, 0x300000000000#48),
   (0xFFFFFFFFFFFF#48, 0x310000000000#48), (0xFFFF00000000#48, 0x320000000000#48),
   (0xFFFFFFFFFFFF#48, 0x330000000000#48), (0xFFFFFFFFFFFF#48, 0x340000000000#48)]

/-- A command word the table has a row for (R112, R116). -/
def LegalCommand (w : Cmd) : Prop := ∃ row ∈ commandRows, w &&& row.1 = row.2

/-- The operations the host can issue (R112): every instruction but the role codes and the frame header. -/
def IsCommand : Instr → Prop
  | .tplload _ _ => True
  | .tplvalid _ => True
  | .encfix _ => True
  | .encaddr _ _ => True
  | .encin _ _ => True
  | .decout _ => True
  | .outidx _ => True
  | .send _ => True
  | .recv _ => True
  | .ldbuf _ => True
  | .rdbuf => True
  | .ldresp _ => True
  | .rdseq => True
  | .rderr => True
  | .roleF0 => False
  | .roleF1 => False
  | .roleX => False
  | .roleA _ => False
  | .roleI _ => False
  | .roleO _ => False
  | .frameHeader _ _ _ => False

/-- The slot an operation names, if it names one (R110, R112). -/
def slotOf : Instr → Option Byte
  | .tplload t _ => some t
  | .tplvalid t => some t
  | .encfix t => some t
  | .encaddr t _ => some t
  | .encin t _ => some t
  | .decout t => some t
  | .outidx t => some t
  | .send _ => none
  | .recv _ => none
  | .ldbuf _ => none
  | .rdbuf => none
  | .ldresp _ => none
  | .rdseq => none
  | .rderr => none
  | .roleF0 => none
  | .roleF1 => none
  | .roleX => none
  | .roleA _ => none
  | .roleI _ => none
  | .roleO _ => none
  | .frameHeader _ _ _ => none

/-- The byte list that accompanies an operation (R111). -/
def listOf : Instr → List Byte
  | .tplload _ roles => roles
  | .send payload => payload
  | .tplvalid _ => []
  | .encfix _ => []
  | .encaddr _ _ => []
  | .encin _ _ => []
  | .decout _ => []
  | .outidx _ => []
  | .recv _ => []
  | .ldbuf _ => []
  | .rdbuf => []
  | .ldresp _ => []
  | .rdseq => []
  | .rderr => []
  | .roleF0 => []
  | .roleF1 => []
  | .roleX => []
  | .roleA _ => []
  | .roleI _ => []
  | .roleO _ => []
  | .frameHeader _ _ _ => []

/-- The rows of R241 for an operation of the host: its error codes, and what `ERRINFO` holds for each. -/
def CommandInfo (i : Instr) (status : Byte) (info : Half) : Prop :=
  (status = 0x40#8 ∧ (listOf i).length ≠ 32 ∧ info = BitVec.ofNat 16 (listOf i).length) ∨
  (status = 0x40#8 ∧ ∃ (k : Nat) (c : Byte), (listOf i)[k]? = some c ∧ roleDefined c = false ∧
    info = BitVec.ofNat 16 (0x8000 + 256 * k + c.toNat)) ∨
  (status ∈ [0x41#8, 0x42#8, 0x43#8] ∧ ∃ t : Byte, slotOf i = some t ∧ info = t.setWidth 16) ∨
  (status = 0x51#8 ∧ info = BitVec.ofNat 16 (listOf i).length)

/-- The rows of R241 for a receive that ends with its step from `s` to `t`: its error codes, and the form of `ERRINFO` for
each. In the rows of `BadStart`, `BadSeq` and `BadToken` the byte is some byte other than the expected one; which byte a step
reads is not said here. -/
def ReceiveInfo (s t : State) (status : Byte) (info : Half) : Prop :=
  (status = 0x01#8 ∧ info = (rxCode s.rxs).setWidth 16) ∨
  (status = 0x10#8 ∧ ∃ b : Byte, b ≠ 0x1B#8 ∧ info = b.setWidth 16) ∨
  (status = 0x11#8 ∧ ∃ b : Byte, b ≠ s.seq ∧ info = s.seq ++ b) ∨
  (status = 0x12#8 ∧ ∃ b : Byte, b ≠ 0x0E#8 ∧ info = b.setWidth 16) ∨
  (status = 0x13#8 ∧ s.rxmax.toNat < t.rxlen.toNat ∧ info = t.rxlen) ∨
  (status = 0x20#8 ∧ t.rxsum ≠ 0#8 ∧ info = t.rxsum.setWidth 16)

/-- The operations of the unit CODEC and its host access (R2, R17). -/
def IsCodec : Instr → Prop
  | .tplload _ _ => True
  | .tplvalid _ => True
  | .encfix _ => True
  | .encaddr _ _ => True
  | .encin _ _ => True
  | .decout _ => True
  | .outidx _ => True
  | .ldbuf _ => True
  | .rdbuf => True
  | .ldresp _ => True
  | .send _ => False
  | .recv _ => False
  | .rdseq => False
  | .rderr => False
  | .roleF0 => False
  | .roleF1 => False
  | .roleX => False
  | .roleA _ => False
  | .roleI _ => False
  | .roleO _ => False
  | .frameHeader _ _ _ => False

/-- Two states with the same codec state and the same parameters (R2, R20 to R24). -/
def SameCodec (s u : State) : Prop :=
  s.tpl = u.tpl ∧ s.tplv = u.tplv ∧ s.buf = u.buf ∧ s.resp = u.resp ∧ s.par = u.par

/-- Two states with the same framer state and the same streams (R2, R30 to R37, R60). -/
def SameFramer (s u : State) : Prop :=
  s.seq = u.seq ∧ s.rxs = u.rxs ∧ s.rxlen = u.rxlen ∧ s.rxcnt = u.rxcnt ∧ s.rxsum = u.rxsum ∧ s.rxmax = u.rxmax ∧
    s.rxbuf = u.rxbuf ∧ s.txsum = u.txsum ∧ s.txs = u.txs ∧ s.rxq = u.rxq

/-! ### RECV in one big step (R210) -/

/-- How a RECV ends (R210). -/
inductive RecvEnd where
  /-- An error: its code, its information (R241). -/
  | failed (status : Byte) (info : Half)
  /-- `OK` with the payload. -/
  | accepted (payload : List Byte)
  deriving DecidableEq, Repr

/-- The byte of a draw that is one. -/
def drawByte : Config.Draw → Byte
  | .byte b => b
  | .timeout => 0#8

/-- The least `i < n` for which draw `5 + i` is a timeout. -/
def firstTimeout (d : Nat → Config.Draw) (n : Nat) : Option Nat :=
  (List.range n).find? (fun i => d (5 + i) == .timeout)

/-- The end of a `RECV m` with `SEQ = s`, `M = min(m, MAX_PAYLOAD)` and the successive outcomes `d0, d1, …`: the first
matching line of R210. -/
def recvEnd (seq : Byte) (limit : Nat) (d : Nat → Config.Draw) : RecvEnd :=
  let b := fun i => drawByte (d i)
  let len := (b 2).toNat * 256 + (b 3).toNat
  if d 0 = .timeout then .failed 0x01#8 1#16
  else if b 0 ≠ 0x1B#8 then .failed 0x10#8 ((b 0).setWidth 16)
  else if d 1 = .timeout then .failed 0x01#8 2#16
  else if b 1 ≠ seq then .failed 0x11#8 (seq ++ b 1)
  else if d 2 = .timeout then .failed 0x01#8 3#16
  else if d 3 = .timeout then .failed 0x01#8 4#16
  else if limit < len then .failed 0x13#8 (BitVec.ofNat 16 len)
  else if d 4 = .timeout then .failed 0x01#8 5#16
  else if b 4 ≠ 0x0E#8 then .failed 0x12#8 ((b 4).setWidth 16)
  else if firstTimeout d len ≠ none then .failed 0x01#8 6#16
  else if d (5 + len) = .timeout then .failed 0x01#8 7#16
  else
    let residue := xorAll ((List.range (6 + len)).map b)
    if residue ≠ 0#8 then .failed 0x20#8 (residue.setWidth 16)
    else .accepted ((List.range len).map (fun i => b (5 + i)))

/-- The bytes an event of the line brings (R62; log 3, log 8). -/
def eventBytes : LineEvent → List Byte
  | .byte b => [b]
  | .header h => headerBytes h
  | .silence => []

/-- The bytes of `n` free draws from the one with index `k` (log 3). -/
def drawnBytes (k n : Nat) : List Byte := (List.range n).map (fun i => drawByte (Config.lineDraw (k + i)))

/-- The line events that bring these outcomes, one per `StreamRead()` (R62). -/
def drawEvent : Config.Draw → LineEvent
  | .byte b => .byte b
  | .timeout => .silence

end Sys2Proof.Machine
end

