-- ==== Sys2Proof/Certificates/Slice0/Obligations.lean ====
section
/-! DEFINITION. The statements for the provers. Each docstring names the rules of spec/ it rests on; where a clause is the
model's own choice it says so and names the log entry. -/

open Sys2Proof Sys2Proof.Machine

/-! ### Encodings -/

/-- R92, R100, R112: words written out bit by bit from the spec's encodings decode to the instructions they stand for.
Decisions of the spec (92_eei_decisions.md): D3, D11. -/
def Obligations.WrittenWordsDecode : Prop :=
  decodeTableWord 48 0b000100000000010000000000000000000000000000000001 = some (.tplload 0x04#8 [0#8]) ∧
  decodeTableWord 48 0b000100110000001000000000000000000001001000110100 = some (.encaddr 0x02#8 0x1234#32) ∧
  decodeTableWord 48 0b000101000000010000000000000000000000000001011010 = some (.encin 0x04#8 0x5A#8) ∧
  decodeTableWord 48 0b001000000000000000000000000000000000000000000010 = some (.send [0#8, 0#8]) ∧
  decodeTableWord 48 0b001000010000000000000000000000000000000100010011 = some (.recv 275#16) ∧
  decodeTableWord 48 0b001101000000000000000000000000000000000000000000 = some .rderr ∧
  decodeTableWord 8 0b00100000 = some .roleF1 ∧
  decodeTableWord 8 0b01101101 = some (.roleA 13#5) ∧
  decodeTableWord 8 0b10100111 = some (.roleO 7#5) ∧
  decodeTableWord 40 0b0001101100000001000000000000001000001110 = some (.frameHeader 0x01#8 0x00#8 0x02#8)

/-- R92, R100, R112: decoding the words of any well-formed instruction gives it back, every operand at every value.
Decisions of the spec (92_eei_decisions.md): D3, D11. -/
def Obligations.DecodeOfEncode : Prop :=
  ∀ i : Instr, i.wf = true → decode (encode i) = .ok i

/-- R92, R100, R110, R111: a word that decodes is the encoding of what it decodes to, so no two words of one format with
exactly the bytes that accompany them decode to the same instruction.
Decisions of the spec (92_eei_decisions.md): D3, D11. -/
def Obligations.EncodeOfDecode : Prop :=
  (∀ (w : Cmd) (bytes : List Byte) (i : Instr), bytes.length = listLen w → decode (.cmd w bytes) = .ok i →
    encode i = .cmd w bytes) ∧
  (∀ (code : Byte) (i : Instr), decode (.role code) = .ok i → encode i = .role code) ∧
  (∀ (h : Header) (i : Instr), decode (.header h) = .ok i → encode i = .header h)

/-- R112, R116: with the bytes that accompany it present, a command word decodes to some operation exactly when it matches a
row of spec/opcode_table.json (all unused fields zero, `op` not reserved).
Decisions of the spec (92_eei_decisions.md): D11. -/
def Obligations.LegalCommandsDecode : Prop :=
  ∀ (w : Cmd) (bytes : List Byte), listLen w ≤ bytes.length →
    ((∃ i, IsCommand i ∧ decode (.cmd w bytes) = .ok i) ↔ LegalCommand w)

/-- R116, R230: a command word that matches no row raises `IllegalOp(op)`: `ERR = 0x50`, `ERRINFO = zext_16(op)`, the status,
and nothing else of the block changes, whatever the byte-list port holds (the word leaves the command port: log 4).
Decisions of the spec (92_eei_decisions.md): D11, D12. -/
def Obligations.IllegalCommandRaises : Prop :=
  ∀ (s : State) (w : Cmd) (rest : List Cmd), Ready s → s.cmds = w :: rest → ¬ LegalCommand w →
    step s = .next { s with cmds := rest, err := 0x50#8, errinfo := (cmdOp w).setWidth 16, result := errPort 0x50#8 }

/-- R92, R114: exactly the 99 codes of R92 are defined.
Decisions of the spec (92_eei_decisions.md): D3. -/
def Obligations.DefinedRoleCodes : Prop :=
  ∀ c : Byte, roleDefined c = true ↔
    (c = 0x00#8 ∨ c = 0x20#8 ∨ c = 0x40#8 ∨ (0x60 ≤ c.toNat ∧ c.toNat ≤ 0xBF))

/-- R15, R67: position `k` of a word is bit `k mod 8` of its byte `3 - (k div 8)`, and the four bytes make the word.
Decisions of the spec (92_eei_decisions.md): D1. -/
def Obligations.WordIsBigEndian : Prop :=
  ∀ w : Word, (∀ k, k < 32 → w.getLsbD k = (wordByte w (3 - k / 8)).getLsbD (k % 8)) ∧
    wordOfBytes (wordByte w 0) (wordByte w 1) (wordByte w 2) (wordByte w 3) = w

/-! ### The step -/

/-- A step runs the decoded instruction: the host's command with its bytes taken from the ports (R110, R111, log 4), the
role code a scan looks at (log 7), the header the line brings to an idle block with no command or to a waiting receive
(log 8). -/
def Obligations.StepRunsDecodedInstruction : Prop :=
  (∀ (s : State) (w : Cmd) (rest : List Cmd) (i : Instr), Ready s → s.cmds = w :: rest →
    decode (.cmd w s.blist) = .ok i →
    step s = exec i { s with cmds := rest, blist := s.blist.drop (listLen w) }) ∧
  (∀ (s : State) (sc : Scan) (i : Instr), s.resetPin = false → s.scan = some sc →
    decode (.role (Memory.read s.tpl (32 * sc.slot.toNat + sc.pos))) = .ok i → step s = exec i s) ∧
  (∀ (s : State) (h : Header) (rest : List LineEvent) (i : Instr), s.resetPin = false → s.scan = none →
    s.line = .header h :: rest → (s.rxs = .idle → s.cmds = []) → (s.rxs ≠ .idle → s.rxq = []) →
    decode (.header h) = .ok i → step s = exec i { s with line := rest })

/-- The model's choice (log 6, resting on R282 and R111): an idle block with no command and nothing on the line, or with a
command whose byte list is not fully there, waits. -/
def Obligations.IdleBlockWaits : Prop :=
  (∀ s : State, Ready s → s.cmds = [] → s.line = [] → step s = .next s) ∧
  (∀ (s : State) (w : Cmd) (rest : List Cmd), Ready s → s.cmds = w :: rest → LegalCommand w →
    s.blist.length < listLen w → step s = .next s)

/-! ### Reset -/

/-- R280, R281, R60: the reset event puts the registers at the values of R47 in any state, in mid-receive too; the streams
stay, and so do the parameters and what host and line will do (log 10). The values are the spec's own decisions.
Decisions of the spec (92_eei_decisions.md): D16, D28. -/
def Obligations.ResetEventValues : Prop :=
  ∀ s : State, s.resetPin = true → ∃ t : State, step s = .next t ∧
    t.tplv = 0#256 ∧ t.buf = 0#32 ∧ t.resp = 0#32 ∧ t.seq = s.par.seqReset ∧ t.rxs = .idle ∧ t.rxlen = 0#16 ∧
    t.rxcnt = 0#16 ∧ t.rxmax = 0#16 ∧ t.rxsum = 0#8 ∧ t.txsum = 0#8 ∧ t.err = 0#8 ∧ t.errinfo = 0#16 ∧
    t.cfgf = false ∧ t.result = none ∧ t.resetPin = false ∧ t.scan = none ∧
    t.txs = s.txs ∧ t.rxq = s.rxq ∧ t.par = s.par ∧ t.cmds = s.cmds ∧ t.blist = s.blist ∧ t.line = s.line

/-- R47, R7: the state after reset, with the spec's default parameters (log 1) and empty streams (log 12, the model's
choice).
Decisions of the spec (92_eei_decisions.md): D10, D16, D19, D28. -/
def Obligations.ResetStateValues : Prop :=
  State.reset.tplv = 0#256 ∧ State.reset.buf = 0#32 ∧ State.reset.resp = 0#32 ∧ State.reset.seq = 0x01#8 ∧
  State.reset.rxs = .idle ∧ State.reset.rxlen = 0#16 ∧ State.reset.rxcnt = 0#16 ∧ State.reset.rxmax = 0#16 ∧
  State.reset.rxsum = 0#8 ∧ State.reset.txsum = 0#8 ∧ State.reset.err = 0#8 ∧ State.reset.errinfo = 0#16 ∧
  State.reset.cfgf = false ∧ State.reset.par = { nTpl := 64, maxPayload := 65535, seqReset := 0x01#8 } ∧
  State.reset.txs = [] ∧ State.reset.rxq = []

/-! ### Templates -/

/-- R131, R132: TPLLOAD of 32 defined codes to an invalid slot in range ends `OK`, makes the slot valid and stores code `k`
at position `k`; every other code of the store, and everything else, is unchanged. No form is shut out: the list is any.
Decisions of the spec (92_eei_decisions.md): D6. -/
def Obligations.TplloadStoresTemplate : Prop :=
  ∀ (s : State) (t : Byte) (roles : List Byte), Memory.wf s.tpl = true →
    t.toNat < s.par.nTpl → s.tplv.getLsbD t.toNat = false → roles.length = 32 →
    (∀ c ∈ roles, roleDefined c = true) →
    ∃ (m : Memory) (v : BitVec 256),
      exec (.tplload t roles) s = .next { s with tpl := m, tplv := v, result := okPort none [] } ∧
      (∀ j, v.getLsbD j = (s.tplv.getLsbD j || decide (j = t.toNat))) ∧
      (∀ k, k < 32 → Memory.read m (32 * t.toNat + k) = roles.getD k 0#8) ∧
      (∀ a, (a < 32 * t.toNat ∨ 32 * t.toNat + 32 ≤ a) → Memory.read m a = Memory.read s.tpl a)

/-- R131, R133, R243, R252: the refusals of TPLLOAD in their order: range, lock, count, then the least position whose code
is undefined. Each sets `CFGF` and the record and changes nothing else.
Decisions of the spec (92_eei_decisions.md): D6, D12, D26, D34. -/
def Obligations.TplloadRefusals : Prop :=
  ∀ (s : State) (t : Byte) (roles : List Byte),
    (s.par.nTpl ≤ t.toNat → exec (.tplload t roles) s =
      .next { s with err := 0x41#8, errinfo := t.setWidth 16, cfgf := true, result := errPort 0x41#8 }) ∧
    (t.toNat < s.par.nTpl → s.tplv.getLsbD t.toNat = true → exec (.tplload t roles) s =
      .next { s with err := 0x42#8, errinfo := t.setWidth 16, cfgf := true, result := errPort 0x42#8 }) ∧
    (t.toNat < s.par.nTpl → s.tplv.getLsbD t.toNat = false → roles.length ≠ 32 → exec (.tplload t roles) s =
      .next { s with err := 0x40#8, errinfo := BitVec.ofNat 16 roles.length, cfgf := true, result := errPort 0x40#8 }) ∧
    (∀ (k : Nat) (c : Byte), t.toNat < s.par.nTpl → s.tplv.getLsbD t.toNat = false → roles.length = 32 →
      roles[k]? = some c → roleDefined c = false → (∀ j, j < k → roleDefined (roles.getD j 0#8) = true) →
      exec (.tplload t roles) s =
        .next { s with err := 0x40#8, errinfo := BitVec.ofNat 16 (0x8000 + 256 * k + c.toNat), cfgf := true,
                       result := errPort 0x40#8 })

/-- R137: TPLVALID returns the validity bit and changes nothing; out of range it raises `TemplateRange`; it never raises
`TemplateNotValid`.
Decisions of the spec (92_eei_decisions.md): D12. -/
def Obligations.TplvalidReturnsValidity : Prop :=
  ∀ (s : State) (t : Byte),
    (t.toNat < s.par.nTpl → exec (.tplvalid t) s =
      .next { s with result := okPort (some (if s.tplv.getLsbD t.toNat then 1#32 else 0#32)) [] }) ∧
    (s.par.nTpl ≤ t.toNat → exec (.tplvalid t) s =
      .next { s with err := 0x41#8, errinfo := t.setWidth 16, cfgf := true, result := errPort 0x41#8 })

/-- R138, R243, R251: every user of a template refuses a slot out of range and a slot that is not valid, in this order,
writing nothing but the record and `CFGF`.
Decisions of the spec (92_eei_decisions.md): D7, D12. -/
def Obligations.TemplateCheckRefuses : Prop :=
  ∀ (s : State) (t : Byte) (address : Word) (data : Byte) (i : Instr),
    i ∈ [Instr.encfix t, .encaddr t address, .encin t data, .decout t, .outidx t] →
    (s.par.nTpl ≤ t.toNat → exec i s =
      .next { s with err := 0x41#8, errinfo := t.setWidth 16, cfgf := true, result := errPort 0x41#8 }) ∧
    (t.toNat < s.par.nTpl → s.tplv.getLsbD t.toNat = false → exec i s =
      .next { s with err := 0x43#8, errinfo := t.setWidth 16, cfgf := true, result := errPort 0x43#8 })

/-- R140, R141: ENCFIX on a usable slot writes the fixed positions and leaves every other position, and everything else.
Decisions of the spec (92_eei_decisions.md): D1, D5. -/
def Obligations.EncfixWritesFixedPositions : Prop :=
  ∀ (s : State) (t : Byte), Usable s t → ∃ w : Word,
    exec (.encfix t) s = .next { s with buf := w, result := okPort none [] } ∧
    ∀ k, k < 32 → w.getLsbD k =
      match decodeRole (Memory.read s.tpl (32 * t.toNat + k)) with
      | some .f0 => false
      | some .f1 => true
      | _ => s.buf.getLsbD k

/-- R145, R141: ENCADDR on a usable slot writes address bit `n` to every position `A(n)` and leaves every other position,
and everything else.
Decisions of the spec (92_eei_decisions.md): D1, D2, D5. -/
def Obligations.EncaddrWritesAddressPositions : Prop :=
  ∀ (s : State) (t : Byte) (address : Word), Usable s t → ∃ w : Word,
    exec (.encaddr t address) s = .next { s with buf := w, result := okPort none [] } ∧
    ∀ k, k < 32 → w.getLsbD k =
      match decodeRole (Memory.read s.tpl (32 * t.toNat + k)) with
      | some (.a n) => address.getLsbD n.toNat
      | _ => s.buf.getLsbD k

/-- R150, R93, R141: ENCIN on a usable slot writes data bit `n` to every position `I(n)`, 0 for `n ≥ 8`, and leaves every
other position, and everything else.
Decisions of the spec (92_eei_decisions.md): D1, D4, D5. -/
def Obligations.EncinWritesInputPositions : Prop :=
  ∀ (s : State) (t : Byte) (data : Byte), Usable s t → ∃ w : Word,
    exec (.encin t data) s = .next { s with buf := w, result := okPort none [] } ∧
    ∀ k, k < 32 → w.getLsbD k =
      match decodeRole (Memory.read s.tpl (32 * t.toNat + k)) with
      | some (.i n) => if n.toNat ≤ 7 then data.getLsbD n.toNat else false
      | _ => s.buf.getLsbD k

/-- R155, R96: DECOUT on a usable slot returns the byte whose bit `n` is the OR of the response bits at the positions
`O(n)`, and changes nothing.
Decisions of the spec (92_eei_decisions.md): D1, D4, D29. -/
def Obligations.DecoutGathersOutputBits : Prop :=
  ∀ (s : State) (t : Byte), Usable s t → ∃ out : Byte,
    exec (.decout t) s = .next { s with result := okPort (some (out.setWidth 32)) [] } ∧
    ∀ n, n < 8 → (out.getLsbD n = true ↔
      ∃ k, k < 32 ∧ decodeRole (Memory.read s.tpl (32 * t.toNat + k)) = some (.o (BitVec.ofNat 5 n)) ∧
        s.resp.getLsbD k = true)

/-- R160, R161: OUTIDX on a usable slot returns `0xFF` when no position is an output position, and otherwise the byte of the
least one, and changes nothing.
Decisions of the spec (92_eei_decisions.md): D1, D8. -/
def Obligations.OutidxNamesLowestOutputByte : Prop :=
  ∀ (s : State) (t : Byte), Usable s t →
    ((∀ k, k < 32 → ∀ n, decodeRole (Memory.read s.tpl (32 * t.toNat + k)) ≠ some (.o n)) →
      exec (.outidx t) s = .next { s with result := okPort (some 0xFF#32) [] }) ∧
    (∀ (k : Nat) (n : Index), k < 32 → decodeRole (Memory.read s.tpl (32 * t.toNat + k)) = some (.o n) →
      (∀ j, j < k → ∀ m, decodeRole (Memory.read s.tpl (32 * t.toNat + j)) ≠ some (.o m)) →
      exec (.outidx t) s = .next { s with result := okPort (some (BitVec.ofNat 32 (3 - k / 8))) [] })

/-- R95, R165, R120: BUILD on a usable slot ends `OK` with the word of R95 for `W0 = 0` in `BUF`; out of range or on an
invalid slot it leaves `BUF = 0` and ends with the error of ENCFIX. -/
def Obligations.BuildAssemblesWord : Prop :=
  ∀ (s : State) (t : Byte) (address : Word) (data : Byte),
    (Usable s t → ∃ w : Word,
      build t address data s = .next { s with buf := w, result := okPort none [] } ∧
      ∀ k, k < 32 → w.getLsbD k =
        match decodeRole (Memory.read s.tpl (32 * t.toNat + k)) with
        | some .f1 => true
        | some (.a n) => address.getLsbD n.toNat
        | some (.i n) => if n.toNat ≤ 7 then data.getLsbD n.toNat else false
        | _ => false) ∧
    (s.par.nTpl ≤ t.toNat → build t address data s =
      .next { s with buf := 0#32, err := 0x41#8, errinfo := t.setWidth 16, cfgf := true, result := errPort 0x41#8 }) ∧
    (t.toNat < s.par.nTpl → s.tplv.getLsbD t.toNat = false → build t address data s =
      .next { s with buf := 0#32, err := 0x43#8, errinfo := t.setWidth 16, cfgf := true, result := errPort 0x43#8 })

/-- R166: on one usable slot the three encode operations commute pairwise, and a later one of a kind replaces an earlier one
of that kind completely (which with equal operands is idempotence). -/
def Obligations.EncodersCommuteAndReplace : Prop :=
  ∀ (s : State) (t : Byte) (a a' : Word) (d d' : Byte), Usable s t →
    thenOp (exec (.encfix t) s) (.encaddr t a) = thenOp (exec (.encaddr t a) s) (.encfix t) ∧
    thenOp (exec (.encfix t) s) (.encin t d) = thenOp (exec (.encin t d) s) (.encfix t) ∧
    thenOp (exec (.encaddr t a) s) (.encin t d) = thenOp (exec (.encin t d) s) (.encaddr t a) ∧
    thenOp (exec (.encfix t) s) (.encfix t) = exec (.encfix t) s ∧
    thenOp (exec (.encaddr t a') s) (.encaddr t a) = exec (.encaddr t a) s ∧
    thenOp (exec (.encin t d') s) (.encin t d) = exec (.encin t d) s

/-- R156: if every position `O(n)`, `n ≤ 7`, of a usable slot finds `b[n]` in the response, DECOUT returns `b` with the bits
no output position names cleared. -/
def Obligations.DecoutRecoversPlacedByte : Prop :=
  ∀ (s : State) (t : Byte) (b : Byte), Usable s t →
    (∀ (k : Nat) (n : Index), k < 32 → n.toNat ≤ 7 →
      decodeRole (Memory.read s.tpl (32 * t.toNat + k)) = some (.o n) → s.resp.getLsbD k = b.getLsbD n.toNat) →
    ∃ out : Byte, exec (.decout t) s = .next { s with result := okPort (some (out.setWidth 32)) [] } ∧
      (∀ n, n < 8 → (out.getLsbD n = true ↔ b.getLsbD n = true ∧
        ∃ k, k < 32 ∧ decodeRole (Memory.read s.tpl (32 * t.toNat + k)) = some (.o (BitVec.ofNat 5 n)))) ∧
      ((∀ n, n < 8 → ∃ k, k < 32 ∧
        decodeRole (Memory.read s.tpl (32 * t.toNat + k)) = some (.o (BitVec.ofNat 5 n))) → out = b)

/-! ### Roles -/

/-- R91, R95 at one position (taking the positions one at a time is the model's choice, log 7): before position 31 a role
writes position `pos` of the word exactly when the operation is the one that writes its kind (R140, R145, R150, R93); `O(n)`
adds the response's bit to `out` under DECOUT (R155), and under OUTIDX the least output position is kept (R160, the tie-break
of log 20); the scan moves to the next position, and nothing else changes.
Decisions of the spec (92_eei_decisions.md): D1, D2, D4 (log 16), D5, D8 (log 20), D29. -/
def Obligations.RoleActsAtItsPosition : Prop :=
  ∀ (s : State) (sc : Scan) (n : Index), s.scan = some sc → sc.pos < 31 →
    (∀ i ∈ [Instr.roleF0, .roleF1, .roleX, .roleA n, .roleI n], ∃ w : Word,
      exec i s = .next { s with buf := w, scan := some { sc with pos := sc.pos + 1 } } ∧
      (∀ k, k < 32 → k ≠ sc.pos → w.getLsbD k = s.buf.getLsbD k) ∧
      w.getLsbD sc.pos =
        match i, sc.op with
        | .roleF0, .encfix => false
        | .roleF1, .encfix => true
        | .roleA m, .encaddr address => address.getLsbD m.toNat
        | .roleI m, .encin data => if m.toNat ≤ 7 then data.getLsbD m.toNat else false
        | _, _ => s.buf.getLsbD sc.pos) ∧
    (∃ (out : Byte) (first : Option Nat),
      exec (.roleO n) s = .next { s with scan := some { sc with pos := sc.pos + 1, out := out, first := first } } ∧
      (∀ m, m < 8 → out.getLsbD m =
        (sc.out.getLsbD m || (decide (sc.op = .decout) && decide (m = n.toNat) && s.resp.getLsbD sc.pos))) ∧
      first = if sc.op = .outidx ∧ sc.first = none then some sc.pos else sc.first)

/-- R91 at position 31 (taking the positions one at a time is the model's choice, log 7): the scan ends, and with it the
operation, with the value R112 gives it: none for the encode operations (R140, R145, R150), the OR of the response bits for
DECOUT (R155), and for OUTIDX the byte of the least output position, `0xFF` for none (R160, R161). An input position of index
8 or more is written 0 (R93).
Decisions of the spec (92_eei_decisions.md): D1, D2, D4 (log 16), D5, D8 (log 20), D29. -/
def Obligations.LastRoleEndsOperation : Prop :=
  ∀ (s : State) (sc : Scan) (n : Index), s.scan = some sc → sc.pos = 31 →
    ∀ i ∈ [Instr.roleF0, .roleF1, .roleX, .roleA n, .roleI n, .roleO n], ∃ (w : Word) (value : Option Word),
      exec i s = .next { s with buf := w, scan := none, result := okPort value [] } ∧
      (∀ k, k < 31 → w.getLsbD k = s.buf.getLsbD k) ∧
      (sc.op = .encfix → value = none ∧ w.getLsbD 31 =
        match i with
        | .roleF0 => false
        | .roleF1 => true
        | _ => s.buf.getLsbD 31) ∧
      (∀ address, sc.op = .encaddr address → value = none ∧ w.getLsbD 31 =
        match i with
        | .roleA m => address.getLsbD m.toNat
        | _ => s.buf.getLsbD 31) ∧
      (∀ data, sc.op = .encin data → value = none ∧ w.getLsbD 31 =
        match i with
        | .roleI m => if m.toNat ≤ 7 then data.getLsbD m.toNat else false
        | _ => s.buf.getLsbD 31) ∧
      (sc.op = .decout → w = s.buf ∧ ∃ out : Byte, value = some (out.setWidth 32) ∧ ∀ m, m < 8 → out.getLsbD m =
        (sc.out.getLsbD m || (decide (i = .roleO (BitVec.ofNat 5 m)) && s.resp.getLsbD 31))) ∧
      (sc.op = .outidx → w = s.buf ∧ value = some (match sc.first with
        | some k => BitVec.ofNat 32 (3 - k / 8)
        | none => if i = .roleO n then 0#32 else 0xFF#32))

/-- The model's choice (log 7, resting on R91: a role has a meaning for the operation that reads it): with no scan in
progress a role code changes nothing. -/
def Obligations.RoleOutsideScanDoesNothing : Prop :=
  ∀ (s : State) (n : Index), s.scan = none →
    ∀ i ∈ [Instr.roleF0, .roleF1, .roleX, .roleA n, .roleI n, .roleO n], exec i s = .next s

/-- R140, R145, R150, R155, R160 against R91: a codec operation in one step (log 9) is the same as going through the 32
positions of the slot, one role code per step of the machine (the scan: the model's choice, log 7). -/
def Obligations.RoleStepsRefineCodecOperations : Prop :=
  ∀ (s : State) (t : Byte), Usable s t → s.resetPin = false → s.scan = none →
    (∀ address data, ∀ p ∈ [(Instr.encfix t, ScanOp.encfix), (.encaddr t address, .encaddr address),
        (.encin t data, .encin data), (.decout t, .decout), (.outidx t, .outidx)],
      Host.Core.run core 32
        { s with scan := some { op := p.2, slot := t, pos := 0, out := 0#8, first := none } } = exec p.1 s)

/-! ### SEND -/

/-- R170, R100, R65: SEND of a payload that is not too long appends its whole frame to `TXS`, high length byte first,
checksum last, and ends `OK`; nothing else changes but `TXSUM`, its scratch, `SEQ` and `RXQ` least of all (R172, R173). That
`TXSUM` holds the checksum afterwards is DEDUCED from R170 (log 18); that the frame is one step is R77 (log 9).
Decisions of the spec (92_eei_decisions.md): D15, D31. -/
def Obligations.SendEmitsFrame : Prop :=
  ∀ (s : State) (payload : List Byte), payload.length ≤ s.par.maxPayload → payload.length ≤ 65535 →
    ∃ x : Byte, exec (.send payload) s =
      .next { s with
        txs := s.txs ++ [0x1B#8, s.seq, BitVec.ofNat 8 (payload.length / 256), BitVec.ofNat 8 (payload.length % 256),
          0x0E#8] ++ payload ++ [x]
        txsum := x, result := okPort none [] } ∧
      x = xorAll ([0x1B#8, s.seq, BitVec.ofNat 8 (payload.length / 256), BitVec.ofNat 8 (payload.length % 256), 0x0E#8] ++
        payload)

/-- R171: the checksum byte SEND emits is the exclusive OR of the `5 + L` bytes it emitted before it, and the exclusive OR
of all `6 + L` bytes of every frame it emits is `0x00`. -/
def Obligations.SentChecksumResolvesToZero : Prop :=
  ∀ (s t : State) (payload : List Byte), payload.length ≤ s.par.maxPayload → exec (.send payload) s = .next t →
    ∃ (front : List Byte) (x : Byte), t.txs = s.txs ++ front ++ [x] ∧ front.length = 5 + payload.length ∧
      front.drop 5 = payload ∧ x = xorAll front ∧ xorAll (front ++ [x]) = 0x00#8

/-- R170, R174, R244: SEND of a payload above `MAX_PAYLOAD` raises `PayloadTooLong(L)` and writes no byte; `CFGF` stays.
Decisions of the spec (92_eei_decisions.md): D12, D19. -/
def Obligations.SendRefusesLongPayload : Prop :=
  ∀ (s : State) (payload : List Byte), s.par.maxPayload < payload.length → payload.length ≤ 65535 →
    exec (.send payload) s =
      .next { s with err := 0x51#8, errinfo := BitVec.ofNat 16 payload.length, result := errPort 0x51#8 }

/-! ### RECV -/

/-- R185: RECV clamps `maxSize`, clears the receive registers and waits for the start marker; it reads nothing, returns
nothing yet, and changes nothing else.
Decisions of the spec (92_eei_decisions.md): D30. -/
def Obligations.RecvStarts : Prop :=
  ∀ (s : State) (m : Half), exec (.recv m) s =
    .next { s with
      rxmax := BitVec.ofNat 16 (min m.toNat s.par.maxPayload), rxlen := 0#16, rxcnt := 0#16, rxsum := 0#8
      rxs := .wStart, result := none }

/-- R190: in `W_START` the byte read must be the start marker, or the receive fails at once with `BadStart(b)`.
Decisions of the spec (92_eei_decisions.md): D12, D13. -/
def Obligations.StartByteMatched : Prop :=
  ∀ (s : State) (b : Byte) (rest : List Byte), Waiting s .wStart → s.rxq = b :: rest →
    (b = 0x1B#8 → step s = .next { s with rxq := rest, rxsum := s.rxsum ^^^ b, rxs := .wSeq }) ∧
    (b ≠ 0x1B#8 → step s =
      .next { s with rxq := rest, rxsum := s.rxsum ^^^ b, rxs := .idle, err := 0x10#8, errinfo := b.setWidth 16,
                     result := errPort 0x10#8 })

/-- R191: in `W_SEQ` the byte read must equal `SEQ`; every other value is rejected alike with `BadSeq(SEQ ‖ b)`; `SEQ` is
not changed in either case.
Decisions of the spec (92_eei_decisions.md): D12. -/
def Obligations.SequenceByteMatched : Prop :=
  ∀ (s : State) (b : Byte) (rest : List Byte), Waiting s .wSeq → s.rxq = b :: rest →
    (b = s.seq → step s = .next { s with rxq := rest, rxsum := s.rxsum ^^^ b, rxs := .wLenHi }) ∧
    (b ≠ s.seq → step s =
      .next { s with rxq := rest, rxsum := s.rxsum ^^^ b, rxs := .idle, err := 0x11#8,
                     errinfo := BitVec.ofNat 16 (256 * s.seq.toNat + b.toNat), result := errPort 0x11#8 })

/-- R192: in `W_LENHI` every byte is taken as the high byte of the length; the low byte stays. -/
def Obligations.LengthHighTaken : Prop :=
  ∀ (s : State) (b : Byte) (rest : List Byte), Waiting s .wLenHi → s.rxq = b :: rest →
    ∃ len : Half, step s = .next { s with rxq := rest, rxsum := s.rxsum ^^^ b, rxlen := len, rxs := .wLenLo } ∧
      len.toNat = 256 * b.toNat + s.rxlen.toNat % 256

/-- R193: in `W_LENLO` the low byte completes the big-endian length; a length up to and including `RXMAX` goes on to the
token, a greater one fails with `TooLong(RXLEN)` before any payload byte is stored.
Decisions of the spec (92_eei_decisions.md): D12, D14. -/
def Obligations.LengthLowChecked : Prop :=
  ∀ (s : State) (b : Byte) (rest : List Byte), Waiting s .wLenLo → s.rxq = b :: rest →
    ∃ len : Half, len.toNat = 256 * (s.rxlen.toNat / 256) + b.toNat ∧
      (len.toNat ≤ s.rxmax.toNat →
        step s = .next { s with rxq := rest, rxsum := s.rxsum ^^^ b, rxlen := len, rxs := .wToken }) ∧
      (s.rxmax.toNat < len.toNat → step s =
        .next { s with rxq := rest, rxsum := s.rxsum ^^^ b, rxlen := len, rxs := .idle, err := 0x13#8, errinfo := len,
                       result := errPort 0x13#8 })

/-- R194: in `W_TOKEN` the byte read must be the token, or the receive fails with `BadToken(b)`; after the token come the
data, or the checksum when the length is zero.
Decisions of the spec (92_eei_decisions.md): D12. -/
def Obligations.TokenByteMatched : Prop :=
  ∀ (s : State) (b : Byte) (rest : List Byte), Waiting s .wToken → s.rxq = b :: rest →
    (b ≠ 0x0E#8 → step s =
      .next { s with rxq := rest, rxsum := s.rxsum ^^^ b, rxs := .idle, err := 0x12#8, errinfo := b.setWidth 16,
                     result := errPort 0x12#8 }) ∧
    (b = 0x0E#8 → 0 < s.rxlen.toNat → step s = .next { s with rxq := rest, rxsum := s.rxsum ^^^ b, rxs := .wData }) ∧
    (b = 0x0E#8 → s.rxlen.toNat = 0 → step s = .next { s with rxq := rest, rxsum := s.rxsum ^^^ b, rxs := .wCsum })

/-- R195: in `W_DATA` every byte is stored at index `RXCNT`, which exists in every state of the invariant, and counted; the
last one leads to the checksum. Every other byte of `RXBUF` stays. -/
def Obligations.DataByteStored : Prop :=
  ∀ (s : State) (b : Byte) (rest : List Byte), Inv s → Waiting s .wData → s.rxq = b :: rest →
    s.rxcnt.toNat < s.par.maxPayload ∧
    ∃ (m : Memory) (n : Half), n.toNat = s.rxcnt.toNat + 1 ∧
      Memory.read m s.rxcnt.toNat = b ∧ (∀ a, a ≠ s.rxcnt.toNat → Memory.read m a = Memory.read s.rxbuf a) ∧
      (n = s.rxlen → step s =
        .next { s with rxq := rest, rxsum := s.rxsum ^^^ b, rxbuf := m, rxcnt := n, rxs := .wCsum }) ∧
      (n ≠ s.rxlen → step s = .next { s with rxq := rest, rxsum := s.rxsum ^^^ b, rxbuf := m, rxcnt := n })

/-- R197, R200: in `W_CSUM` the fold decides: a residue other than zero fails with `Checksum(RXSUM)`; zero is acceptance:
`SEQ` advances modulo 256, and the length and the first `RXLEN` bytes of `RXBUF` are returned. In a state of the invariant
the residue is the exclusive OR of all `6 + RXLEN` bytes read.
Decisions of the spec (92_eei_decisions.md): D12. -/
def Obligations.ChecksumDecides : Prop :=
  ∀ (s : State) (b : Byte) (rest : List Byte), Inv s → Waiting s .wCsum → s.rxq = b :: rest →
    s.rxsum ^^^ b = xorAll (bytesRead s ++ [b]) ∧ (bytesRead s ++ [b]).length = 6 + s.rxlen.toNat ∧
    (s.rxsum ^^^ b ≠ 0#8 → step s =
      .next { s with rxq := rest, rxsum := s.rxsum ^^^ b, rxs := .idle, err := 0x20#8,
                     errinfo := (s.rxsum ^^^ b).setWidth 16, result := errPort 0x20#8 }) ∧
    (s.rxsum ^^^ b = 0#8 → step s =
      .next { s with rxq := rest, rxsum := 0#8, rxs := .idle, seq := BitVec.ofNat 8 ((s.seq.toNat + 1) % 256),
                     result := okPort (some (s.rxlen.setWidth 32))
                       ((List.range s.rxlen.toNat).map (Memory.read s.rxbuf)) })

/-- R201, R202: in every waiting state with nothing queued, a silence of the line fails with `Timeout` and the code of the
state; nothing is put back and nothing else changes, `SEQ` and `CFGF` least of all.
Decisions of the spec (92_eei_decisions.md): D11, D12. -/
def Obligations.SilenceTimesOut : Prop :=
  ∀ (s : State) (st : RxState) (rest : List LineEvent), Waiting s st → s.rxq = [] → s.line = .silence :: rest →
    step s = .next { s with line := rest, rxs := .idle, err := 0x01#8, result := errPort 0x01#8, errinfo :=
      match st with
      | .idle => 0#16
      | .wStart => 1#16
      | .wSeq => 2#16
      | .wLenHi => 3#16
      | .wLenLo => 4#16
      | .wToken => 5#16
      | .wData => 6#16
      | .wCsum => 7#16 }

/-- R62, R64: what the line brings. At a wait on an empty queue a byte that arrives is taken as a queued byte is; at an idle
block with no command a byte waits at the tail of `RXQ`, and a silence of the line means nothing. With the model's free value
(log 3): where the state lists nothing more of the line, a wait has both outcomes of R62 open, a timeout (R63), or some byte,
on which the machine acts as on a byte that was queued.
Decisions of the spec (92_eei_decisions.md): D17, D33. -/
def Obligations.LineOutcomes : Prop :=
  (∀ (s : State) (st : RxState) (b : Byte) (rest : List LineEvent), Waiting s st → s.rxq = [] → s.line = .byte b :: rest →
    step s = step { s with line := rest, rxq := [b] }) ∧
  (∀ (s : State) (b : Byte) (rest : List LineEvent), Ready s → s.cmds = [] → s.line = .byte b :: rest →
    step s = .next { s with line := rest, rxq := s.rxq ++ [b] }) ∧
  (∀ (s : State) (rest : List LineEvent), Ready s → s.cmds = [] → s.line = .silence :: rest →
    step s = .next { s with line := rest }) ∧
  (∀ (s : State) (st : RxState), Waiting s st → s.rxq = [] → s.line = [] →
    step s = step { s with waits := s.waits + 1, line := [.silence] } ∨
    ∃ b : Byte, step s = step { s with waits := s.waits + 1, rxq := [b] })

/-- R100, R189 to R194, R64: the frame header at a receive that waits for a frame. With the right sequence number and a
length it will take, its five bytes bring the machine to the data, or to the checksum for length zero; with another sequence
number, or a greater length, the receive fails at that byte and the bytes after it stay in `RXQ`. Reaching a block that does
not wait on an empty queue, all five wait at the tail of `RXQ`. (That a header may come as one event is the model's choice,
log 8.) -/
def Obligations.HeaderReceived : Prop :=
  ∀ (s : State) (seq hi lo : Byte),
    (s.rxs = .wStart → s.rxq = [] → seq = s.seq → 256 * hi.toNat + lo.toNat ≤ s.rxmax.toNat →
      exec (.frameHeader seq hi lo) s =
        .next { s with rxlen := BitVec.ofNat 16 (256 * hi.toNat + lo.toNat)
                       rxsum := s.rxsum ^^^ xorAll [0x1B#8, s.seq, hi, lo, 0x0E#8]
                       rxs := if 256 * hi.toNat + lo.toNat = 0 then .wCsum else .wData }) ∧
    (s.rxs = .wStart → s.rxq = [] → seq ≠ s.seq → exec (.frameHeader seq hi lo) s =
      .next { s with rxsum := s.rxsum ^^^ xorAll [0x1B#8, seq], rxs := .idle, rxq := [hi, lo, 0x0E#8], err := 0x11#8
                     errinfo := BitVec.ofNat 16 (256 * s.seq.toNat + seq.toNat), result := errPort 0x11#8 }) ∧
    (s.rxs = .wStart → s.rxq = [] → seq = s.seq → s.rxmax.toNat < 256 * hi.toNat + lo.toNat →
      exec (.frameHeader seq hi lo) s =
        .next { s with rxlen := BitVec.ofNat 16 (256 * hi.toNat + lo.toNat)
                       rxsum := s.rxsum ^^^ xorAll [0x1B#8, s.seq, hi, lo], rxs := .idle, rxq := [0x0E#8], err := 0x13#8
                       errinfo := BitVec.ofNat 16 (256 * hi.toNat + lo.toNat), result := errPort 0x13#8 }) ∧
    ((s.rxs = .idle ∨ s.rxq ≠ []) → exec (.frameHeader seq hi lo) s =
      .next { s with rxq := s.rxq ++ [0x1B#8, seq, hi, lo, 0x0E#8] })

/-- R64, R189, R211 (log 8): a header on the line does to a waiting or idle block (no command pending) what its five bytes
do one event at a time. -/
def Obligations.HeaderIsFiveBytes : Prop :=
  ∀ (s t : State) (seq hi lo : Byte) (rest : List LineEvent), s.resetPin = false → s.scan = none → s.cmds = [] →
    (s.rxs ≠ .idle → s.rxq = []) →
    s.line = .header (headerWord 0x1B#8 seq hi lo 0x0E#8) :: rest → step s = .next t →
    Host.Core.run core 5
      { s with line := [.byte 0x1B#8, .byte seq, .byte hi, .byte lo, .byte 0x0E#8] ++ rest } = .next t

/-- R212, the converse half: if the head of `RXQ` is a well-formed frame for `SEQ` with a payload the receive will take, RECV
ends `OK` with that payload after its start and `6 + L` reads, `SEQ` has advanced, and what followed the frame is left. -/
def Obligations.WellFormedFrameAccepted : Prop :=
  ∀ (s s1 : State) (m : Half) (payload rest : List Byte), Inv s → Ready s → s.rxq = frame s.seq payload ++ rest →
    payload.length ≤ m.toNat → payload.length ≤ s.par.maxPayload → exec (.recv m) s = .next s1 →
    ∃ t : State, Host.Core.run core (6 + payload.length) s1 = .next t ∧ t.rxs = .idle ∧
      t.result = okPort (some (BitVec.ofNat 32 payload.length)) payload ∧
      t.seq = BitVec.ofNat 8 ((s.seq.toNat + 1) % 256) ∧ t.rxq = rest ∧
      t.err = s.err ∧ t.errinfo = s.errinfo ∧ t.cfgf = s.cfgf ∧ t.txs = s.txs ∧
      SameCodec t s ∧ t.cmds = s.cmds ∧ t.blist = s.blist ∧ t.line = s.line

/-- R214 for the payload and checksum bytes: the frame for `SEQ` with one payload byte or the checksum byte changed is
rejected with `Checksum`, the information being the difference. -/
def Obligations.AlteredByteRejected : Prop :=
  ∀ (s s1 : State) (m : Half) (payload rest : List Byte) (j : Nat) (b : Byte), Ready s →
    5 ≤ j → j < 6 + payload.length → b ≠ (frame s.seq payload).getD j 0#8 →
    s.rxq = (frame s.seq payload).set j b ++ rest →
    payload.length ≤ m.toNat → payload.length ≤ s.par.maxPayload → exec (.recv m) s = .next s1 →
    ∃ t : State, Host.Core.run core (6 + payload.length) s1 = .next t ∧ t.rxs = .idle ∧
      t.result = errPort 0x20#8 ∧ t.err = 0x20#8 ∧
      t.errinfo = (b ^^^ (frame s.seq payload).getD j 0#8).setWidth 16 ∧ t.seq = s.seq ∧ t.rxq = rest

/-- R212, the forward half, and R211: if a RECV ends `OK`, at its `n`-th step, then the bytes it took, from the queue, from
the line, and past the listed line from free draws (log 3), were in order exactly the well-formed frame for `SEQ` of the
payload it returns, no longer than allowed; no wait of it ended in a timeout, and the bytes after the frame are still there,
in `RXQ` and on the line. -/
def Obligations.AcceptedBytesWereFrame : Prop :=
  ∀ (s s1 t : State) (m : Half) (n : Nat) (r : Result), Inv s → Ready s → exec (.recv m) s = .next s1 →
    Host.Core.run core n s1 = .next t → (∀ j, j < n → ∀ u, Host.Core.run core j s1 = .next u → u.rxs ≠ .idle) →
    t.rxs = .idle → t.result = some r → r.status = 0x00#8 →
    (∃ taken drawn : Nat, t.line = s.line.drop taken ∧ t.waits = s.waits + drawn ∧
      (∀ e ∈ s.line.take taken, e ≠ .silence) ∧ (∀ i, i < drawn → Config.lineDraw (s.waits + i) ≠ .timeout) ∧
      s.rxq ++ s.line.flatMap eventBytes ++ drawnBytes s.waits drawn =
        frame s.seq r.payload ++ t.rxq ++ t.line.flatMap eventBytes) ∧
    r.payload.length ≤ min m.toNat s.par.maxPayload ∧ t.seq = s.seq + 1#8

/-- R210: from a state of the invariant, RECV on any sequence of outcomes of its reads ends, within 65541 of them, as the
first matching line of R210 says. -/
def Obligations.RecvEndsAsBigStep : Prop :=
  ∀ (s s1 : State) (m : Half) (d : Nat → Config.Draw) (listed : Nat), Inv s → Ready s → s.rxq = [] →
    65541 ≤ listed → s.line = (List.range listed).map (fun i => drawEvent (d i)) → exec (.recv m) s = .next s1 →
    ∃ (n : Nat) (t : State), n ≤ 65541 ∧ Host.Core.run core n s1 = .next t ∧ t.rxs = .idle ∧
      match recvEnd s.seq (min m.toNat s.par.maxPayload) d with
      | .failed status info =>
        t.result = errPort status ∧ t.err = status ∧ t.errinfo = info ∧ t.seq = s.seq ∧ t.cfgf = s.cfgf
      | .accepted payload =>
        t.result = okPort (some (BitVec.ofNat 32 payload.length)) payload ∧ t.seq = s.seq + 1#8 ∧ t.err = s.err

/-- R171, R176, R212: what SEND emits under a sequence number, a receiver with that sequence number accepts. -/
def Obligations.SentFrameIsAccepted : Prop :=
  ∀ (s s' u u1 : State) (payload : List Byte) (m : Half), payload.length ≤ s.par.maxPayload → payload.length ≤ 65535 →
    exec (.send payload) s = .next s' → Inv u → Ready u → u.seq = s.seq → s'.txs = s.txs ++ u.rxq →
    payload.length ≤ m.toNat → payload.length ≤ u.par.maxPayload → exec (.recv m) u = .next u1 →
    ∃ t : State, Host.Core.run core (6 + payload.length) u1 = .next t ∧ t.rxs = .idle ∧
      t.result = okPort (some (BitVec.ofNat 32 payload.length)) payload ∧ t.rxq = []

/-- R216, R120: EXCHANGE is the send and then the start of the receive, on the state the send left: the frame is on `TXS`,
the receive waits for what `maxSize` and `MAX_PAYLOAD` allow, and nothing else has changed. If the send raises, that is all
it does and the receive is not performed. (`TXSUM` holding the checksum afterwards is DEDUCED, log 18.) -/
def Obligations.ExchangeIsSendThenRecv : Prop :=
  ∀ (s : State) (payload : List Byte) (m : Half), payload.length ≤ 65535 →
    (payload.length ≤ s.par.maxPayload →
      (∃ s1 : State, exec (.send payload) s = .next s1 ∧ exchange payload m s = exec (.recv m) s1) ∧
      exchange payload m s = .next { s with
        txs := s.txs ++ frame s.seq payload, txsum := xorAll (frameFront s.seq payload)
        rxmax := BitVec.ofNat 16 (min m.toNat s.par.maxPayload), rxlen := 0#16, rxcnt := 0#16, rxsum := 0#8
        rxs := .wStart, result := none }) ∧
    (s.par.maxPayload < payload.length → exchange payload m s = exec (.send payload) s ∧ exchange payload m s =
      .next { s with err := 0x51#8, errinfo := BitVec.ofNat 16 payload.length, result := errPort 0x51#8 })

/-! ### Host access -/

/-- R220 to R225: the five host access operations, each with all it changes.
Decisions of the spec (92_eei_decisions.md): D5, D12, D20, D29. -/
def Obligations.HostAccessOperations : Prop :=
  ∀ (s : State) (w : Word),
    exec (.ldbuf w) s = .next { s with buf := w, result := okPort none [] } ∧
    exec .rdbuf s = .next { s with result := okPort (some s.buf) [] } ∧
    exec (.ldresp w) s = .next { s with resp := w, result := okPort none [] } ∧
    exec .rdseq s = .next { s with result := okPort (some (s.seq.setWidth 32)) [] } ∧
    ∃ v : Word, exec .rderr s = .next { s with result := okPort (some v) [] } ∧
      v.toNat = (if s.cfgf then 1 else 0) * 2 ^ 24 + s.err.toNat * 2 ^ 16 + s.errinfo.toNat

/-! ### The whole machine -/

/-- Every step keeps the invariant, from every state that meets it. -/
def Obligations.StepKeepsInvariant : Prop :=
  ∀ s t : State, Inv s → step s = .next t → Inv t

/-- The state after reset meets the invariant. -/
def Obligations.ResetMeetsInvariant : Prop := Inv State.reset

/-- R195, R250, R251: in a state of the invariant every step answers a next state: no fault, no refusal. -/
def Obligations.StepNeverStops : Prop :=
  ∀ s : State, Inv s → ∃ t : State, step s = .next t

/-- R30, R200, R202, R213: without a reset `SEQ` changes in one case only, an accepted receive, which ends `OK`, and then by
one modulo 256. -/
def Obligations.SeqAdvancesOnAcceptanceOnly : Prop :=
  ∀ s t : State, s.resetPin = false → step s = .next t →
    t.seq = s.seq ∨
    (s.rxs ≠ .idle ∧ t.rxs = .idle ∧ t.seq = BitVec.ofNat 8 ((s.seq.toNat + 1) % 256) ∧
      ∃ r, t.result = some r ∧ r.status = 0x00#8)

/-- R22, R133, R78: without a reset a valid slot stays valid and keeps its 32 role codes, whatever the step.
Decisions of the spec (92_eei_decisions.md): D34. -/
def Obligations.ValidTemplatesAreImmutable : Prop :=
  ∀ (s t : State) (slot : Byte), s.resetPin = false → step s = .next t → s.tplv.getLsbD slot.toNat = true →
    t.tplv.getLsbD slot.toNat = true ∧
    ∀ k, k < 32 → Memory.read t.tpl (32 * slot.toNat + k) = Memory.read s.tpl (32 * slot.toNat + k)

/-- R60, R61, R62, R71: the streams. `TXS` only grows, at its end, in every step, the reset event included; a step takes at
most one byte from `RXQ`, at its head, and adds bytes at its tail only. -/
def Obligations.StreamsAreSequences : Prop :=
  ∀ s t : State, step s = .next t →
    (∃ sent : List Byte, t.txs = s.txs ++ sent) ∧
    ∃ arrived : List Byte, t.rxq = s.rxq ++ arrived ∨ t.rxq = s.rxq.drop 1 ++ arrived

/-- R39, R262: `CFGF` once set stays set until reset.
Decisions of the spec (92_eei_decisions.md): D7. -/
def Obligations.ConfigurationFaultIsSticky : Prop :=
  ∀ s t : State, s.resetPin = false → step s = .next t → s.cfgf = true → t.cfgf = true

/-- R38, R240 to R244: what the record tells of an operation's end. An operation of the host that ends `OK`, and RECV's start,
leave `ERR`, `ERRINFO` and `CFGF` as they were; one that ends with another status leaves that status in `ERR`, the information
R241 lists for it in `ERRINFO`, and sets `CFGF` exactly for the codes `0x40` to `0x43` (or leaves it set). A step of a receive
that goes on, or that ends it `OK`, leaves all three as they were; one that ends it with another status leaves that status in
`ERR`, an information of the form R241 lists for it in `ERRINFO`, and `CFGF` as it was. For `BadStart`, `BadSeq` and
`BadToken` this says only that a byte other than the expected one stands in `ERRINFO` (for `BadSeq` below `SEQ`); that it is
the byte read is said by StartByteMatched, SequenceByteMatched, TokenByteMatched and HeaderReceived, and for the other ways
the line brings a byte by LineOutcomes and HeaderIsFiveBytes.
Decisions of the spec (92_eei_decisions.md): D12, D32. -/
def Obligations.ErrorRecordTellsLastFailure : Prop :=
  (∀ (i : Instr) (s t : State), IsCommand i → exec i s = .next t →
    (t.result = none ∧ t.err = s.err ∧ t.errinfo = s.errinfo ∧ t.cfgf = s.cfgf) ∨
    ∃ r : Result, t.result = some r ∧
      (r.status = 0x00#8 → t.err = s.err ∧ t.errinfo = s.errinfo ∧ t.cfgf = s.cfgf) ∧
      (r.status ≠ 0x00#8 → t.err = r.status ∧ CommandInfo i r.status t.errinfo ∧ r.value = none ∧ r.payload = [] ∧
        t.cfgf = (s.cfgf || decide (r.status ∈ [0x40#8, 0x41#8, 0x42#8, 0x43#8])))) ∧
  (∀ s t : State, s.resetPin = false → s.scan = none → s.rxs ≠ .idle → step s = .next t → t.cfgf = s.cfgf ∧
    ((t.rxs ≠ .idle ∧ t.result = s.result ∧ t.err = s.err ∧ t.errinfo = s.errinfo) ∨
    (t.rxs = .idle ∧ ∃ r : Result, t.result = some r ∧
      (r.status = 0x00#8 → t.err = s.err ∧ t.errinfo = s.errinfo) ∧
      (r.status ≠ 0x00#8 → t.err = r.status ∧ ReceiveInfo s t r.status t.errinfo ∧ r.value = none ∧ r.payload = []))))

/-- R243: a configuration error is not to be retried: the same operation on the state it left raises the same error again
and changes nothing. -/
def Obligations.ConfigurationErrorRepeats : Prop :=
  ∀ (i : Instr) (s t : State), IsCommand i → exec i s = .next t →
    (∃ r : Result, t.result = some r ∧ r.status ∈ [0x40#8, 0x41#8, 0x42#8, 0x43#8]) → exec i t = .next t

/-- R2: the units share no state. What a codec operation does to the codec state and returns depends on the codec state
only, and it leaves the framer state; so does a step of a codec operation taken one position at a time (the model's choice,
log 7). What SEND, RECV's start and RDSEQ do to the framer state and return depends on the framer state only, and they leave
the codec state. So do the steps of a receive, in which RECV reads, stores and returns: they depend on the framer state and
on what the line brings (log 3), and a frame header that reaches the block (log 8) does to the framer state what depends on
the framer state only. -/
def Obligations.UnitsShareNoState : Prop :=
  (∀ (i : Instr) (s u s' u' : State), IsCodec i → SameCodec s u → exec i s = .next s' → exec i u = .next u' →
    SameCodec s' u' ∧ s'.result = u'.result ∧ SameFramer s' s) ∧
  (∀ (s u s' u' : State) (sc : Scan), s.resetPin = false → u.resetPin = false → s.scan = some sc → u.scan = some sc →
    SameCodec s u → step s = .next s' → step u = .next u' →
    SameCodec s' u' ∧ s'.scan = u'.scan ∧ (s'.scan = none → s'.result = u'.result) ∧ SameFramer s' s) ∧
  (∀ (i : Instr) (s u s' u' : State), (∃ payload, i = .send payload) ∨ (∃ m, i = .recv m) ∨ i = .rdseq →
    s.par = u.par → SameFramer s u → exec i s = .next s' → exec i u = .next u' →
    SameFramer s' u' ∧ s'.result = u'.result ∧ SameCodec s' s) ∧
  (∀ s u s' u' : State, s.resetPin = false → u.resetPin = false → s.scan = none → u.scan = none → s.rxs ≠ .idle →
    s.par = u.par → s.line = u.line → s.waits = u.waits → SameFramer s u → step s = .next s' → step u = .next u' →
    SameFramer s' u' ∧ s'.line = u'.line ∧ s'.waits = u'.waits ∧ SameCodec s' s ∧
      if s'.rxs = .idle then s'.result = u'.result else s'.result = s.result ∧ u'.result = u.result) ∧
  (∀ (seq hi lo : Byte) (s u s' u' : State), s.par = u.par → SameFramer s u →
    exec (.frameHeader seq hi lo) s = .next s' → exec (.frameHeader seq hi lo) u = .next u' →
    SameFramer s' u' ∧ SameCodec s' s ∧
      if s.rxs ≠ .idle ∧ s'.rxs = .idle then s'.result = u'.result else s'.result = s.result ∧ u'.result = u.result)

/-- R217, R305: a receive ends: in a state of the invariant every step of it lowers the bound on its remaining reads, which
is at most 65541 at the start. -/
def Obligations.EveryReceiveStepProgresses : Prop :=
  ∀ s t : State, Inv s → s.scan = none → s.rxs ≠ .idle → step s = .next t →
    readsLeft t < readsLeft s ∧ readsLeft s ≤ 65541
end

