-- ==== Sys2Proof/Laws/State.lean ====
section
/-! SUPPORT. One lemma per field per named update of the state, true by rfl. -/

namespace Sys2Proof.Machine

section endOkFields

variable (v : Option Word) (p : List Byte) (s : State)

@[simp] theorem endOk_tpl : (endOk v p s).tpl = s.tpl := rfl
@[simp] theorem endOk_tplv : (endOk v p s).tplv = s.tplv := rfl
@[simp] theorem endOk_buf : (endOk v p s).buf = s.buf := rfl
@[simp] theorem endOk_resp : (endOk v p s).resp = s.resp := rfl
@[simp] theorem endOk_seq : (endOk v p s).seq = s.seq := rfl
@[simp] theorem endOk_rxs : (endOk v p s).rxs = s.rxs := rfl
@[simp] theorem endOk_rxlen : (endOk v p s).rxlen = s.rxlen := rfl
@[simp] theorem endOk_rxcnt : (endOk v p s).rxcnt = s.rxcnt := rfl
@[simp] theorem endOk_rxsum : (endOk v p s).rxsum = s.rxsum := rfl
@[simp] theorem endOk_rxmax : (endOk v p s).rxmax = s.rxmax := rfl
@[simp] theorem endOk_rxbuf : (endOk v p s).rxbuf = s.rxbuf := rfl
@[simp] theorem endOk_txsum : (endOk v p s).txsum = s.txsum := rfl
@[simp] theorem endOk_err : (endOk v p s).err = s.err := rfl
@[simp] theorem endOk_errinfo : (endOk v p s).errinfo = s.errinfo := rfl
@[simp] theorem endOk_cfgf : (endOk v p s).cfgf = s.cfgf := rfl
@[simp] theorem endOk_txs : (endOk v p s).txs = s.txs := rfl
@[simp] theorem endOk_rxq : (endOk v p s).rxq = s.rxq := rfl
@[simp] theorem endOk_par : (endOk v p s).par = s.par := rfl
@[simp] theorem endOk_result : (endOk v p s).result = some { status := okCode, value := v, payload := p } := rfl
@[simp] theorem endOk_cmds : (endOk v p s).cmds = s.cmds := rfl
@[simp] theorem endOk_blist : (endOk v p s).blist = s.blist := rfl
@[simp] theorem endOk_line : (endOk v p s).line = s.line := rfl
@[simp] theorem endOk_waits : (endOk v p s).waits = s.waits := rfl
@[simp] theorem endOk_resetPin : (endOk v p s).resetPin = s.resetPin := rfl
@[simp] theorem endOk_scan : (endOk v p s).scan = s.scan := rfl

end endOkFields

section raiseFields

variable (k : ErrKind) (info : Half) (s : State)

@[simp] theorem raise_tpl : (raise k info s).tpl = s.tpl := rfl
@[simp] theorem raise_tplv : (raise k info s).tplv = s.tplv := rfl
@[simp] theorem raise_buf : (raise k info s).buf = s.buf := rfl
@[simp] theorem raise_resp : (raise k info s).resp = s.resp := rfl
@[simp] theorem raise_seq : (raise k info s).seq = s.seq := rfl
@[simp] theorem raise_rxs : (raise k info s).rxs = if isTransport k then .idle else s.rxs := rfl
@[simp] theorem raise_rxlen : (raise k info s).rxlen = s.rxlen := rfl
@[simp] theorem raise_rxcnt : (raise k info s).rxcnt = s.rxcnt := rfl
@[simp] theorem raise_rxsum : (raise k info s).rxsum = s.rxsum := rfl
@[simp] theorem raise_rxmax : (raise k info s).rxmax = s.rxmax := rfl
@[simp] theorem raise_rxbuf : (raise k info s).rxbuf = s.rxbuf := rfl
@[simp] theorem raise_txsum : (raise k info s).txsum = s.txsum := rfl
@[simp] theorem raise_err : (raise k info s).err = errCode k := rfl
@[simp] theorem raise_errinfo : (raise k info s).errinfo = info := rfl
@[simp] theorem raise_cfgf : (raise k info s).cfgf = (s.cfgf || isConfiguration k) := rfl
@[simp] theorem raise_txs : (raise k info s).txs = s.txs := rfl
@[simp] theorem raise_rxq : (raise k info s).rxq = s.rxq := rfl
@[simp] theorem raise_par : (raise k info s).par = s.par := rfl
@[simp] theorem raise_result : (raise k info s).result = some { status := errCode k, value := none, payload := [] } := rfl
@[simp] theorem raise_cmds : (raise k info s).cmds = s.cmds := rfl
@[simp] theorem raise_blist : (raise k info s).blist = s.blist := rfl
@[simp] theorem raise_line : (raise k info s).line = s.line := rfl
@[simp] theorem raise_waits : (raise k info s).waits = s.waits := rfl
@[simp] theorem raise_resetPin : (raise k info s).resetPin = s.resetPin := rfl
@[simp] theorem raise_scan : (raise k info s).scan = s.scan := rfl

end raiseFields

section takeCommandFields

variable (w : Cmd) (rest : List Cmd) (s : State)

@[simp] theorem takeCommand_tpl : (takeCommand w rest s).tpl = s.tpl := rfl
@[simp] theorem takeCommand_tplv : (takeCommand w rest s).tplv = s.tplv := rfl
@[simp] theorem takeCommand_buf : (takeCommand w rest s).buf = s.buf := rfl
@[simp] theorem takeCommand_resp : (takeCommand w rest s).resp = s.resp := rfl
@[simp] theorem takeCommand_seq : (takeCommand w rest s).seq = s.seq := rfl
@[simp] theorem takeCommand_rxs : (takeCommand w rest s).rxs = s.rxs := rfl
@[simp] theorem takeCommand_rxlen : (takeCommand w rest s).rxlen = s.rxlen := rfl
@[simp] theorem takeCommand_rxcnt : (takeCommand w rest s).rxcnt = s.rxcnt := rfl
@[simp] theorem takeCommand_rxsum : (takeCommand w rest s).rxsum = s.rxsum := rfl
@[simp] theorem takeCommand_rxmax : (takeCommand w rest s).rxmax = s.rxmax := rfl
@[simp] theorem takeCommand_rxbuf : (takeCommand w rest s).rxbuf = s.rxbuf := rfl
@[simp] theorem takeCommand_txsum : (takeCommand w rest s).txsum = s.txsum := rfl
@[simp] theorem takeCommand_err : (takeCommand w rest s).err = s.err := rfl
@[simp] theorem takeCommand_errinfo : (takeCommand w rest s).errinfo = s.errinfo := rfl
@[simp] theorem takeCommand_cfgf : (takeCommand w rest s).cfgf = s.cfgf := rfl
@[simp] theorem takeCommand_txs : (takeCommand w rest s).txs = s.txs := rfl
@[simp] theorem takeCommand_rxq : (takeCommand w rest s).rxq = s.rxq := rfl
@[simp] theorem takeCommand_par : (takeCommand w rest s).par = s.par := rfl
@[simp] theorem takeCommand_result : (takeCommand w rest s).result = s.result := rfl
@[simp] theorem takeCommand_cmds : (takeCommand w rest s).cmds = rest := rfl
@[simp] theorem takeCommand_blist : (takeCommand w rest s).blist = s.blist.drop (listLen w) := rfl
@[simp] theorem takeCommand_line : (takeCommand w rest s).line = s.line := rfl
@[simp] theorem takeCommand_waits : (takeCommand w rest s).waits = s.waits := rfl
@[simp] theorem takeCommand_resetPin : (takeCommand w rest s).resetPin = s.resetPin := rfl
@[simp] theorem takeCommand_scan : (takeCommand w rest s).scan = s.scan := rfl

end takeCommandFields

section dropCommandFields

variable (rest : List Cmd) (s : State)

@[simp] theorem dropCommand_tpl : (dropCommand rest s).tpl = s.tpl := rfl
@[simp] theorem dropCommand_tplv : (dropCommand rest s).tplv = s.tplv := rfl
@[simp] theorem dropCommand_buf : (dropCommand rest s).buf = s.buf := rfl
@[simp] theorem dropCommand_resp : (dropCommand rest s).resp = s.resp := rfl
@[simp] theorem dropCommand_seq : (dropCommand rest s).seq = s.seq := rfl
@[simp] theorem dropCommand_rxs : (dropCommand rest s).rxs = s.rxs := rfl
@[simp] theorem dropCommand_rxlen : (dropCommand rest s).rxlen = s.rxlen := rfl
@[simp] theorem dropCommand_rxcnt : (dropCommand rest s).rxcnt = s.rxcnt := rfl
@[simp] theorem dropCommand_rxsum : (dropCommand rest s).rxsum = s.rxsum := rfl
@[simp] theorem dropCommand_rxmax : (dropCommand rest s).rxmax = s.rxmax := rfl
@[simp] theorem dropCommand_rxbuf : (dropCommand rest s).rxbuf = s.rxbuf := rfl
@[simp] theorem dropCommand_txsum : (dropCommand rest s).txsum = s.txsum := rfl
@[simp] theorem dropCommand_err : (dropCommand rest s).err = s.err := rfl
@[simp] theorem dropCommand_errinfo : (dropCommand rest s).errinfo = s.errinfo := rfl
@[simp] theorem dropCommand_cfgf : (dropCommand rest s).cfgf = s.cfgf := rfl
@[simp] theorem dropCommand_txs : (dropCommand rest s).txs = s.txs := rfl
@[simp] theorem dropCommand_rxq : (dropCommand rest s).rxq = s.rxq := rfl
@[simp] theorem dropCommand_par : (dropCommand rest s).par = s.par := rfl
@[simp] theorem dropCommand_result : (dropCommand rest s).result = s.result := rfl
@[simp] theorem dropCommand_cmds : (dropCommand rest s).cmds = rest := rfl
@[simp] theorem dropCommand_blist : (dropCommand rest s).blist = s.blist := rfl
@[simp] theorem dropCommand_line : (dropCommand rest s).line = s.line := rfl
@[simp] theorem dropCommand_waits : (dropCommand rest s).waits = s.waits := rfl
@[simp] theorem dropCommand_resetPin : (dropCommand rest s).resetPin = s.resetPin := rfl
@[simp] theorem dropCommand_scan : (dropCommand rest s).scan = s.scan := rfl

end dropCommandFields

section recvStartFields

variable (m : Half) (s : State)

@[simp] theorem recvStart_tpl : (recvStart m s).tpl = s.tpl := rfl
@[simp] theorem recvStart_tplv : (recvStart m s).tplv = s.tplv := rfl
@[simp] theorem recvStart_buf : (recvStart m s).buf = s.buf := rfl
@[simp] theorem recvStart_resp : (recvStart m s).resp = s.resp := rfl
@[simp] theorem recvStart_seq : (recvStart m s).seq = s.seq := rfl
@[simp] theorem recvStart_rxs : (recvStart m s).rxs = .wStart := rfl
@[simp] theorem recvStart_rxlen : (recvStart m s).rxlen = 0#16 := rfl
@[simp] theorem recvStart_rxcnt : (recvStart m s).rxcnt = 0#16 := rfl
@[simp] theorem recvStart_rxsum : (recvStart m s).rxsum = 0#8 := rfl
@[simp] theorem recvStart_rxmax : (recvStart m s).rxmax = BitVec.ofNat 16 (min m.toNat s.par.maxPayload) := rfl
@[simp] theorem recvStart_rxbuf : (recvStart m s).rxbuf = s.rxbuf := rfl
@[simp] theorem recvStart_txsum : (recvStart m s).txsum = s.txsum := rfl
@[simp] theorem recvStart_err : (recvStart m s).err = s.err := rfl
@[simp] theorem recvStart_errinfo : (recvStart m s).errinfo = s.errinfo := rfl
@[simp] theorem recvStart_cfgf : (recvStart m s).cfgf = s.cfgf := rfl
@[simp] theorem recvStart_txs : (recvStart m s).txs = s.txs := rfl
@[simp] theorem recvStart_rxq : (recvStart m s).rxq = s.rxq := rfl
@[simp] theorem recvStart_par : (recvStart m s).par = s.par := rfl
@[simp] theorem recvStart_result : (recvStart m s).result = none := rfl
@[simp] theorem recvStart_cmds : (recvStart m s).cmds = s.cmds := rfl
@[simp] theorem recvStart_blist : (recvStart m s).blist = s.blist := rfl
@[simp] theorem recvStart_line : (recvStart m s).line = s.line := rfl
@[simp] theorem recvStart_waits : (recvStart m s).waits = s.waits := rfl
@[simp] theorem recvStart_resetPin : (recvStart m s).resetPin = s.resetPin := rfl
@[simp] theorem recvStart_scan : (recvStart m s).scan = s.scan := rfl

end recvStartFields

section emitAllFields

variable (bs : List Byte) (s : State)

@[simp] theorem emitAll_tpl : (emitAll bs s).tpl = s.tpl := rfl
@[simp] theorem emitAll_tplv : (emitAll bs s).tplv = s.tplv := rfl
@[simp] theorem emitAll_buf : (emitAll bs s).buf = s.buf := rfl
@[simp] theorem emitAll_resp : (emitAll bs s).resp = s.resp := rfl
@[simp] theorem emitAll_seq : (emitAll bs s).seq = s.seq := rfl
@[simp] theorem emitAll_rxs : (emitAll bs s).rxs = s.rxs := rfl
@[simp] theorem emitAll_rxlen : (emitAll bs s).rxlen = s.rxlen := rfl
@[simp] theorem emitAll_rxcnt : (emitAll bs s).rxcnt = s.rxcnt := rfl
@[simp] theorem emitAll_rxsum : (emitAll bs s).rxsum = s.rxsum := rfl
@[simp] theorem emitAll_rxmax : (emitAll bs s).rxmax = s.rxmax := rfl
@[simp] theorem emitAll_rxbuf : (emitAll bs s).rxbuf = s.rxbuf := rfl
@[simp] theorem emitAll_txsum : (emitAll bs s).txsum = xorOnto s.txsum bs := rfl
@[simp] theorem emitAll_err : (emitAll bs s).err = s.err := rfl
@[simp] theorem emitAll_errinfo : (emitAll bs s).errinfo = s.errinfo := rfl
@[simp] theorem emitAll_cfgf : (emitAll bs s).cfgf = s.cfgf := rfl
@[simp] theorem emitAll_txs : (emitAll bs s).txs = s.txs ++ bs := rfl
@[simp] theorem emitAll_rxq : (emitAll bs s).rxq = s.rxq := rfl
@[simp] theorem emitAll_par : (emitAll bs s).par = s.par := rfl
@[simp] theorem emitAll_result : (emitAll bs s).result = s.result := rfl
@[simp] theorem emitAll_cmds : (emitAll bs s).cmds = s.cmds := rfl
@[simp] theorem emitAll_blist : (emitAll bs s).blist = s.blist := rfl
@[simp] theorem emitAll_line : (emitAll bs s).line = s.line := rfl
@[simp] theorem emitAll_waits : (emitAll bs s).waits = s.waits := rfl
@[simp] theorem emitAll_resetPin : (emitAll bs s).resetPin = s.resetPin := rfl
@[simp] theorem emitAll_scan : (emitAll bs s).scan = s.scan := rfl

end emitAllFields

section streamWriteFields

variable (b : Byte) (s : State)

@[simp] theorem streamWrite_tpl : (streamWrite b s).tpl = s.tpl := rfl
@[simp] theorem streamWrite_tplv : (streamWrite b s).tplv = s.tplv := rfl
@[simp] theorem streamWrite_buf : (streamWrite b s).buf = s.buf := rfl
@[simp] theorem streamWrite_resp : (streamWrite b s).resp = s.resp := rfl
@[simp] theorem streamWrite_seq : (streamWrite b s).seq = s.seq := rfl
@[simp] theorem streamWrite_rxs : (streamWrite b s).rxs = s.rxs := rfl
@[simp] theorem streamWrite_rxlen : (streamWrite b s).rxlen = s.rxlen := rfl
@[simp] theorem streamWrite_rxcnt : (streamWrite b s).rxcnt = s.rxcnt := rfl
@[simp] theorem streamWrite_rxsum : (streamWrite b s).rxsum = s.rxsum := rfl
@[simp] theorem streamWrite_rxmax : (streamWrite b s).rxmax = s.rxmax := rfl
@[simp] theorem streamWrite_rxbuf : (streamWrite b s).rxbuf = s.rxbuf := rfl
@[simp] theorem streamWrite_txsum : (streamWrite b s).txsum = s.txsum := rfl
@[simp] theorem streamWrite_err : (streamWrite b s).err = s.err := rfl
@[simp] theorem streamWrite_errinfo : (streamWrite b s).errinfo = s.errinfo := rfl
@[simp] theorem streamWrite_cfgf : (streamWrite b s).cfgf = s.cfgf := rfl
@[simp] theorem streamWrite_txs : (streamWrite b s).txs = s.txs ++ [b] := rfl
@[simp] theorem streamWrite_rxq : (streamWrite b s).rxq = s.rxq := rfl
@[simp] theorem streamWrite_par : (streamWrite b s).par = s.par := rfl
@[simp] theorem streamWrite_result : (streamWrite b s).result = s.result := rfl
@[simp] theorem streamWrite_cmds : (streamWrite b s).cmds = s.cmds := rfl
@[simp] theorem streamWrite_blist : (streamWrite b s).blist = s.blist := rfl
@[simp] theorem streamWrite_line : (streamWrite b s).line = s.line := rfl
@[simp] theorem streamWrite_waits : (streamWrite b s).waits = s.waits := rfl
@[simp] theorem streamWrite_resetPin : (streamWrite b s).resetPin = s.resetPin := rfl
@[simp] theorem streamWrite_scan : (streamWrite b s).scan = s.scan := rfl

end streamWriteFields

section scanStartFields

variable (op : ScanOp) (t : Byte) (s : State)

@[simp] theorem scanStart_tpl : (scanStart op t s).tpl = s.tpl := rfl
@[simp] theorem scanStart_tplv : (scanStart op t s).tplv = s.tplv := rfl
@[simp] theorem scanStart_buf : (scanStart op t s).buf = s.buf := rfl
@[simp] theorem scanStart_resp : (scanStart op t s).resp = s.resp := rfl
@[simp] theorem scanStart_seq : (scanStart op t s).seq = s.seq := rfl
@[simp] theorem scanStart_rxs : (scanStart op t s).rxs = s.rxs := rfl
@[simp] theorem scanStart_rxlen : (scanStart op t s).rxlen = s.rxlen := rfl
@[simp] theorem scanStart_rxcnt : (scanStart op t s).rxcnt = s.rxcnt := rfl
@[simp] theorem scanStart_rxsum : (scanStart op t s).rxsum = s.rxsum := rfl
@[simp] theorem scanStart_rxmax : (scanStart op t s).rxmax = s.rxmax := rfl
@[simp] theorem scanStart_rxbuf : (scanStart op t s).rxbuf = s.rxbuf := rfl
@[simp] theorem scanStart_txsum : (scanStart op t s).txsum = s.txsum := rfl
@[simp] theorem scanStart_err : (scanStart op t s).err = s.err := rfl
@[simp] theorem scanStart_errinfo : (scanStart op t s).errinfo = s.errinfo := rfl
@[simp] theorem scanStart_cfgf : (scanStart op t s).cfgf = s.cfgf := rfl
@[simp] theorem scanStart_txs : (scanStart op t s).txs = s.txs := rfl
@[simp] theorem scanStart_rxq : (scanStart op t s).rxq = s.rxq := rfl
@[simp] theorem scanStart_par : (scanStart op t s).par = s.par := rfl
@[simp] theorem scanStart_result : (scanStart op t s).result = none := rfl
@[simp] theorem scanStart_cmds : (scanStart op t s).cmds = s.cmds := rfl
@[simp] theorem scanStart_blist : (scanStart op t s).blist = s.blist := rfl
@[simp] theorem scanStart_line : (scanStart op t s).line = s.line := rfl
@[simp] theorem scanStart_waits : (scanStart op t s).waits = s.waits := rfl
@[simp] theorem scanStart_resetPin : (scanStart op t s).resetPin = s.resetPin := rfl
@[simp] theorem scanStart_scan : (scanStart op t s).scan = some { op := op, slot := t, pos := 0, out := 0#8, first := none } := rfl

end scanStartFields

section resetEventFields

variable (s : State)

@[simp] theorem resetEvent_tpl : (resetEvent s).tpl = [] := rfl
@[simp] theorem resetEvent_tplv : (resetEvent s).tplv = 0#256 := rfl
@[simp] theorem resetEvent_buf : (resetEvent s).buf = 0#32 := rfl
@[simp] theorem resetEvent_resp : (resetEvent s).resp = 0#32 := rfl
@[simp] theorem resetEvent_seq : (resetEvent s).seq = s.par.seqReset := rfl
@[simp] theorem resetEvent_rxs : (resetEvent s).rxs = .idle := rfl
@[simp] theorem resetEvent_rxlen : (resetEvent s).rxlen = 0#16 := rfl
@[simp] theorem resetEvent_rxcnt : (resetEvent s).rxcnt = 0#16 := rfl
@[simp] theorem resetEvent_rxsum : (resetEvent s).rxsum = 0#8 := rfl
@[simp] theorem resetEvent_rxmax : (resetEvent s).rxmax = 0#16 := rfl
@[simp] theorem resetEvent_rxbuf : (resetEvent s).rxbuf = [] := rfl
@[simp] theorem resetEvent_txsum : (resetEvent s).txsum = 0#8 := rfl
@[simp] theorem resetEvent_err : (resetEvent s).err = 0#8 := rfl
@[simp] theorem resetEvent_errinfo : (resetEvent s).errinfo = 0#16 := rfl
@[simp] theorem resetEvent_cfgf : (resetEvent s).cfgf = false := rfl
@[simp] theorem resetEvent_txs : (resetEvent s).txs = s.txs := rfl
@[simp] theorem resetEvent_rxq : (resetEvent s).rxq = s.rxq := rfl
@[simp] theorem resetEvent_par : (resetEvent s).par = s.par := rfl
@[simp] theorem resetEvent_result : (resetEvent s).result = none := rfl
@[simp] theorem resetEvent_cmds : (resetEvent s).cmds = s.cmds := rfl
@[simp] theorem resetEvent_blist : (resetEvent s).blist = s.blist := rfl
@[simp] theorem resetEvent_line : (resetEvent s).line = s.line := rfl
@[simp] theorem resetEvent_waits : (resetEvent s).waits = s.waits := rfl
@[simp] theorem resetEvent_resetPin : (resetEvent s).resetPin = false := rfl
@[simp] theorem resetEvent_scan : (resetEvent s).scan = none := rfl

end resetEventFields

end Sys2Proof.Machine
end

