-- ==== Sys2Proof/Laws/Codec.lean ====
section
/-! SUPPORT. What the scan of a template computes (40_codec.md R140, R145, R150, R155, R160): the word bit by bit, the
output byte bit by bit, the least output position; and what the template check lets through. -/

namespace Sys2Proof.Machine

/-! ### One position -/

/-- A written position reads the bit written, every other position what it read. -/
theorem writeBit_getLsbD (w : Word) {k j : Nat} (b : Bool) (hj : j < 32) :
    (writeBit w k b).getLsbD j = if j = k then b else w.getLsbD j := by
  unfold writeBit
  split <;> rename_i hb
  · subst hb
    by_cases hjk : j = k
    · subst hjk; simp [hj]
    · by_cases hlt : j < k
      · simp [hjk, hlt, hj]
      · have : j - k ≠ 0 := by omega
        simp [hjk, hlt, hj, this]
  · have hb' : b = false := by simpa using hb
    subst hb'
    by_cases hjk : j = k
    · subst hjk; simp [hj]
    · by_cases hlt : j < k
      · simp [hjk, hlt, hj]
      · have : j - k ≠ 0 := by omega
        simp [hjk, hlt, hj, this]

/-- The bit an operation writes at a position of a given role, if it writes one (R91). -/
def roleWrites (op : ScanOp) (r : Option Role) : Option Bool :=
  match op, r with
  | .encfix, some .f0 => some false
  | .encfix, some .f1 => some true
  | .encaddr address, some (.a n) => some (addressBit address n)
  | .encin data, some (.i n) => some (dataBit data n)
  | _, _ => none

/-- What the role of a position does to the word. -/
theorem roleAct_word (op : ScanOp) (resp : Word) (k : Nat) (r : Option Role) (c : CodecAcc) :
    (roleAct op resp k r c).word = match roleWrites op r with
      | some b => writeBit c.word k b
      | none => c.word := by
  cases r with
  | none => cases op <;> rfl
  | some r => cases r <;> cases op <;> rfl

/-- What the role of a position does to `out` (R155). -/
theorem roleAct_out (op : ScanOp) (resp : Word) (k : Nat) (r : Option Role) (c : CodecAcc) :
    (roleAct op resp k r c).out = match op, r with
      | .decout, some (.o n) => c.out ||| outputBit (bit resp k) n
      | _, _ => c.out := by
  cases r with
  | none => cases op <;> rfl
  | some r => cases r <;> cases op <;> rfl

/-- What the role of a position does to the least output position (R160). -/
theorem roleAct_first (op : ScanOp) (resp : Word) (k : Nat) (r : Option Role) (c : CodecAcc) :
    (roleAct op resp k r c).first = match op, r, c.first with
      | .outidx, some (.o _), none => some k
      | _, _, f => f := by
  obtain ⟨w, o, f⟩ := c
  cases r with
  | none => cases op <;> cases f <;> rfl
  | some r => cases r <;> cases op <;> cases f <;> rfl

/-- Data bit `n`: the bit for `n ≤ 7`, 0 above (R150). -/
theorem dataBit_eq (data : Byte) (n : Index) :
    dataBit data n = if n.toNat ≤ 7 then data.getLsbD n.toNat else false := by
  unfold dataBit bit
  split
  · rename_i h
    simp [BitVec.getLsbD_setWidth]; omega
  · rename_i h
    have : 8 ≤ n.toNat := by omega
    simp [BitVec.getLsbD_of_ge _ _ this]

/-- An output role contributes the bit at its own index only, and nothing for an index above 7 (R155). -/
theorem outputBit_getLsbD (b : Bool) (n : Index) {m : Nat} (hm : m < 8) :
    (outputBit b n).getLsbD m = (b && decide (m = n.toNat)) := by
  unfold outputBit
  split
  · rename_i hn
    cases b with
    | false => simp
    | true =>
      by_cases h : m = n.toNat
      · simp [h]; omega
      · by_cases hlt : m < n.toNat
        · simp [h, hlt]
        · have : m - n.toNat ≠ 0 := by omega
          simp [h, hlt, this]
  · rename_i hn
    have : m ≠ n.toNat := by omega
    simp [this]

/-! ### The first `n` positions -/

/-- The scan of the first `n` positions. -/
def scanFirst (n : Nat) (op : ScanOp) (resp : Word) (roles : Nat → Option Role) (c : CodecAcc) : CodecAcc :=
  (List.range n).foldl (fun c k => roleAct op resp k (roles k) c) c

theorem scanFirst_zero (op : ScanOp) (resp : Word) (roles : Nat → Option Role) (c : CodecAcc) :
    scanFirst 0 op resp roles c = c := rfl

theorem scanFirst_succ (n : Nat) (op : ScanOp) (resp : Word) (roles : Nat → Option Role) (c : CodecAcc) :
    scanFirst (n + 1) op resp roles c = roleAct op resp n (roles n) (scanFirst n op resp roles c) := by
  simp [scanFirst, List.range_succ]

theorem scanAll_eq (op : ScanOp) (resp : Word) (roles : Nat → Option Role) (c : CodecAcc) :
    scanAll op resp roles c = scanFirst 32 op resp roles c := rfl

/-- The word after `n` positions: the positions below `n` that the operation writes hold their bit, all others what they
held. -/
theorem scanFirst_word (n : Nat) (op : ScanOp) (resp : Word) (roles : Nat → Option Role) (c : CodecAcc) {j : Nat}
    (hj : j < 32) : (scanFirst n op resp roles c).word.getLsbD j =
      if j < n then (roleWrites op (roles j)).getD (c.word.getLsbD j) else c.word.getLsbD j := by
  induction n with
  | zero => simp [scanFirst_zero]
  | succ n ih =>
    rw [scanFirst_succ, roleAct_word]
    by_cases hjn : j = n
    · subst hjn
      cases h : roleWrites op (roles j) with
      | none => simp [ih]
      | some b => simp [writeBit_getLsbD _ _ hj]
    · have : (j < n + 1) = (j < n) := by simp; omega
      cases h : roleWrites op (roles n) with
      | none => simp [ih, this]
      | some b => simp [writeBit_getLsbD _ _ hj, hjn, ih, this]

/-- DECOUT's byte after `n` positions: the OR of the response bits at the positions below `n` of that index. -/
theorem scanFirst_out (n : Nat) (resp : Word) (roles : Nat → Option Role) (c : CodecAcc) {m : Nat} (hm : m < 8) :
    ((scanFirst n .decout resp roles c).out.getLsbD m = true ↔ c.out.getLsbD m = true ∨
      ∃ k, k < n ∧ roles k = some (.o (BitVec.ofNat 5 m)) ∧ resp.getLsbD k = true) := by
  have hidx : ∀ i : Index, m = i.toNat ↔ i = BitVec.ofNat 5 m := fun i => by
    constructor
    · rintro rfl; simp
    · rintro rfl; simp; omega
  induction n with
  | zero => simp [scanFirst_zero]
  | succ n ih =>
    rw [scanFirst_succ, roleAct_out]
    have hsplit : (∃ k, k < n + 1 ∧ roles k = some (.o (BitVec.ofNat 5 m)) ∧ resp.getLsbD k = true) ↔
        (∃ k, k < n ∧ roles k = some (.o (BitVec.ofNat 5 m)) ∧ resp.getLsbD k = true) ∨
        (roles n = some (.o (BitVec.ofNat 5 m)) ∧ resp.getLsbD n = true) := by
      constructor
      · rintro ⟨k, hk, h⟩
        by_cases hkn : k = n
        · subst hkn; exact .inr h
        · exact .inl ⟨k, by omega, h⟩
      · rintro (⟨k, hk, h⟩ | h)
        · exact ⟨k, by omega, h⟩
        · exact ⟨n, by omega, h⟩
    rw [hsplit, ← or_assoc]
    refine Iff.trans ?_ (or_congr ih Iff.rfl)
    cases hr : roles n with
    | none => simp
    | some r =>
      cases r with
      | o i => simp [outputBit_getLsbD _ _ hm, hidx, bit, and_comm]
      | f0 => simp
      | f1 => simp
      | x => simp
      | a i => simp
      | i i => simp

/-- OUTIDX's least output position after `n` positions: what was known, else the least one below `n`. -/
theorem scanFirst_first (n : Nat) (resp : Word) (roles : Nat → Option Role) (c : CodecAcc) (hc : c.first = none) :
    (∀ j, j < n → ∀ i, roles j ≠ some (.o i)) ∧ (scanFirst n .outidx resp roles c).first = none ∨
    ∃ k, k < n ∧ (∃ i, roles k = some (.o i)) ∧ (∀ j, j < k → ∀ i, roles j ≠ some (.o i)) ∧
      (scanFirst n .outidx resp roles c).first = some k := by
  induction n with
  | zero => exact .inl ⟨by simp, by simpa [scanFirst_zero] using hc⟩
  | succ n ih =>
    rw [scanFirst_succ, roleAct_first]
    rcases ih with ⟨hnone, hf⟩ | ⟨k, hk, hr, hleast, hf⟩
    · by_cases hrn : ∃ i, roles n = some (.o i)
      · obtain ⟨i, hi⟩ := hrn
        exact .inr ⟨n, by omega, ⟨i, hi⟩, hnone, by simp [hi, hf]⟩
      · refine .inl ⟨fun j hj => ?_, ?_⟩
        · by_cases hjn : j = n
          · subst hjn; exact fun i hi => hrn ⟨i, hi⟩
          · exact hnone j (by omega)
        · rw [hf]
          split <;> simp_all
    · refine .inr ⟨k, by omega, hr, hleast, ?_⟩
      rw [hf]
      split <;> simp_all

/-- Under DECOUT and OUTIDX no position of the word is written. -/
theorem scanFirst_word_reader (n : Nat) (op : ScanOp) (hop : op = .decout ∨ op = .outidx) (resp : Word)
    (roles : Nat → Option Role) (c : CodecAcc) : (scanFirst n op resp roles c).word = c.word := by
  induction n with
  | zero => rfl
  | succ n ih =>
    rw [scanFirst_succ, roleAct_word, ih]
    rcases hop with rfl | rfl <;> simp [roleWrites]

/-! ### The checks before the scan -/

/-- The range check (R131 line 1, R137 line 1). -/
theorem rangeCheck_eq (t : Byte) (s : State) (go : Host.Outcome State Fault Refusal) :
    rangeCheck t s go =
      if t.toNat < s.par.nTpl then go else .next (raise .templateRange (info8 t) s) := by
  by_cases h : t.toNat < s.par.nTpl <;> simp [rangeCheck, slotInRange, h]

/-- The template check lets the slots through that are in range and valid, and refuses the others in its order (R138). -/
theorem templateCheck_eq (t : Byte) (s : State) (go : Host.Outcome State Fault Refusal) :
    templateCheck t s go =
      if t.toNat < s.par.nTpl then
        (if s.tplv.getLsbD t.toNat then go else .next (raise .templateNotValid (info8 t) s))
      else .next (raise .templateRange (info8 t) s) := by
  unfold templateCheck rangeCheck slotInRange slotValid
  by_cases h : t.toNat < s.par.nTpl <;> simp [h]

/-- What a codec operation changes after its check: the word and the port, nothing else. -/
theorem codecOp_eq (op : ScanOp) (t : Byte) (s : State) :
    codecOp op t s =
      let c := scanFirst 32 op s.resp (roleAt s t) { word := s.buf, out := 0#8, first := none }
      { s with buf := c.word, result := some { status := okCode, value := scanValue op c, payload := [] } } := rfl

/-- Making slot `t` valid sets its bit and no other (R131 line 6). -/
theorem setValid_getLsbD (v : BitVec 256) (t : Byte) (j : Nat) :
    (setValid v t).getLsbD j = (v.getLsbD j || decide (j = t.toNat)) := by
  have := t.isLt
  unfold setValid
  rw [BitVec.getLsbD_or, BitVec.getLsbD_shiftLeft]
  congr 1
  by_cases h : j = t.toNat
  · subst h
    simp
    omega
  · by_cases hlt : j < t.toNat
    · simp [h, hlt]
    · have : j - t.toNat ≠ 0 := by omega
      simp [h, this]

/-- One position of a scan: the next position, or the end after the last one (log 7). -/
theorem scanStep_eq (act : ScanOp → Nat → CodecAcc → CodecAcc) {s : State} {sc : Scan} (h : s.scan = some sc) :
    scanStep act s =
      let c := act sc.op sc.pos { word := s.buf, out := sc.out, first := sc.first }
      if sc.pos + 1 < 32 then
        { s with buf := c.word, scan := some { sc with pos := sc.pos + 1, out := c.out, first := c.first } }
      else scanEnd sc.op c { s with scan := none } := by
  unfold scanStep
  rw [h]
  rfl

/-- The first undefined code of a list is at the least position that holds one (R131 line 4). -/
theorem firstUndefined_eq_none (n : Nat) (roles : List Byte) :
    firstUndefined n roles = none ↔ ∀ c ∈ roles, roleDefined c = true := by
  induction roles generalizing n with
  | nil => simp [firstUndefined]
  | cons c cs ih =>
    by_cases h : roleDefined c = true <;> simp [firstUndefined, h, ih]

theorem firstUndefined_eq_some (n : Nat) (roles : List Byte) {k : Nat} {c : Byte} (hk : roles[k]? = some c)
    (hc : roleDefined c = false) (hleast : ∀ j, j < k → roleDefined (roles.getD j 0#8) = true) :
    firstUndefined n roles = some (n + k, c) := by
  induction roles generalizing n k with
  | nil => simp at hk
  | cons d ds ih =>
    cases k with
    | zero =>
      have : d = c := by simpa using hk
      subst this
      simp [firstUndefined, hc]
    | succ k =>
      have hd : roleDefined d = true := by simpa using hleast 0 (by omega)
      have := ih (n + 1) (k := k) (by simpa using hk) (fun j hj => by simpa using hleast (j + 1) (by omega))
      simp [firstUndefined, hd, this]; omega

end Sys2Proof.Machine
end

