-- ==== Sys2Proof/Laws/Decode.lean ====
section
/-! SUPPORT. The fields of the three formats: what a concatenation holds as a number, and that taking a word apart and
putting it together are inverse (30_encoding.md R92, R100, R110). -/

namespace Sys2Proof

/-- A concatenation as a number: the left part on the more significant side (00_scope.md R10). -/
theorem append_toNat {n m k : Nat} (x : BitVec n) (y : BitVec m) (h : n + m = k) :
    ((x ++ y).cast h).toNat = x.toNat * 2 ^ m + y.toNat := by
  simp only [BitVec.toNat_cast, BitVec.toNat_append]
  rw [Nat.shiftLeft_eq, mul_comm, ← Nat.two_pow_add_eq_or_of_lt y.isLt]

/-- A bit field as a number. -/
theorem extract_toNat {n : Nat} (x : BitVec n) (lo len : Nat) :
    (x.extractLsb' lo len).toNat = x.toNat / 2 ^ lo % 2 ^ len := by
  simp [BitVec.extractLsb', Nat.shiftRight_eq_div_pow]

/-- A command word as a number (R110). -/
theorem mkCmd_toNat (op t : Byte) (imm : Word) :
    (mkCmd op t imm).toNat = (op.toNat * 2 ^ 8 + t.toNat) * 2 ^ 32 + imm.toNat := by
  have h1 := append_toNat (op ++ t) imm (k := 48) rfl
  have h2 := append_toNat op t (k := 16) rfl
  simp only [BitVec.toNat_cast] at h1 h2
  unfold mkCmd
  rw [← h2]
  exact h1

@[simp] theorem cmdOp_mkCmd (op t : Byte) (imm : Word) : cmdOp (mkCmd op t imm) = op := by
  apply BitVec.eq_of_toNat_eq
  have := op.isLt
  have := t.isLt
  have := imm.isLt
  rw [cmdOp, extract_toNat, mkCmd_toNat]
  omega

@[simp] theorem cmdT_mkCmd (op t : Byte) (imm : Word) : cmdT (mkCmd op t imm) = t := by
  apply BitVec.eq_of_toNat_eq
  have := op.isLt
  have := t.isLt
  have := imm.isLt
  rw [cmdT, extract_toNat, mkCmd_toNat]
  omega

@[simp] theorem cmdImm_mkCmd (op t : Byte) (imm : Word) : cmdImm (mkCmd op t imm) = imm := by
  apply BitVec.eq_of_toNat_eq
  have := op.isLt
  have := t.isLt
  have := imm.isLt
  rw [cmdImm, extract_toNat, mkCmd_toNat]
  omega

/-- A command word is its three fields (R110). -/
theorem mkCmd_fields (w : Cmd) : mkCmd (cmdOp w) (cmdT w) (cmdImm w) = w := by
  apply BitVec.eq_of_toNat_eq
  have := w.isLt
  rw [mkCmd_toNat]
  unfold cmdOp cmdT cmdImm
  simp only [extract_toNat]
  omega

/-- An immediate whose bits above 7 are zero is its byte (R112). -/
theorem imm8_setWidth (imm : Word) (h : immAbove8 imm = 0#24) : (imm8 imm).setWidth 32 = imm := by
  have h' := congrArg BitVec.toNat h
  apply BitVec.eq_of_toNat_eq
  have := imm.isLt
  simp only [immAbove8, extract_toNat, BitVec.toNat_ofNat] at h'
  simp only [imm8, BitVec.toNat_setWidth, extract_toNat]
  omega

/-- An immediate whose bits above 15 are zero is its 16-bit field (R112). -/
theorem imm16_setWidth (imm : Word) (h : immAbove16 imm = 0#16) : (imm16 imm).setWidth 32 = imm := by
  have h' := congrArg BitVec.toNat h
  apply BitVec.eq_of_toNat_eq
  have := imm.isLt
  simp only [immAbove16, extract_toNat, BitVec.toNat_ofNat] at h'
  simp only [imm16, BitVec.toNat_setWidth, extract_toNat]
  omega

@[simp] theorem imm8_of_byte (b : Byte) : imm8 (b.setWidth 32) = b := by
  apply BitVec.eq_of_toNat_eq
  have := b.isLt
  simp only [imm8, extract_toNat, BitVec.toNat_setWidth]
  omega

@[simp] theorem immAbove8_of_byte (b : Byte) : immAbove8 (b.setWidth 32) = 0#24 := by
  apply BitVec.eq_of_toNat_eq
  have := b.isLt
  simp only [immAbove8, extract_toNat, BitVec.toNat_setWidth, BitVec.toNat_ofNat]
  omega

@[simp] theorem imm16_of_half (h : Half) : imm16 (h.setWidth 32) = h := by
  apply BitVec.eq_of_toNat_eq
  have := h.isLt
  simp only [imm16, extract_toNat, BitVec.toNat_setWidth]
  omega

@[simp] theorem immAbove16_of_half (h : Half) : immAbove16 (h.setWidth 32) = 0#16 := by
  apply BitVec.eq_of_toNat_eq
  have := h.isLt
  simp only [immAbove16, extract_toNat, BitVec.toNat_setWidth, BitVec.toNat_ofNat]
  omega

/-- A role code as a number (R92). -/
theorem roleCode_toNat (tag : BitVec 3) (n : Index) : (roleCode tag n).toNat = tag.toNat * 32 + n.toNat := by
  have h := append_toNat tag n (k := 8) rfl
  simp only [BitVec.toNat_cast] at h
  exact h

@[simp] theorem roleTag_roleCode (tag : BitVec 3) (n : Index) : roleTag (roleCode tag n) = tag := by
  apply BitVec.eq_of_toNat_eq
  have := tag.isLt
  have := n.isLt
  rw [roleTag, extract_toNat, roleCode_toNat]
  omega

@[simp] theorem roleIndex_roleCode (tag : BitVec 3) (n : Index) : roleIndex (roleCode tag n) = n := by
  apply BitVec.eq_of_toNat_eq
  have := tag.isLt
  have := n.isLt
  rw [roleIndex, extract_toNat, roleCode_toNat]
  omega

/-- A role code is its tag and index (R92). -/
theorem roleCode_fields (c : Byte) : roleCode (roleTag c) (roleIndex c) = c := by
  apply BitVec.eq_of_toNat_eq
  have := c.isLt
  rw [roleCode_toNat]
  simp only [roleTag, roleIndex, extract_toNat]
  omega

/-- A header as a number (R100). -/
theorem headerWord_toNat (b0 b1 b2 b3 b4 : Byte) : (headerWord b0 b1 b2 b3 b4).toNat =
    (((b0.toNat * 256 + b1.toNat) * 256 + b2.toNat) * 256 + b3.toNat) * 256 + b4.toNat := by
  have h1 := append_toNat b0 b1 (k := 16) rfl
  have h2 := append_toNat (b0 ++ b1) b2 (k := 24) rfl
  have h3 := append_toNat (b0 ++ b1 ++ b2) b3 (k := 32) rfl
  have h4 := append_toNat (b0 ++ b1 ++ b2 ++ b3) b4 (k := 40) rfl
  simp only [BitVec.toNat_cast] at h1 h2 h3 h4
  refine h4.trans ?_
  rw [h3, h2, h1]
  norm_num

/-- The bytes of a header word (R100). -/
@[simp] theorem headerBytes_headerWord (b0 b1 b2 b3 b4 : Byte) :
    headerBytes (headerWord b0 b1 b2 b3 b4) = [b0, b1, b2, b3, b4] := by
  have := b0.isLt
  have := b1.isLt
  have := b2.isLt
  have := b3.isLt
  have := b4.isLt
  simp only [headerBytes, List.cons.injEq, and_true]
  refine ⟨?_, ?_, ?_, ?_, ?_⟩ <;> apply BitVec.eq_of_toNat_eq <;> rw [extract_toNat, headerWord_toNat] <;> omega

/-- A header word is its five bytes (R100). -/
theorem headerWord_fields (h : Header) :
    headerWord (h.extractLsb' 32 8) (h.extractLsb' 24 8) (h.extractLsb' 16 8) (h.extractLsb' 8 8) (h.extractLsb' 0 8) = h := by
  apply BitVec.eq_of_toNat_eq
  have := h.isLt
  rw [headerWord_toNat]
  simp only [extract_toNat]
  omega

/-- The `op` value of each operation (R112). -/
def opByte : Op → Byte
  | .tplload => 0x10#8
  | .tplvalid => 0x11#8
  | .encfix => 0x12#8
  | .encaddr => 0x13#8
  | .encin => 0x14#8
  | .decout => 0x15#8
  | .outidx => 0x16#8
  | .send => 0x20#8
  | .recv => 0x21#8
  | .ldbuf => 0x30#8
  | .rdbuf => 0x31#8
  | .ldresp => 0x32#8
  | .rdseq => 0x33#8
  | .rderr => 0x34#8

/-- An `op` value names at most one operation (R112). -/
theorem opOfByte_eq_some (b : Byte) (op : Op) : opOfByte b = some op ↔ b = opByte op := by
  constructor
  · intro h
    unfold opOfByte at h
    split at h <;> cases h <;> apply BitVec.eq_of_toNat_eq <;> assumption
  · rintro rfl
    cases op <;> rfl

end Sys2Proof
end

