-- ==== Sys2Proof/Laws/Framer.lean ====
section
/-! SUPPORT. The bytes of a length (00_scope.md R9; 20_memory.md R65), the running exclusive OR (30_encoding.md R102), and
all that a sent frame does to the state (41_framer_send.md R170). -/

namespace Sys2Proof.Machine

/-- The high byte of a length as a number. -/
theorem lenHi_toNat (len : Half) : (lenHi len).toNat = len.toNat / 256 := by
  have := len.isLt
  rw [lenHi, extract_toNat]
  omega

/-- The low byte of a length as a number. -/
theorem lenLo_toNat (len : Half) : (lenLo len).toNat = len.toNat % 256 := by
  rw [lenLo, extract_toNat]
  omega

/-- `RXLEN[15:8] <- b` leaves the low byte (R192). -/
theorem setLenHi_toNat (len : Half) (b : Byte) : (setLenHi len b).toNat = 256 * b.toNat + len.toNat % 256 := by
  have h := append_toNat b (lenLo len) (k := 16) rfl
  simp only [BitVec.toNat_cast] at h
  rw [setLenHi, h, lenLo_toNat]
  omega

/-- `RXLEN[7:0] <- b` leaves the high byte (R193). -/
theorem setLenLo_toNat (len : Half) (b : Byte) : (setLenLo len b).toNat = 256 * (len.toNat / 256) + b.toNat := by
  have h := append_toNat (lenHi len) b (k := 16) rfl
  simp only [BitVec.toNat_cast] at h
  rw [setLenLo, h, lenHi_toNat]
  omega

/-- The exclusive OR of two lists after each other. -/
theorem xorAll_append (a b : List Byte) : xorAll (a ++ b) = xorAll a ^^^ xorAll b := by
  induction a with
  | nil => simp [xorAll]
  | cons x a ih => simp [xorAll, ih, BitVec.xor_assoc]

/-- The running sum of the pseudocode is the exclusive OR of the list (R102). -/
theorem xorOnto_eq (sum : Byte) (bytes : List Byte) : xorOnto sum bytes = sum ^^^ xorAll bytes := by
  induction bytes generalizing sum with
  | nil => simp [xorOnto, xorAll]
  | cons b bs ih =>
    simp only [xorOnto, List.foldl_cons, xorAll] at ih ⊢
    rw [ih, BitVec.xor_assoc]

/-- All that the lines 2 to 9 of SEND do: the bytes on the stream, the sum in `TXSUM` (R170). -/
theorem sendFrame_eq (payload : List Byte) (s : State) :
    sendFrame payload s =
      { s with
        txs := s.txs ++ frameBody s.seq payload ++ [xorAll (frameBody s.seq payload)]
        txsum := xorAll (frameBody s.seq payload) } := by
  simp [sendFrame, writeChecksum, streamWrite, emitAll, xorOnto_eq]

end Sys2Proof.Machine
end

