-- ==== Sys2Proof/Laws/Memory.lean ====
section
/-! SUPPORT. The byte stores: read after write, the canonical form is kept, and which addresses are listed. -/

namespace Sys2Proof.Machine

/-- A canonical store reads its default at every address below its entries. -/
theorem Memory.read_of_below {m : Memory} {i : Nat} (h : ∀ c ∈ m, i < c.1) : Memory.read m i = memDefault := by
  induction m with
  | nil => rfl
  | cons c m ih =>
    have hc := h c (by simp)
    have hm := ih (fun d hd => h d (by simp [hd]))
    simp [Memory.read, hm]; omega

theorem Memory.wf_cons {c : Host.Cell} {m : Memory} :
    Memory.wf (c :: m) = true ↔ c.2 ≠ memDefault ∧ (∀ d ∈ m, c.1 < d.1) ∧ Memory.wf m = true := by
  simp [Memory.wf, and_assoc]

/-- Read after write at another address: no premise on the store. -/
theorem Memory.read_write_other (m : Memory) {i j : Nat} (b : Byte) (h : j ≠ i) :
    Memory.read (Memory.write m i b) j = Memory.read m j := by
  induction m with
  | nil => by_cases hb : b = memDefault <;> simp [Memory.write, Memory.read, hb, Ne.symm h]
  | cons c m ih =>
    obtain ⟨a, v⟩ := c
    simp only [Memory.write]
    split
    · split <;> simp [Memory.read, Ne.symm h]
    · split
      · rename_i _ hia
        split <;> simp [Memory.read, ← hia, Ne.symm h]
      · simp [Memory.read, ih]

/-- Read after write at the same address, in a canonical store. -/
theorem Memory.read_write_same {m : Memory} (hm : Memory.wf m = true) (i : Nat) (b : Byte) :
    Memory.read (Memory.write m i b) i = b := by
  induction m with
  | nil => by_cases hb : b = memDefault <;> simp [Memory.write, Memory.read, hb]
  | cons c m ih =>
    obtain ⟨a, v⟩ := c
    obtain ⟨-, hbelow, hwf⟩ := Memory.wf_cons.mp hm
    simp only [Memory.write]
    split
    · rename_i hia
      split
      · rename_i hb
        rw [hb]
        refine Memory.read_of_below (fun d hd => ?_)
        rcases List.mem_cons.mp hd with rfl | hd
        · exact hia
        · exact Nat.lt_trans hia (hbelow d hd)
      · simp [Memory.read]
    · split
      · rename_i _ hia
        split
        · rename_i hb
          rw [hb]
          exact Memory.read_of_below (fun d hd => hia ▸ hbelow d hd)
        · simp [Memory.read]
      · rename_i _ hia
        simp [Memory.read, ih hwf, Ne.symm hia]

/-- What a write lists: old entries and the address written. -/
theorem Memory.mem_write {m : Memory} {i : Nat} {b : Byte} {c : Host.Cell} (h : c ∈ Memory.write m i b) :
    c ∈ m ∨ c.1 = i := by
  induction m with
  | nil =>
    by_cases hb : b = memDefault <;> simp [Memory.write, hb] at h
    exact .inr (by rw [h])
  | cons d m ih =>
    obtain ⟨a, v⟩ := d
    simp only [Memory.write] at h
    split at h
    · split at h
      · exact .inl h
      · rcases List.mem_cons.mp h with rfl | h
        · exact .inr rfl
        · exact .inl h
    · split at h
      · split at h
        · exact .inl (by simp [h])
        · rcases List.mem_cons.mp h with rfl | h
          · exact .inr rfl
          · exact .inl (by simp [h])
      · rcases List.mem_cons.mp h with rfl | h
        · exact .inl (by simp)
        · exact (ih h).imp (fun h => by simp [h]) id

/-- A write keeps the canonical form. -/
theorem Memory.wf_write {m : Memory} (hm : Memory.wf m = true) (i : Nat) (b : Byte) :
    Memory.wf (Memory.write m i b) = true := by
  induction m with
  | nil => by_cases hb : b = memDefault <;> simp [Memory.write, Memory.wf, hb]
  | cons c m ih =>
    obtain ⟨a, v⟩ := c
    obtain ⟨hv, hbelow, hwf⟩ := Memory.wf_cons.mp hm
    simp only [Memory.write]
    split
    · rename_i hia
      split
      · exact hm
      · rename_i hb
        refine Memory.wf_cons.mpr ⟨hb, fun d hd => ?_, hm⟩
        rcases List.mem_cons.mp hd with rfl | hd
        · exact hia
        · exact Nat.lt_trans hia (hbelow d hd)
    · split
      · rename_i _ hia
        split
        · exact hwf
        · rename_i hb
          exact Memory.wf_cons.mpr ⟨hb, hia ▸ hbelow, hwf⟩
      · rename_i hlt hne
        refine Memory.wf_cons.mpr ⟨hv, fun d hd => ?_, ih hwf⟩
        rcases Memory.mem_write hd with hd | hd
        · exact hbelow d hd
        · simp only [hd]; omega

/-- Writing a list of bytes keeps the canonical form. -/
theorem Memory.wf_writeAll {m : Memory} (hm : Memory.wf m = true) (i : Nat) (bs : List Byte) :
    Memory.wf (Memory.writeAll m i bs) = true := by
  induction bs generalizing m i with
  | nil => exact hm
  | cons b bs ih => exact ih (Memory.wf_write hm i b) (i + 1)

/-- Writing a list of bytes leaves every address outside it. -/
theorem Memory.read_writeAll_other (m : Memory) {i a : Nat} (bs : List Byte) (h : a < i ∨ i + bs.length ≤ a) :
    Memory.read (Memory.writeAll m i bs) a = Memory.read m a := by
  induction bs generalizing m i with
  | nil => rfl
  | cons b bs ih =>
    simp only [List.length_cons] at h
    rw [Memory.writeAll, ih _ (by omega), Memory.read_write_other _ _ (by omega)]

/-- Writing a list of bytes puts byte `k` at address `i + k`. -/
theorem Memory.read_writeAll_same {m : Memory} (hm : Memory.wf m = true) (i : Nat) (bs : List Byte) {k : Nat}
    (hk : k < bs.length) : Memory.read (Memory.writeAll m i bs) (i + k) = bs.getD k 0#8 := by
  induction bs generalizing m i k with
  | nil => simp at hk
  | cons b bs ih =>
    cases k with
    | zero =>
      rw [Memory.writeAll, Memory.read_writeAll_other _ _ (by omega)]
      simpa using Memory.read_write_same hm i b
    | succ k =>
      have := ih (Memory.wf_write hm i b) (i + 1) (k := k) (by simpa using hk)
      rw [Memory.writeAll, show i + (k + 1) = i + 1 + k by omega, this]
      simp

/-- What writing a list of bytes lists. -/
theorem Memory.mem_writeAll {m : Memory} {i : Nat} {bs : List Byte} {c : Host.Cell}
    (h : c ∈ Memory.writeAll m i bs) : c ∈ m ∨ (i ≤ c.1 ∧ c.1 < i + bs.length) := by
  induction bs generalizing m i with
  | nil => exact .inl h
  | cons b bs ih =>
    simp only [List.length_cons]
    rcases ih h with h | h
    · rcases Memory.mem_write h with h | h
      · exact .inl h
      · exact .inr (by omega)
    · exact .inr (by omega)

/-- The first bytes after one more is stored at the end. -/
theorem Memory.firstBytes_write {m : Memory} (hm : Memory.wf m = true) (n : Nat) (b : Byte) :
    Memory.firstBytes (Memory.write m n b) (n + 1) = Memory.firstBytes m n ++ [b] := by
  simp only [Memory.firstBytes, List.range_succ, List.map_append, List.map_cons, List.map_nil,
    Memory.read_write_same hm]
  congr 1
  refine List.map_congr_left (fun j hj => Memory.read_write_other m b ?_)
  have := List.mem_range.mp hj
  omega

@[simp] theorem Memory.length_firstBytes (m : Memory) (n : Nat) : (Memory.firstBytes m n).length = n := by
  simp [Memory.firstBytes]

end Sys2Proof.Machine
end

