-- ==== Sys2Proof/Laws/PerInstr.lean ====
section
/-! SUPPORT. Statements about every instruction, one lemma per constructor. The family `TableRow`: the encoder writes words of
the instruction's own row of spec/opcode_table.json (30_encoding.md R92, R100, R112). -/

namespace Sys2Proof.Laws

/-- A row of spec/opcode_table.json: its format, mask and match. -/
inductive Row where
  /-- Format CMD48. -/
  | cmd (mask value : Cmd)
  /-- Format ROLE8. -/
  | role (mask value : Byte)
  /-- Format FRAME40. -/
  | header (mask value : Header)

/-- A word fits a row of its format. -/
def Row.Fits : Row → Encoded → Prop
  | .cmd mask value, .cmd w _ => w &&& mask = value
  | .role mask value, .role c => c &&& mask = value
  | .header mask value, .header h => h &&& mask = value
  | _, _ => False

/-- The row of an instruction. -/
def rowOf : Instr → Row
  | .tplload _ _ => .cmd 0xFF00FFFFFF00#48 0x100000000000#48
  | .tplvalid _ => .cmd 0xFF00FFFFFFFF#48 0x110000000000#48
  | .encfix _ => .cmd 0xFF00FFFFFFFF#48 0x120000000000#48
  | .encaddr _ _ => .cmd 0xFF0000000000#48 0x130000000000#48
  | .encin _ _ => .cmd 0xFF00FFFFFF00#48 0x140000000000#48
  | .decout _ => .cmd 0xFF00FFFFFFFF#48 0x150000000000#48
  | .outidx _ => .cmd 0xFF00FFFFFFFF#48 0x160000000000#48
  | .send _ => .cmd 0xFFFFFFFF0000#48 0x200000000000#48
  | .recv _ => .cmd 0xFFFFFFFF0000#48 0x210000000000#48
  | .ldbuf _ => .cmd 0xFFFF00000000#48 0x300000000000#48
  | .rdbuf => .cmd 0xFFFFFFFFFFFF#48 0x310000000000#48
  | .ldresp _ => .cmd 0xFFFF00000000#48 0x320000000000#48
  | .rdseq => .cmd 0xFFFFFFFFFFFF#48 0x330000000000#48
  | .rderr => .cmd 0xFFFFFFFFFFFF#48 0x340000000000#48
  | .roleF0 => .role 0xFF#8 0x00#8
  | .roleF1 => .role 0xFF#8 0x20#8
  | .roleX => .role 0xFF#8 0x40#8
  | .roleA _ => .role 0xE0#8 0x60#8
  | .roleI _ => .role 0xE0#8 0x80#8
  | .roleO _ => .role 0xE0#8 0xA0#8
  | .frameHeader _ _ _ => .header 0xFF000000FF#40 0x1B0000000E#40

/-- Masking a command word field by field. -/
theorem mkCmd_and (op t mop mt : Byte) (imm mimm : Word) :
    mkCmd op t imm &&& mkCmd mop mt mimm = mkCmd (op &&& mop) (t &&& mt) (imm &&& mimm) := by
  have h1 := BitVec.and_append (x₁ := op) (x₂ := mop) (y₁ := t) (y₂ := mt)
  have h2 := BitVec.and_append (x₁ := op ++ t) (x₂ := mop ++ mt) (y₁ := imm) (y₂ := mimm)
  rw [h1] at h2
  exact h2

/-- Masking a role code field by field. -/
theorem roleCode_and (tag mtag : BitVec 3) (n mn : Index) :
    roleCode tag n &&& roleCode mtag mn = roleCode (tag &&& mtag) (n &&& mn) := BitVec.and_append

/-- Masking a header byte by byte. -/
theorem headerWord_and (a b c d e ma mb mc md me : Byte) :
    headerWord a b c d e &&& headerWord ma mb mc md me =
      headerWord (a &&& ma) (b &&& mb) (c &&& mc) (d &&& md) (e &&& me) := by
  have h1 := BitVec.and_append (x₁ := a) (x₂ := ma) (y₁ := b) (y₂ := mb)
  have h2 := BitVec.and_append (x₁ := a ++ b) (x₂ := ma ++ mb) (y₁ := c) (y₂ := mc)
  rw [h1] at h2
  have h3 := BitVec.and_append (x₁ := a ++ b ++ c) (x₂ := ma ++ mb ++ mc) (y₁ := d) (y₂ := md)
  rw [h2] at h3
  have h4 := BitVec.and_append (x₁ := a ++ b ++ c ++ d) (x₂ := ma ++ mb ++ mc ++ md) (y₁ := e) (y₂ := me)
  rw [h3] at h4
  exact h4

/-- A number of `w` bits has no bit under a mask that has only bits from `w` up. -/
theorem and_high {w : Nat} {x m : Word} (hx : x.toNat < 2 ^ w) (hm : ∀ k, k < w → m.getLsbD k = false) :
    x &&& m = 0#32 := by
  apply BitVec.eq_of_getLsbD_eq
  intro k hk
  rw [BitVec.getLsbD_and]
  by_cases h : k < w
  · rw [hm k h]
    simp
  · have : x.getLsbD k = false := by
      rw [BitVec.getLsbD,
        Nat.testBit_lt_two_pow (Nat.lt_of_lt_of_le hx (Nat.pow_le_pow_right (by omega) (by omega)))]
    rw [this]
    simp

/-- A byte has no bits above 7. -/
theorem byte_and_high (b : Byte) : (b.setWidth 32 : Word) &&& 0xFFFFFF00#32 = 0#32 := by
  refine and_high (w := 8) ?_ (by decide)
  rw [BitVec.toNat_setWidth]
  have := b.isLt
  omega

/-- A 16-bit number has no bits above 15. -/
theorem half_and_high (b : Half) : (b.setWidth 32 : Word) &&& 0xFFFF0000#32 = 0#32 := by
  refine and_high (w := 16) ?_ (by decide)
  rw [BitVec.toNat_setWidth]
  have := b.isLt
  omega

/-- The encoding of the instruction fits its row. -/
def TableRow.Statement (i : Instr) : Prop := (rowOf i).Fits (encode i)

theorem TableRow.tplload (t : Byte) (roles : List Byte) : TableRow.Statement (.tplload t roles) := by
  show mkCmd 0x10#8 t ((BitVec.ofNat 8 roles.length).setWidth 32) &&& mkCmd 0xFF#8 0#8 0xFFFFFF00#32 = mkCmd 0x10#8 0#8 0#32
  rw [mkCmd_and, byte_and_high]
  simp

theorem TableRow.tplvalid (t : Byte) : TableRow.Statement (.tplvalid t) := by
  show mkCmd 0x11#8 t 0#32 &&& mkCmd 0xFF#8 0#8 0xFFFFFFFF#32 = mkCmd 0x11#8 0#8 0#32
  rw [mkCmd_and]
  simp

theorem TableRow.encfix (t : Byte) : TableRow.Statement (.encfix t) := by
  show mkCmd 0x12#8 t 0#32 &&& mkCmd 0xFF#8 0#8 0xFFFFFFFF#32 = mkCmd 0x12#8 0#8 0#32
  rw [mkCmd_and]
  simp

theorem TableRow.encaddr (t : Byte) (address : Word) : TableRow.Statement (.encaddr t address) := by
  show mkCmd 0x13#8 t address &&& mkCmd 0xFF#8 0#8 0#32 = mkCmd 0x13#8 0#8 0#32
  rw [mkCmd_and]
  simp

theorem TableRow.encin (t data : Byte) : TableRow.Statement (.encin t data) := by
  show mkCmd 0x14#8 t (data.setWidth 32) &&& mkCmd 0xFF#8 0#8 0xFFFFFF00#32 = mkCmd 0x14#8 0#8 0#32
  rw [mkCmd_and, byte_and_high]
  simp

theorem TableRow.decout (t : Byte) : TableRow.Statement (.decout t) := by
  show mkCmd 0x15#8 t 0#32 &&& mkCmd 0xFF#8 0#8 0xFFFFFFFF#32 = mkCmd 0x15#8 0#8 0#32
  rw [mkCmd_and]
  simp

theorem TableRow.outidx (t : Byte) : TableRow.Statement (.outidx t) := by
  show mkCmd 0x16#8 t 0#32 &&& mkCmd 0xFF#8 0#8 0xFFFFFFFF#32 = mkCmd 0x16#8 0#8 0#32
  rw [mkCmd_and]
  simp

theorem TableRow.send (payload : List Byte) : TableRow.Statement (.send payload) := by
  show mkCmd 0x20#8 0#8 ((BitVec.ofNat 16 payload.length).setWidth 32) &&& mkCmd 0xFF#8 0xFF#8 0xFFFF0000#32 = mkCmd 0x20#8 0#8 0#32
  rw [mkCmd_and, half_and_high]
  simp

theorem TableRow.recv (maxSize : Half) : TableRow.Statement (.recv maxSize) := by
  show mkCmd 0x21#8 0#8 (maxSize.setWidth 32) &&& mkCmd 0xFF#8 0xFF#8 0xFFFF0000#32 = mkCmd 0x21#8 0#8 0#32
  rw [mkCmd_and, half_and_high]
  simp

theorem TableRow.ldbuf (w : Word) : TableRow.Statement (.ldbuf w) := by
  show mkCmd 0x30#8 0#8 w &&& mkCmd 0xFF#8 0xFF#8 0#32 = mkCmd 0x30#8 0#8 0#32
  rw [mkCmd_and]
  simp

theorem TableRow.ldresp (w : Word) : TableRow.Statement (.ldresp w) := by
  show mkCmd 0x32#8 0#8 w &&& mkCmd 0xFF#8 0xFF#8 0#32 = mkCmd 0x32#8 0#8 0#32
  rw [mkCmd_and]
  simp

theorem TableRow.rdbuf : TableRow.Statement .rdbuf := rfl

theorem TableRow.rdseq : TableRow.Statement .rdseq := rfl

theorem TableRow.rderr : TableRow.Statement .rderr := rfl

theorem TableRow.roleF0 : TableRow.Statement .roleF0 := rfl

theorem TableRow.roleF1 : TableRow.Statement .roleF1 := rfl

theorem TableRow.roleX : TableRow.Statement .roleX := rfl

theorem TableRow.roleA (n : Index) : TableRow.Statement (.roleA n) := by
  show roleCode 3#3 n &&& roleCode 7#3 0#5 = roleCode 3#3 0#5
  rw [roleCode_and]
  simp

theorem TableRow.roleI (n : Index) : TableRow.Statement (.roleI n) := by
  show roleCode 4#3 n &&& roleCode 7#3 0#5 = roleCode 4#3 0#5
  rw [roleCode_and]
  simp

theorem TableRow.roleO (n : Index) : TableRow.Statement (.roleO n) := by
  show roleCode 5#3 n &&& roleCode 7#3 0#5 = roleCode 5#3 0#5
  rw [roleCode_and]
  simp

theorem TableRow.frameHeader (seq lenHi lenLo : Byte) : TableRow.Statement (.frameHeader seq lenHi lenLo) := by
  show headerWord Config.start seq lenHi lenLo Config.token &&& headerWord 0xFF#8 0#8 0#8 0#8 0xFF#8 =
    headerWord 0x1B#8 0#8 0#8 0#8 0x0E#8
  rw [headerWord_and]
  simp [Config.start, Config.token]

end Sys2Proof.Laws
end

