-- ==== Sys2Proof/Laws/Receive.lean ====
section
/-! SUPPORT. What one receive step can do (42_framer_receive.md R186): its cases by the state, and what it never touches. -/

namespace Sys2Proof.Machine

/-- The part of the state no receive step touches: the codec, the parameters, the transmit side, `RXMAX`, `CFGF`, and what
host and line will do. -/
structure ReceiveKeeps (s t : State) : Prop where
  tpl : t.tpl = s.tpl
  tplv : t.tplv = s.tplv
  buf : t.buf = s.buf
  resp : t.resp = s.resp
  rxmax : t.rxmax = s.rxmax
  txsum : t.txsum = s.txsum
  cfgf : t.cfgf = s.cfgf
  txs : t.txs = s.txs
  par : t.par = s.par
  cmds : t.cmds = s.cmds
  blist : t.blist = s.blist
  line : t.line = s.line
  waits : t.waits = s.waits
  resetPin : t.resetPin = s.resetPin
  scan : t.scan = s.scan

theorem ReceiveKeeps.refl (s : State) : ReceiveKeeps s s := by constructor <;> rfl

theorem ReceiveKeeps.trans {s t u : State} (h : ReceiveKeeps s t) (k : ReceiveKeeps t u) : ReceiveKeeps s u := by
  obtain ⟨⟩ := h
  obtain ⟨⟩ := k
  constructor <;> simp_all

/-- What a transport error does (R202): the record, `IDLE`, the status. -/
theorem raise_transport {kind : ErrKind} (h : isTransport kind = true) (info : Half) (s : State) :
    raise kind info s =
      { s with
        err := errCode kind, errinfo := info, rxs := .idle
        result := some { status := errCode kind, value := none, payload := [] } } := by
  have hc : isConfiguration kind = false := by cases kind <;> simp_all [isTransport, isConfiguration]
  simp [raise, h, hc]

/-- Which error a byte can raise, with what information (R190 to R197, R241): `u` is the state with the byte folded into
`RXSUM`, `len` what `RXLEN` holds at the end. -/
def FailureInfo (b : Byte) (u : State) (kind : ErrKind) (info len : Half) : Prop :=
  match kind with
  | .badStart => b ≠ Config.start ∧ info = info8 b
  | .badSeq => b ≠ u.seq ∧ info = u.seq ++ b
  | .badToken => b ≠ Config.token ∧ info = info8 b
  | .tooLong => u.rxmax.toNat < len.toNat ∧ info = len
  | .checksum => u.rxsum ≠ 0#8 ∧ info = info8 u.rxsum
  | _ => False

/-- What one receive step on a byte can do, in a state that waits: a failure of R190 to R197, the next waiting state,
a byte stored, or acceptance. `u` is the state with the byte folded into `RXSUM`. -/
inductive ByteCase (b : Byte) (u : State) : State → Prop where
  /-- A failure (R202); `TooLong` has completed `RXLEN`. -/
  | failed (kind : ErrKind) (info len : Half) (h : isTransport kind = true)
      (hlen : u.rxs ≠ .wLenLo → len = u.rxlen) (hinfo : FailureInfo b u kind info len) : ByteCase b u (raise kind info { u with rxlen := len })
  | start (h : u.rxs = .wStart) (hb : b = Config.start) : ByteCase b u { u with rxs := .wSeq }
  | seq (h : u.rxs = .wSeq) (hb : b = u.seq) : ByteCase b u { u with rxs := .wLenHi }
  | lenHi (h : u.rxs = .wLenHi) : ByteCase b u { u with rxlen := setLenHi u.rxlen b, rxs := .wLenLo }
  | lenLo (h : u.rxs = .wLenLo) (hlen : (setLenLo u.rxlen b).toNat ≤ u.rxmax.toNat) :
      ByteCase b u { u with rxlen := setLenLo u.rxlen b, rxs := .wToken }
  | token (h : u.rxs = .wToken) (hb : b = Config.token) :
      ByteCase b u { u with rxs := if u.rxlen = 0#16 then .wCsum else .wData }
  | data (h : u.rxs = .wData) (hcnt : u.rxcnt.toNat < u.par.maxPayload) :
      ByteCase b u { u with
        rxbuf := Memory.write u.rxbuf u.rxcnt.toNat b
        rxcnt := u.rxcnt + 1#16
        rxs := if u.rxcnt + 1#16 = u.rxlen then .wCsum else .wData }
  | accepted (h : u.rxs = .wCsum) (hsum : u.rxsum = 0#8) (hlen : u.rxlen.toNat ≤ u.par.maxPayload) :
      ByteCase b u (endOk (some (u.rxlen.setWidth 32)) (Memory.firstBytes u.rxbuf u.rxlen.toNat)
        { u with seq := u.seq + 1#8, rxs := .idle })

/-- In a waiting state the byte is folded and the rule of the state applied. -/
theorem recvByte_waiting (b : Byte) (s : State) (h : s.rxs ≠ .idle) :
    recvByte b s = recvRule b { s with rxsum := s.rxsum ^^^ b } := by
  unfold recvByte
  split
  · exact absurd ‹_› h
  · rfl

/-- In `IDLE` a receive step does nothing (R186). -/
theorem recvByte_idle (b : Byte) (s : State) (h : s.rxs = .idle) : recvByte b s = .next s := by
  simp [recvByte, h]

/-- Everything a receive step on a byte can do. -/
theorem recvByte_cases {b : Byte} {s t : State} (hw : s.rxs ≠ .idle) (h : recvByte b s = .next t) :
    ByteCase b { s with rxsum := s.rxsum ^^^ b } t := by
  rw [recvByte_waiting b s hw] at h
  generalize hu : ({ s with rxsum := s.rxsum ^^^ b } : State) = u at h ⊢
  have hwu : u.rxs ≠ .idle := by subst hu; exact hw
  unfold recvRule at h
  split at h
  · exact absurd ‹_› hwu
  · split at h <;> cases h
    · exact .start ‹_› ‹_›
    · exact .failed .badStart (info8 b) u.rxlen rfl (fun _ => rfl) ⟨‹_›, rfl⟩
  · split at h <;> cases h
    · exact .seq ‹_› ‹_›
    · exact .failed .badSeq (u.seq ++ b) u.rxlen rfl (fun _ => rfl) ⟨‹_›, rfl⟩
  · cases h
    exact .lenHi ‹_›
  · split at h <;> cases h
    · exact .lenLo ‹_› ‹_›
    · exact .failed .tooLong _ (setLenLo u.rxlen b) rfl (fun hne => absurd ‹_› hne) ⟨Nat.lt_of_not_le ‹_›, rfl⟩
  · split at h <;> cases h
    · exact .token ‹_› ‹_›
    · exact .failed .badToken (info8 b) u.rxlen rfl (fun _ => rfl) ⟨‹_›, rfl⟩
  · unfold storeData at h
    split at h <;> cases h
    exact .data ‹_› ‹_›
  · split at h
    · unfold accept at h
      split at h <;> cases h
      exact .accepted ‹_› ‹_› ‹_›
    · cases h
      exact .failed .checksum (info8 u.rxsum) u.rxlen rfl (fun _ => rfl) ⟨‹_›, rfl⟩

/-- What a receive step on a byte never touches. -/
theorem recvByte_keeps {b : Byte} {s t : State} (h : recvByte b s = .next t) :
    ReceiveKeeps s t ∧ t.rxq = s.rxq := by
  by_cases hw : s.rxs = .idle
  · rw [recvByte_idle b s hw] at h
    cases h
    exact ⟨.refl _, rfl⟩
  · cases recvByte_cases hw h with
    | failed kind info len hk =>
      rw [raise_transport hk]
      exact ⟨by constructor <;> rfl, rfl⟩
    | start => exact ⟨by constructor <;> rfl, rfl⟩
    | seq => exact ⟨by constructor <;> rfl, rfl⟩
    | lenHi => exact ⟨by constructor <;> rfl, rfl⟩
    | lenLo => exact ⟨by constructor <;> rfl, rfl⟩
    | token => exact ⟨by constructor <;> rfl, rfl⟩
    | data => exact ⟨by constructor <;> rfl, rfl⟩
    | accepted => exact ⟨by constructor <;> rfl, rfl⟩

/-- A timeout in a waiting state (R201). -/
theorem recvStep_timeout {s : State} (h : s.rxs ≠ .idle) :
    recvStep .timeout s = .next (raise .timeout ((rxCode s.rxs).setWidth 16) s) := by
  cases hr : s.rxs with
  | idle => exact absurd hr h
  | _ => simp [recvStep, hr]

/-- A byte that arrives is taken at once by a wait on an empty queue, and queued otherwise. -/
theorem arrive_eq (b : Byte) (s : State) :
    arrive b s = if s.rxs ≠ .idle ∧ s.rxq = [] then recvByte b s else .next { s with rxq := s.rxq ++ [b] } := by
  unfold arrive busy
  by_cases h : s.rxs = .idle <;> by_cases hq : s.rxq = [] <;> simp [h, hq]

/-- What arriving bytes never touch; and they are added to `RXQ` at its tail only. -/
theorem arriveAll_keeps {bs : List Byte} {s t : State} (h : arriveAll bs s = .next t) :
    ReceiveKeeps s t ∧ ∃ queued, t.rxq = s.rxq ++ queued := by
  induction bs generalizing s with
  | nil =>
    cases h
    exact ⟨.refl _, [], by simp⟩
  | cons b bs ih =>
    simp only [arriveAll] at h
    cases ha : arrive b s with
    | next u =>
      rw [ha] at h
      obtain ⟨hk, q, hq⟩ := ih h
      rw [arrive_eq] at ha
      split at ha
      · obtain ⟨hk0, hq0⟩ := recvByte_keeps ha
        exact ⟨hk0.trans hk, q, by rw [hq, hq0]⟩
      · cases ha
        exact ⟨ReceiveKeeps.trans (by constructor <;> rfl) hk, b :: q, by rw [hq]; simp⟩
    | fault r => rw [ha] at h; cases h
    | refused r => rw [ha] at h; cases h

end Sys2Proof.Machine
end

