-- ==== Sys2Proof/Laws/Step.lean ====
section
/-! SUPPORT. What an operation of the host can do (`CommandCase`), and what one step of the machine can do (`StepCase`): the
inversion lemmas that invariants are derived from. -/

namespace Sys2Proof.Machine

/-! ### Operations -/

/-- Everything an operation of the host can do. -/
inductive CommandCase (i : Instr) (s : State) : State → Prop where
  /-- A configuration or usage error (R138, R131, R170). -/
  | raised (kind : ErrKind) (info : Half) (h : isTransport kind = false) : CommandCase i s (raise kind info s)
  /-- RECV has started (R185). -/
  | receiving (m : Half) (hi : i = .recv m) : CommandCase i s (recvStart m s)
  /-- SEND has emitted a frame (R170). -/
  | sent (payload : List Byte) (hi : i = .send payload) (hlen : payload.length ≤ s.par.maxPayload) :
      CommandCase i s (endOk none [] (sendFrame payload s))
  /-- TPLLOAD has loaded a template (R131). -/
  | loaded (t : Byte) (roles : List Byte) (hi : i = .tplload t roles) (hrange : t.toNat < s.par.nTpl)
      (hfree : s.tplv.getLsbD t.toNat = false) (hlen : roles.length = 32)
      (hdef : ∀ c ∈ roles, roleDefined c = true) :
      CommandCase i s (endOk none []
        { s with tpl := Memory.writeAll s.tpl (tplAddr t 0) roles, tplv := setValid s.tplv t })
  /-- Any other operation ends `OK`: at most `BUF` and `RESP` change (R220 to R224, R140 to R160, R137). -/
  | plain (v : Option Word) (w r : Word) : CommandCase i s (endOk v [] { s with buf := w, resp := r })

/-- The codec operations after their check. -/
theorem templateCheck_case {i : Instr} {t : Byte} {s u : State} {op : ScanOp}
    (h : templateCheck t s (.next (codecOp op t s)) = .next u) : CommandCase i s u := by
  rw [templateCheck_eq] at h
  split at h
  · split at h <;> cases h
    · exact .plain (scanValue op (scanFirst 32 op s.resp (roleAt s t) ⟨s.buf, 0#8, none⟩))
        (scanFirst 32 op s.resp (roleAt s t) ⟨s.buf, 0#8, none⟩).word s.resp
    · exact .raised .templateNotValid _ rfl
  · cases h
    exact .raised .templateRange _ rfl

/-- Everything an operation of the host can do. -/
theorem exec_command_cases {i : Instr} {s u : State} (hi : IsCommand i) (h : exec i s = .next u) :
    CommandCase i s u := by
  cases i with
  | tplload t roles =>
    simp only [exec, execTplload, rangeCheck] at h
    split at h
    · split at h
      · cases h
        exact .raised .templateLocked _ rfl
      · split at h
        · cases h
          exact .raised .invalidTemplate _ rfl
        · split at h
          · cases h
            exact .raised .invalidTemplate _ rfl
          · rename_i hr hv hl _ hn
            cases h
            exact .loaded t roles rfl (by simpa [slotInRange] using hr) (by simpa [slotValid] using hv) (by simpa [Config.wordW] using hl)
              ((firstUndefined_eq_none 0 roles).mp hn)
    · cases h
      exact .raised .templateRange _ rfl
  | tplvalid t =>
    simp only [exec, execTplvalid, rangeCheck] at h
    split at h <;> cases h
    · exact .plain _ s.buf s.resp
    · exact .raised .templateRange _ rfl
  | encfix t => exact templateCheck_case h
  | encaddr t a => exact templateCheck_case h
  | encin t d => exact templateCheck_case h
  | decout t => exact templateCheck_case h
  | outidx t => exact templateCheck_case h
  | send payload =>
    simp only [exec, execSend] at h
    split at h <;> cases h
    · exact .sent payload rfl ‹_›
    · exact .raised .payloadTooLong _ rfl
  | recv m =>
    cases h
    exact .receiving m rfl
  | ldbuf w =>
    cases h
    exact .plain none w s.resp
  | rdbuf =>
    cases h
    exact .plain _ s.buf s.resp
  | ldresp w =>
    cases h
    exact .plain none s.buf w
  | rdseq =>
    cases h
    exact .plain _ s.buf s.resp
  | rderr =>
    cases h
    exact .plain _ s.buf s.resp
  | roleF0 => exact hi.elim
  | roleF1 => exact hi.elim
  | roleX => exact hi.elim
  | roleA n => exact hi.elim
  | roleI n => exact hi.elim
  | roleO n => exact hi.elim
  | frameHeader q hi' lo => exact hi.elim

/-- No operation of the host stops. -/
theorem exec_command_next {i : Instr} (hi : IsCommand i) (s : State) : ∃ u, exec i s = .next u := by
  cases i with
  | tplload t roles =>
    simp only [exec, execTplload, rangeCheck]
    repeat' split
    all_goals exact ⟨_, rfl⟩
  | tplvalid t => simp only [exec, execTplvalid, rangeCheck]; split <;> exact ⟨_, rfl⟩
  | encfix t => simp only [exec, execEncfix, templateCheck_eq]; repeat' split
                all_goals exact ⟨_, rfl⟩
  | encaddr t a => simp only [exec, execEncaddr, templateCheck_eq]; repeat' split
                   all_goals exact ⟨_, rfl⟩
  | encin t d => simp only [exec, execEncin, templateCheck_eq]; repeat' split
                 all_goals exact ⟨_, rfl⟩
  | decout t => simp only [exec, execDecout, templateCheck_eq]; repeat' split
                all_goals exact ⟨_, rfl⟩
  | outidx t => simp only [exec, execOutidx, templateCheck_eq]; repeat' split
                all_goals exact ⟨_, rfl⟩
  | send payload => simp only [exec, execSend]; split <;> exact ⟨_, rfl⟩
  | recv m => exact ⟨_, rfl⟩
  | ldbuf w => exact ⟨_, rfl⟩
  | rdbuf => exact ⟨_, rfl⟩
  | ldresp w => exact ⟨_, rfl⟩
  | rdseq => exact ⟨_, rfl⟩
  | rderr => exact ⟨_, rfl⟩
  | roleF0 => exact hi.elim
  | roleF1 => exact hi.elim
  | roleX => exact hi.elim
  | roleA n => exact hi.elim
  | roleI n => exact hi.elim
  | roleO n => exact hi.elim
  | frameHeader q hi' lo => exact hi.elim

/-! ### Decoding, by format -/

theorem whenZero_command {z : Bool} {op : Byte} {i j : Instr} (h : whenZero z op j = .ok i) (hj : IsCommand j) :
    IsCommand i := by
  unfold whenZero at h
  split at h <;> cases h
  exact hj

theorem whenListed_command {z : Bool} {op : Byte} {n : Nat} {bytes : List Byte} {mk : List Byte → Instr} {i : Instr}
    (h : whenListed z op n bytes mk = .ok i) (hj : ∀ l, IsCommand (mk l)) : IsCommand i := by
  unfold whenListed at h
  split at h
  · split at h <;> cases h
    exact hj _
  · cases h

/-- A command word decodes to an operation of the host, if to anything. -/
theorem decodeCmd_command {w : Cmd} {bytes : List Byte} {i : Instr} (h : decode (.cmd w bytes) = .ok i) :
    IsCommand i := by
  simp only [decode, decodeCmd] at h
  split at h
  · rename_i op _
    cases op with
    | tplload => exact whenListed_command h (fun _ => trivial)
    | send => exact whenListed_command h (fun _ => trivial)
    | encaddr => cases h; trivial
    | _ => exact whenZero_command h trivial
  · cases h

/-- Running the role a code stands for is its action at the position of the scan. -/
theorem exec_role {code : Byte} {i : Instr} (h : decode (.role code) = .ok i) (s : State) :
    exec i s = .next (scanStep (fun op k c => roleAct op s.resp k (decodeRole code) c) s) := by
  simp only [decode, decodeRoleWord] at h
  split at h <;> cases h <;> rename_i hr <;> simp only [hr] <;> rfl

/-- An undefined role code stands for no role. -/
theorem decodeRole_of_error {code : Byte} {e : Reject} (h : decode (.role code) = .error e) : decodeRole code = none := by
  simp only [decode, decodeRoleWord] at h
  split at h <;> cases h
  assumption

/-- Running a header is the arrival of its five bytes. -/
theorem exec_header {h : Header} {i : Instr} (hd : decode (.header h) = .ok i) (s : State) :
    exec i s = arriveAll (headerBytes h) s := by
  simp only [decode, decodeHeader] at hd
  split at hd
  · rename_i hm
    cases hd
    simp only [exec, execFrameHeader, frameHeaderBytes, headerBytes, hm.1, hm.2]
  · cases hd

/-! ### The step -/

/-- Everything one step can do. -/
inductive StepCase (s : State) : State → Prop where
  /-- The reset event (R280). -/
  | reset (hp : s.resetPin = true) : StepCase s (resetEvent s)
  /-- One position of a scan (log 7). -/
  | role (sc : Scan) (hp : s.resetPin = false) (hs : s.scan = some sc) :
      StepCase s (scanStep (fun op k c => roleAct op s.resp k (decodeRole (scanCode sc s)) c) s)
  /-- A receive reads the head of `RXQ` (R189). -/
  | read (b : Byte) (rest : List Byte) (t : State) (hp : s.resetPin = false) (hs : s.scan = none)
      (hw : s.rxs ≠ .idle) (hq : s.rxq = b :: rest) (h : recvByte b { s with rxq := rest } = .next t) : StepCase s t
  /-- Bytes arrive (R60, R64), at a wait on an empty queue or at an idle block with no command. -/
  | bytes (bs : List Byte) (e : LineEvent) (rest : List LineEvent) (t : State) (hp : s.resetPin = false)
      (hs : s.scan = none) (hw : s.rxs ≠ .idle → s.rxq = []) (hc : s.rxs = .idle → s.cmds = [])
      (hl : s.line = e :: rest) (hne : bs ≠ []) (h : arriveAll bs { s with line := rest } = .next t)
      (hb : bs = eventBytes e) : StepCase s t
  /-- A silence at a running wait (R201). -/
  | silence (rest : List LineEvent) (hp : s.resetPin = false) (hs : s.scan = none) (hw : s.rxs ≠ .idle)
      (hq : s.rxq = []) (hl : s.line = .silence :: rest) :
      StepCase s (raise .timeout ((rxCode s.rxs).setWidth 16) { s with line := rest })
  /-- A silence while nothing waits. -/
  | still (rest : List LineEvent) (hp : s.resetPin = false) (hs : s.scan = none) (hw : s.rxs = .idle)
      (hc : s.cmds = []) (hl : s.line = .silence :: rest) : StepCase s { s with line := rest }
  /-- A free draw at a running wait (log 3). -/
  | draw (t : State) (hp : s.resetPin = false) (hs : s.scan = none) (hw : s.rxs ≠ .idle) (hq : s.rxq = [])
      (hl : s.line = []) (h : recvStep (Config.lineDraw s.waits) { s with waits := s.waits + 1 } = .next t) :
      StepCase s t
  /-- Nothing to do, or a command whose byte list is not fully there (R282, log 6). -/
  | waits (hp : s.resetPin = false) (hs : s.scan = none) (hw : s.rxs = .idle) : StepCase s s
  /-- An operation of the host. -/
  | command (i : Instr) (w : Cmd) (rest : List Cmd) (t : State) (hp : s.resetPin = false) (hs : s.scan = none)
      (hw : s.rxs = .idle) (hl : s.cmds = w :: rest) (hd : decode (.cmd w s.blist) = .ok i) (hi : IsCommand i)
      (h : exec i (takeCommand w rest s) = .next t) : StepCase s t
  /-- An illegal command (R230). -/
  | illegal (w : Cmd) (rest : List Cmd) (hp : s.resetPin = false) (hs : s.scan = none) (hw : s.rxs = .idle)
      (hl : s.cmds = w :: rest) : StepCase s (illegalCommand w (dropCommand rest s))

theorem busy_iff (s : State) : busy s = true ↔ s.rxs ≠ .idle := by simp [busy]

/-- The reset event goes before everything else (R280). -/
theorem step_reset {s : State} (hp : s.resetPin = true) : step s = .next (resetEvent s) := by simp [step, hp]

/-- In a scan, a step is one position (log 7). -/
theorem step_scanning {s : State} {sc : Scan} (hp : s.resetPin = false) (hs : s.scan = some sc) :
    step s = roleStep sc s := by simp [step, hp, hs]

/-- In a waiting state, a step is one receive step (R189). -/
theorem step_waiting {s : State} (hp : s.resetPin = false) (hs : s.scan = none) (hw : s.rxs ≠ .idle) :
    step s = receiveStep s := by simp [step, hp, hs, (busy_iff s).mpr hw]

/-- In `IDLE`, a step is the host's (R282). -/
theorem step_ready {s : State} (hp : s.resetPin = false) (hs : s.scan = none) (hw : s.rxs = .idle) :
    step s = commandStep s := by
  have hb : busy s = false := by simp [busy, hw]
  simp [step, hp, hs, hb]

/-- The invariant says nothing of the streams, the ports and the free draws. -/
theorem inv_environment {s : State} (h : Inv s) (q : List Byte) (l : List LineEvent) (n : Nat) (c : List Cmd)
    (bl : List Byte) : Inv { s with rxq := q, line := l, waits := n, cmds := c, blist := bl } :=
  ⟨h.params, h.tplForm, h.rxbufForm, h.tplRange, h.rxbufRange, h.templates, h.errCodes, h.errSticky, h.rxmaxRange,
    h.counts, h.sum, h.quiet, h.scanning⟩

/-- A run of one more step. -/
theorem run_succ {n : Nat} {s t : State} (h : step s = .next t) :
    Host.Core.run core (n + 1) s = Host.Core.run core n t := by
  have h' : core.step s = Host.Outcome.next t := h
  simp only [Host.Core.run, h']

/-- A run in two parts. -/
theorem run_add {m n : Nat} {s t : State} (h : Host.Core.run core m s = .next t) :
    Host.Core.run core (m + n) s = Host.Core.run core n t := by
  induction m generalizing s with
  | zero => cases h; rw [Nat.zero_add]
  | succ m ih =>
    rw [show m + 1 + n = (m + n) + 1 by omega]
    cases hs : step s with
    | next u =>
      rw [run_succ hs] at h ⊢
      exact ih h
    | fault r =>
      have h' : core.step s = Host.Outcome.fault r := hs
      simp only [Host.Core.run, h'] at h
      cases h
    | refused r =>
      have h' : core.step s = Host.Outcome.refused r := hs
      simp only [Host.Core.run, h'] at h
      cases h

theorem lineStep_cases {s t : State} (hp : s.resetPin = false) (hs : s.scan = none) (hw : s.rxs ≠ .idle → s.rxq = [])
    (hc : s.rxs = .idle → s.cmds = []) (h : lineStep s = .next t) : StepCase s t := by
  unfold lineStep at h
  split at h
  · rename_i b rest hl
    exact .bytes [b] _ rest t hp hs hw hc hl (by simp) (by simp [arriveAll, h, andThen]) rfl
  · rename_i rest hl
    by_cases hi : s.rxs = .idle
    · have : recvStep .timeout { s with line := rest } = .next { s with line := rest } := by simp only [recvStep, hi]
      rw [this] at h
      cases h
      exact .still rest hp hs hi (hc hi) hl
    · rw [recvStep_timeout (by simpa using hi)] at h
      cases h
      exact .silence rest hp hs hi (hw hi) hl
  · rename_i hd rest hl
    split at h
    · rw [exec_header ‹_›] at h
      exact .bytes (headerBytes hd) _ rest t hp hs hw hc hl (by simp [headerBytes]) h rfl
    · exact .bytes (headerBytes hd) _ rest t hp hs hw hc hl (by simp [headerBytes]) h rfl
  · rename_i hl
    split at h
    · rename_i hb
      have hb := (busy_iff s).mp hb
      exact .draw t hp hs hb (hw hb) hl h
    · rename_i hb
      cases h
      exact .waits hp hs (by simpa [busy] using hb)

/-- Everything one step can do. -/
theorem step_cases {s t : State} (h : step s = .next t) : StepCase s t := by
  unfold step at h
  split at h
  · cases h
    exact .reset ‹_›
  · rename_i hp
    have hp : s.resetPin = false := by simpa using hp
    split at h
    · rename_i sc hs
      unfold roleStep at h
      split at h
      · rw [exec_role ‹_›] at h
        cases h
        exact .role sc hp hs
      · rename_i e he
        cases h
        have := StepCase.role sc hp hs
        rw [decodeRole_of_error he] at this
        exact this
    · rename_i hs
      split at h
      · rename_i hb
        have hw := (busy_iff s).mp hb
        unfold receiveStep at h
        split at h
        · exact .read _ _ t hp hs hw ‹_› h
        · exact lineStep_cases hp hs (fun _ => ‹_›) (fun hi => absurd hi hw) h
      · rename_i hb
        have hw : s.rxs = .idle := by simpa [busy] using hb
        unfold commandStep at h
        split at h
        · exact lineStep_cases hp hs (fun hn => absurd hw hn) (fun _ => ‹_›) h
        · split at h
          · exact .command _ _ _ t hp hs hw ‹_› ‹_› (decodeCmd_command ‹_›) h
          · cases h
            exact .waits hp hs hw
          · cases h
            exact .illegal _ _ hp hs hw ‹_›

end Sys2Proof.Machine
end

