-- ==== Sys2Proof/Tests/Slice0.lean ====
section
/-! SUPPORT. The model's own tests. Expected results are those of spec/95_test_vectors.md, named by vector, or read off the
encoding tables of spec/30_encoding.md; then one witness per statement that has hypotheses. -/

namespace Sys2Proof.Tests

open Sys2Proof.Machine

/-! ### Well-formedness: an ill-formed term for each check -/

theorem test_wf_refuses_256_roles : (Instr.tplload 0#8 (List.replicate 256 0#8)).wf = false := by
  show decide ((List.replicate 256 0#8).length ≤ 255) = false
  rw [List.length_replicate]
  decide

theorem test_wf_refuses_65536_payload : (Instr.send (List.replicate 65536 0#8)).wf = false := by
  show decide ((List.replicate 65536 0#8).length ≤ 65535) = false
  rw [List.length_replicate]
  decide

/-! ### Decoding: one word per constructor, from the encodings of R92, R100, R112 -/

theorem test_decode_tplload : decodeTableWord 48 0x100400000003 = some (.tplload 0x04#8 [0#8, 0#8, 0#8]) := by decide
theorem test_decode_tplvalid : decodeTableWord 48 0x11C800000000 = some (.tplvalid 0xC8#8) := by decide
theorem test_decode_encfix : decodeTableWord 48 0x120400000000 = some (.encfix 0x04#8) := by decide
theorem test_decode_encaddr : decodeTableWord 48 0x130200001234 = some (.encaddr 0x02#8 0x1234#32) := by decide
theorem test_decode_encin : decodeTableWord 48 0x14040000005A = some (.encin 0x04#8 0x5A#8) := by decide
theorem test_decode_decout : decodeTableWord 48 0x150200000000 = some (.decout 0x02#8) := by decide
theorem test_decode_outidx : decodeTableWord 48 0x160200000000 = some (.outidx 0x02#8) := by decide
theorem test_decode_send : decodeTableWord 48 0x200000000002 = some (.send [0#8, 0#8]) := by decide
theorem test_decode_recv : decodeTableWord 48 0x210000000113 = some (.recv 275#16) := by decide
theorem test_decode_ldbuf : decodeTableWord 48 0x3000DEADBEEF = some (.ldbuf 0xDEADBEEF#32) := by decide
theorem test_decode_rdbuf : decodeTableWord 48 0x310000000000 = some .rdbuf := by decide
theorem test_decode_ldresp : decodeTableWord 48 0x3200000000A5 = some (.ldresp 0xA5#32) := by decide
theorem test_decode_rdseq : decodeTableWord 48 0x330000000000 = some .rdseq := by decide
theorem test_decode_rderr : decodeTableWord 48 0x340000000000 = some .rderr := by decide
theorem test_decode_role_f0 : decodeTableWord 8 0b00000000 = some .roleF0 := by decide
theorem test_decode_role_f1 : decodeTableWord 8 0b00100000 = some .roleF1 := by decide
theorem test_decode_role_x : decodeTableWord 8 0b01000000 = some .roleX := by decide
theorem test_decode_role_a : decodeTableWord 8 0b01111111 = some (.roleA 31#5) := by decide
theorem test_decode_role_i : decodeTableWord 8 0b10000111 = some (.roleI 7#5) := by decide
theorem test_decode_role_o : decodeTableWord 8 0b10100001 = some (.roleO 1#5) := by decide
theorem test_decode_header :
    decodeTableWord 40 0x1B0100070E = some (.frameHeader 0x01#8 0x00#8 0x07#8) := by decide

/-- V-ILL-1 to V-ILL-9, and the undefined role codes of R92. -/
theorem test_decode_refuses :
    ∀ w ∈ [0x000000000000, 0x170000000000, 0x350000000000, 0xFFFFFFFFFFFF, 0x14040000015A, 0x310100000000,
      0x200000010001, 0x100400000120, 0x210200000113], decodeTableWord 48 w = none := by decide
theorem test_decode_refuses_role : ∀ c ∈ [0x01, 0x1F, 0x21, 0x41, 0x5F, 0xC0, 0xFF], decodeTableWord 8 c = none := by
  decide
theorem test_decode_refuses_header : decodeTableWord 40 0x1A0100070E = none := by decide

/-- A table word placed at the fetch is what the next step runs. -/
theorem test_fetch_command : step (State.reset.withFetchWord 48 0x3000DEADBEEF) =
    .next { State.reset with buf := 0xDEADBEEF#32, result := okPort none [] } := by rfl
theorem test_fetch_role : step (State.reset.withFetchWord 8 0x20) = exec .roleF1 (State.reset.withFetchWord 8 0x20) := by
  rfl
theorem test_fetch_header : step (State.reset.withFetchWord 40 0x1B0100020E) =
    exec (.frameHeader 1#8 0#8 2#8) State.reset := by rfl

/-! ### Instructions, one step each -/

/-- A byte list. -/
def bytes (l : List Nat) : List Byte := l.map (BitVec.ofNat 8)

/-- The templates of section 2.1 of the vectors, position 0 first. -/
def tPE : List Byte := bytes [0x40, 0x40, 0x40, 0x40, 0x40, 0x40, 0x40, 0x40, 0x40, 0x40, 0x40, 0x40, 0x40, 0x40, 0x40, 0x40,
  0x20, 0x20, 0x00, 0x00, 0x20, 0x00, 0x20, 0x00, 0x00, 0x00, 0x20, 0x20, 0x00, 0x20, 0x00, 0x20]

@[inherit_doc tPE]
def tWE : List Byte := bytes [0x80, 0x81, 0x82, 0x83, 0x84, 0x85, 0x86, 0x87, 0x60, 0x61, 0x62, 0x63, 0x64, 0x65, 0x66, 0x67,
  0x68, 0x69, 0x40, 0x40, 0x40, 0x40, 0x40, 0x40, 0x00, 0x00, 0x00, 0x00, 0x00, 0x00, 0x20, 0x20]

@[inherit_doc tPE]
def tSP : List Byte := bytes [0x40, 0x40, 0x40, 0x40, 0x40, 0x40, 0x40, 0x40, 0x40, 0x40, 0x40, 0x40, 0xA0, 0xA1, 0xA2, 0xA3,
  0xA4, 0xA5, 0xA6, 0xA7, 0x40, 0x40, 0x40, 0x40, 0x40, 0x40, 0x40, 0x40, 0x40, 0x40, 0x40, 0x40]

@[inherit_doc tPE]
def tDG : List Byte := bytes [0x40, 0x40, 0x40, 0x40, 0x40, 0x40, 0x40, 0x40, 0x40, 0x40, 0x40, 0x40, 0x40, 0x40, 0x40, 0x40,
  0x40, 0x40, 0x40, 0x40, 0x40, 0x40, 0x40, 0x40, 0xA0, 0xA7, 0xA7, 0xA8, 0x87, 0x88, 0x70, 0x7F]

/-- The state after reset with one slot loaded. -/
def loaded (t : Byte) (codes : List Byte) : State :=
  { State.reset with tpl := Memory.writeAll [] (32 * t.toNat) codes, tplv := setValid 0#256 t }

/-- What a step leaves, seen through `f`. -/
def after {α : Type} (o : Host.Outcome State Fault Refusal) (f : State → α) : Option α :=
  match o with
  | .next s => some (f s)
  | .fault _ => none
  | .refused _ => none

/-- Error record and flag. -/
def record (s : State) : Byte × Half × Bool := (s.err, s.errinfo, s.cfgf)

/-- V-TPL-3. -/
theorem test_tplload_undefined :
    after (exec (.tplload 4#8 (tWE.set 18 0x41#8)) State.reset) (fun s => (record s, s.tplv)) =
      some ((0x40#8, 0x9241#16, true), 0#256) := by decide
/-- V-TPL-9. -/
theorem test_tplload_locked :
    after (exec (.tplload 4#8 tPE) (loaded 4#8 tWE)) (fun s => (record s, Memory.read s.tpl 128)) =
      some ((0x42#8, 0x0004#16, true), 0x80#8) := by decide
/-- V-TPL-8. -/
theorem test_tplvalid : after (exec (.tplvalid 4#8) (loaded 4#8 tWE)) State.result = some (okPort (some 1#32) []) := by decide
/-- V-TPL-11. -/
theorem test_tplvalid_range :
    after (exec (.tplvalid 200#8) State.reset) (fun s => (record s, s.result)) =
      some ((0x41#8, 0x00C8#16, true), errPort 0x41#8) := by decide
/-- V-FIX-3. -/
theorem test_encfix : after (exec (.encfix 0#8) { loaded 0#8 tPE with buf := 0x12345678#32 }) State.buf =
    some 0xAC535678#32 := by decide
/-- V-FIX-16. -/
theorem test_encfix_invalid :
    after (exec (.encfix 9#8) { State.reset with buf := 0x12345678#32 }) (fun s => (record s, s.buf)) =
      some ((0x43#8, 0x0009#16, true), 0x12345678#32) := by decide
/-- V-ADR-10. -/
theorem test_encaddr : after (exec (.encaddr 7#8 0x00010000#32) { loaded 7#8 tDG with buf := 0xFFFFFFFF#32 }) State.buf =
    some 0x7FFFFFFF#32 := by decide
/-- V-ADR-11. -/
theorem test_encaddr_drops : after (exec (.encaddr 4#8 0x7FF#32) { loaded 4#8 tWE with buf := 0xC0000000#32 }) State.buf =
    some 0xC003FF00#32 := by decide
/-- V-IN-6. -/
theorem test_encin : after (exec (.encin 4#8 0x5A#8) { loaded 4#8 tWE with buf := 0xC0015500#32 }) State.buf =
    some 0xC001555A#32 := by decide
/-- V-IN-8. -/
theorem test_encin_index_above_7 : after (exec (.encin 7#8 0xFF#8) { loaded 7#8 tDG with buf := 0xFFFFFFFF#32 }) State.buf =
    some 0xDFFFFFFF#32 := by decide
/-- V-OUT-10. -/
theorem test_decout : after (exec (.decout 6#8) { loaded 6#8 tSP with resp := 0x00012300#32 }) State.result =
    some (okPort (some 0x12#32) []) := by decide
/-- V-OUT-18. -/
theorem test_decout_ors : after (exec (.decout 7#8) { loaded 7#8 tDG with resp := 0x0F000000#32 }) State.result =
    some (okPort (some 0x81#32) []) := by decide
/-- V-IDX-7. -/
theorem test_outidx : after (exec (.outidx 6#8) (loaded 6#8 tSP)) State.result = some (okPort (some 2#32) []) := by decide
/-- V-IDX-1. -/
theorem test_outidx_none : after (exec (.outidx 0#8) (loaded 0#8 tPE)) State.result = some (okPort (some 0xFF#32) []) := by
  decide
/-- V-TX-7. -/
theorem test_send : after (exec (.send (bytes [0xAA, 0x55])) { State.reset with seq := 7#8 }) (fun s => (s.txs, s.seq)) =
    some (bytes [0x1B, 0x07, 0x00, 0x02, 0x0E, 0xAA, 0x55, 0xEF], 7#8) := by decide
/-- V-TX-11. -/
theorem test_send_too_long :
    after (exec (.send (bytes [1, 2, 3, 4, 5]))
        { State.reset with par := { Config.defaults with maxPayload := 4 } }) (fun s => (record s, s.txs)) =
      some ((0x51#8, 0x0005#16, false), []) := by decide
/-- V-RX-30: `RXMAX` is clamped. -/
theorem test_recv :
    after (exec (.recv 65535#16) { State.reset with par := { Config.defaults with maxPayload := 2 } })
      (fun s => (s.rxs, s.rxmax)) = some (.wStart, 2#16) := by decide
/-- V-HA-2. -/
theorem test_ldbuf : after (exec (.ldbuf 0xDEADBEEF#32) State.reset) (fun s => (wordByte s.buf 0, wordByte s.buf 3)) =
    some (0xDE#8, 0xEF#8) := by decide
/-- V-HA-3. -/
theorem test_rdbuf : after (exec .rdbuf { State.reset with buf := 0xDEADBEEF#32 }) State.result =
    some (okPort (some 0xDEADBEEF#32) []) := by decide
/-- V-HA-4. -/
theorem test_ldresp : after (exec (.ldresp 0xA5#32) State.reset) (fun s => wordByte s.resp 3) = some 0xA5#8 := by decide
/-- V-HA-5. -/
theorem test_rdseq : after (exec .rdseq State.reset) State.result = some (okPort (some 1#32) []) := by decide
/-- V-HA-8. -/
theorem test_rderr : after (exec .rderr { State.reset with cfgf := true, err := 0x43#8, errinfo := 9#16 }) State.result =
    some (okPort (some 0x1430009#32) []) := by decide

/-- A scan at a position. -/
def scanning (op : ScanOp) (pos : Nat) (s : State) : State :=
  { s with scan := some { op := op, slot := 4#8, pos := pos, out := 0x01#8, first := none } }

/-- R91: `F0` under ENCFIX clears its position. -/
theorem test_role_f0 : after (exec .roleF0 (scanning .encfix 18 { State.reset with buf := 0xFFFFFFFF#32 })) State.buf =
    some 0xFFFBFFFF#32 := by decide
/-- R91: `F1` under ENCFIX sets its position. -/
theorem test_role_f1 : after (exec .roleF1 (scanning .encfix 31 State.reset)) (fun s => (s.buf, s.scan)) =
    some (0x80000000#32, none) := by decide
/-- R91: `X` is left by ENCFIX. -/
theorem test_role_x : after (exec .roleX (scanning .encfix 3 { State.reset with buf := 0x8#32 }))
    (fun s => (s.buf, s.scan.map Scan.pos)) = some (0x8#32, some 4) := by decide
/-- R145: `A(31)` under ENCADDR carries address bit 31. -/
theorem test_role_a : after (exec (.roleA 31#5) (scanning (.encaddr 0x80000000#32) 5 State.reset)) State.buf =
    some 0x20#32 := by decide
/-- R93: `I(8)` under ENCIN writes 0. -/
theorem test_role_i : after (exec (.roleI 8#5) (scanning (.encin 0xFF#8) 29 { State.reset with buf := 0xFFFFFFFF#32 })) State.buf =
    some 0xDFFFFFFF#32 := by decide
/-- R155: `O(7)` under DECOUT ORs into bit 7. -/
theorem test_role_o : after (exec (.roleO 7#5) (scanning .decout 26 { State.reset with resp := 0x04000000#32 }))
    (fun s => s.scan.map Scan.out) = some (some 0x81#8) := by decide
/-- The trace of V-RX-1, first five bytes. -/
theorem test_header :
    after (exec (.frameHeader 1#8 0#8 2#8) { State.reset with rxs := .wStart, rxmax := 275#16 })
      (fun s => (s.rxs, s.rxlen, s.rxsum)) = some (.wData, 2#16, 0x16#8) := by decide


/-! ### Witnesses: states and operands that meet the hypotheses of the statements, one theorem per statement, one conjunct
per clause -/

/-- A waiting state with `len` payload bytes announced and `cnt` of them stored. -/
def waiting (st : RxState) (len cnt : Half) (sum : Byte) (rxq : List Byte) : State :=
  { State.reset with rxs := st, rxlen := len, rxcnt := cnt, rxsum := sum, rxmax := 275#16, rxq := rxq }

/-- A command at the port of an idle block. -/
def commanded (w : Cmd) (list : List Byte) : State := { State.reset with cmds := [w], blist := list }

/-- The state after reset with the frame of an empty payload queued (V-TX-2). -/
def framed : State := { State.reset with rxq := bytes [0x1B, 0x01, 0x00, 0x00, 0x0E, 0x14] }

/-- What `RECV 275` starts in that state. -/
def receiving : State := recvStart 275#16 framed

/-- The control state a run reaches. -/
def control (o : Host.Outcome State Fault Refusal) : Option RxState := after o State.rxs

theorem inv_reset : Inv State.reset where
  params := by decide
  tplForm := rfl
  rxbufForm := rfl
  tplRange := by simp [State.reset]
  rxbufRange := by simp [State.reset]
  templates := by simp [State.reset]
  errCodes := .inl rfl
  errSticky := by decide
  rxmaxRange := by simp [State.reset]
  counts := trivial
  sum := by simp [State.reset]
  quiet := by simp [State.reset]
  scanning := by simp [State.reset]

theorem inv_framed : Inv framed := inv_environment inv_reset _ [] 0 [] []

/-- Two payload bytes announced, none stored yet. -/
theorem inv_data : Inv (waiting .wData 2#16 0#16 0x16#8 [0x01#8]) where
  params := by decide
  tplForm := rfl
  rxbufForm := rfl
  tplRange := by simp [State.reset, waiting]
  rxbufRange := by simp [State.reset, waiting]
  templates := by simp [State.reset, waiting]
  errCodes := .inl rfl
  errSticky := by decide
  rxmaxRange := fun _ => by decide
  counts := ⟨by decide, by decide⟩
  sum := fun _ => by decide
  quiet := fun _ => rfl
  scanning := by simp [State.reset, waiting]

/-- One payload byte announced, none stored yet. -/
theorem inv_last : Inv (waiting .wData 1#16 0#16 0x15#8 [0x01#8]) where
  params := by decide
  tplForm := rfl
  rxbufForm := rfl
  tplRange := by simp [State.reset, waiting]
  rxbufRange := by simp [State.reset, waiting]
  templates := by simp [State.reset, waiting]
  errCodes := .inl rfl
  errSticky := by decide
  rxmaxRange := fun _ => by decide
  counts := ⟨by decide, by decide⟩
  sum := fun _ => by decide
  quiet := fun _ => rfl
  scanning := by simp [State.reset, waiting]

/-- The frame of an empty payload read up to its checksum. -/
theorem inv_csum (b : Byte) : Inv (waiting .wCsum 0#16 0#16 0x14#8 [b]) where
  params := rfl
  tplForm := rfl
  rxbufForm := rfl
  tplRange := by simp [State.reset, waiting]
  rxbufRange := by simp [State.reset, waiting]
  templates := by simp [State.reset, waiting]
  errCodes := .inl rfl
  errSticky := by simp [State.reset, waiting]
  rxmaxRange := fun _ => by simp [State.reset, waiting, Config.defaults]
  counts := ⟨rfl, by simp [State.reset, waiting]⟩
  sum := fun _ => by
    show (0x14#8 : Byte) = xorAll [0x1B#8, 0x01#8, lenHi 0#16, lenLo 0#16, 0x0E#8]
    decide
  quiet := fun _ => rfl
  scanning := by simp [State.reset, waiting]

theorem witness_DecodeOfEncode :
    (Instr.tplload 0xFF#8 (List.replicate 255 0xFF#8)).wf = true ∧ (Instr.send []).wf = true ∧
      (Instr.roleO 31#5).wf = true := by
  refine ⟨?_, rfl, rfl⟩
  show decide ((List.replicate 255 0xFF#8).length ≤ 255) = true
  rw [List.length_replicate]
  decide

theorem witness_EncodeOfDecode :
    decode (.cmd 0x200000000001#48 [0xFF#8]) = .ok (.send [0xFF#8]) ∧ [0xFF#8].length = listLen 0x200000000001#48 ∧
      decode (.role 0xBF#8) = .ok (.roleO 31#5) ∧
      decode (.header 0x1BFFFFFF0E#40) = .ok (.frameHeader 0xFF#8 0xFF#8 0xFF#8) :=
  ⟨rfl, rfl, rfl, rfl⟩

theorem witness_LegalCommandsDecode : listLen 0x1004000000FF#48 ≤ (List.replicate 255 0#8).length ∧
    listLen 0x100400000120#48 ≤ (List.replicate 32 0#8).length := by
  rw [List.length_replicate, List.length_replicate]
  decide

theorem witness_IllegalCommandRaises : Ready (commanded 0x350000000000#48 []) ∧
    (commanded 0x350000000000#48 []).cmds = 0x350000000000#48 :: [] ∧ ¬ LegalCommand 0x350000000000#48 :=
  ⟨⟨rfl, rfl, rfl⟩, rfl, by unfold LegalCommand; decide⟩

theorem witness_WordIsBigEndian : (31 : Nat) < 32 := by decide

theorem witness_StepRunsDecodedInstruction :
    (Ready (commanded 0x340000000000#48 []) ∧
      decode (.cmd 0x340000000000#48 (commanded 0x340000000000#48 []).blist) = .ok .rderr) ∧
    ((scanning .encfix 0 (loaded 4#8 tWE)).scan = some { op := .encfix, slot := 4#8, pos := 0, out := 0x01#8, first := none } ∧
      decode (.role (Memory.read (scanning .encfix 0 (loaded 4#8 tWE)).tpl (32 * 4 + 0))) = .ok (.roleI 0#5)) ∧
    (({ State.reset with line := [.header 0x1B0100020E#40] } : State).rxs = .idle ∧ State.reset.cmds = [] ∧
      (waiting .wStart 0#16 0#16 0#8 []).rxs ≠ .idle ∧ (waiting .wStart 0#16 0#16 0#8 []).rxq = [] ∧
      decode (.header 0x1B0100020E#40) = .ok (.frameHeader 1#8 0#8 2#8)) :=
  ⟨⟨⟨rfl, rfl, rfl⟩, rfl⟩, ⟨rfl, by rfl⟩, rfl, rfl, by decide, rfl, rfl⟩

theorem witness_IdleBlockWaits :
    (Ready State.reset ∧ State.reset.cmds = [] ∧ State.reset.line = []) ∧
    (Ready (commanded 0x200000000002#48 [0#8]) ∧ LegalCommand 0x200000000002#48 ∧
      (commanded 0x200000000002#48 [0#8]).blist.length < listLen 0x200000000002#48) :=
  ⟨⟨⟨rfl, rfl, rfl⟩, rfl, rfl⟩, ⟨rfl, rfl, rfl⟩, by unfold LegalCommand; decide, by decide⟩

theorem witness_ResetEventValues : ({ State.reset with resetPin := true, rxs := .wData } : State).resetPin = true := rfl

theorem witness_TplloadStoresTemplate :
    Memory.wf State.reset.tpl = true ∧ (63#8).toNat < State.reset.par.nTpl ∧ State.reset.tplv.getLsbD (63#8).toNat = false ∧
      tDG.length = 32 ∧ ∀ c ∈ tDG, roleDefined c = true := by decide

theorem witness_TplloadRefusals :
    State.reset.par.nTpl ≤ (64#8).toNat ∧
    ((4#8).toNat < (loaded 4#8 tWE).par.nTpl ∧ (loaded 4#8 tWE).tplv.getLsbD (4#8).toNat = true) ∧
    ((63#8).toNat < State.reset.par.nTpl ∧ State.reset.tplv.getLsbD (63#8).toNat = false ∧ (tPE.take 31).length ≠ 32 ∧
      (tPE ++ [0x40#8]).length ≠ 32) ∧
    ((tPE.set 31 0x1F#8)[31]? = some 0x1F#8 ∧ roleDefined 0x1F#8 = false ∧ (tPE.set 31 0x1F#8).length = 32 ∧
      (∀ j, j < 31 → roleDefined ((tPE.set 31 0x1F#8).getD j 0#8) = true)) := by decide

theorem witness_TplvalidReturnsValidity :
    (63#8).toNat < State.reset.par.nTpl ∧ State.reset.par.nTpl ≤ (64#8).toNat := by decide

theorem witness_TemplateCheckRefuses :
    Instr.decout 64#8 ∈ [Instr.encfix 64#8, .encaddr 64#8 0#32, .encin 64#8 0#8, .decout 64#8, .outidx 64#8] ∧
    State.reset.par.nTpl ≤ (64#8).toNat ∧
    ((63#8).toNat < State.reset.par.nTpl ∧ State.reset.tplv.getLsbD (63#8).toNat = false) := by decide

/-- The premise of ENCFIX, ENCADDR, ENCIN, DECOUT, OUTIDX, BUILD and of their laws, at slot 63, the last one. -/
theorem usable_last : Usable (loaded 63#8 tDG) 63#8 := ⟨by decide, by decide⟩

theorem witness_EncfixWritesFixedPositions : Usable (loaded 63#8 tDG) 63#8 := usable_last
theorem witness_EncaddrWritesAddressPositions : Usable (loaded 63#8 tDG) 63#8 := usable_last
theorem witness_EncinWritesInputPositions : Usable (loaded 63#8 tDG) 63#8 := usable_last
theorem witness_DecoutGathersOutputBits : Usable (loaded 63#8 tDG) 63#8 := usable_last
theorem witness_EncodersCommuteAndReplace : Usable (loaded 63#8 tDG) 63#8 := usable_last

theorem witness_OutidxNamesLowestOutputByte :
    (Usable (loaded 0#8 tPE) 0#8 ∧ ∀ k, k < 32 → ∀ n, decodeRole (Memory.read (loaded 0#8 tPE).tpl (32 * 0 + k)) ≠ some (.o n)) ∧
    (Usable (loaded 6#8 tSP) 6#8 ∧ decodeRole (Memory.read (loaded 6#8 tSP).tpl (32 * 6 + 12)) = some (.o 0#5) ∧
      ∀ j, j < 12 → ∀ n, decodeRole (Memory.read (loaded 6#8 tSP).tpl (32 * 6 + j)) ≠ some (.o n)) := by
  have h1 : ∀ k, k < 32 → decodeRole (Memory.read (loaded 0#8 tPE).tpl (32 * 0 + k)) ∈
      [some Role.f0, some Role.f1, some Role.x] := by decide
  have h2 : ∀ k, k < 12 → decodeRole (Memory.read (loaded 6#8 tSP).tpl (32 * 6 + k)) ∈
      [some Role.f0, some Role.f1, some Role.x] := by decide
  refine ⟨⟨⟨by decide, by decide⟩, fun k hk n h => ?_⟩, ⟨by decide, by decide⟩, by decide, fun k hk n h => ?_⟩
  · have := h1 k hk
    rw [h] at this
    simp at this
  · have := h2 k hk
    rw [h] at this
    simp at this

theorem witness_BuildAssemblesWord :
    Usable (loaded 63#8 tDG) 63#8 ∧ State.reset.par.nTpl ≤ (64#8).toNat ∧
      ((9#8).toNat < State.reset.par.nTpl ∧ State.reset.tplv.getLsbD (9#8).toNat = false) :=
  ⟨usable_last, by decide, by decide, by decide⟩

/-- The response of `T_SP` with `0x12` in its output positions (V-OUT-10), all eight outputs present. -/
theorem witness_DecoutRecoversPlacedByte :
    Usable ({ loaded 6#8 tSP with resp := 0x00012300#32 }) 6#8 ∧
    (∀ (k : Nat) (n : Index), k < 32 → n.toNat ≤ 7 →
      decodeRole (Memory.read (loaded 6#8 tSP).tpl (32 * 6 + k)) = some (.o n) →
      (0x00012300#32).getLsbD k = (0x12#8).getLsbD n.toNat) ∧
    ∀ n, n < 8 → ∃ k, k < 32 ∧ decodeRole (Memory.read (loaded 6#8 tSP).tpl (32 * 6 + k)) = some (.o (BitVec.ofNat 5 n)) := by
  have h : ∀ k, k < 32 → decodeRole (Memory.read (loaded 6#8 tSP).tpl (32 * 6 + k)) =
      if 12 ≤ k ∧ k < 20 then some (.o (BitVec.ofNat 5 (k - 12))) else some .x := by decide
  have hb : ∀ j, j < 8 → (0x00012300#32).getLsbD (12 + j) = (0x12#8).getLsbD j := by decide
  refine ⟨⟨by decide, by decide⟩, fun k n hk hn hr => ?_, fun n hn => ⟨12 + n, by omega, ?_⟩⟩
  · rw [h k hk] at hr
    split at hr
    · rename_i hk2
      cases hr
      have := hb (k - 12) (by omega)
      rw [show 12 + (k - 12) = k by omega] at this
      rw [this]
      congr 1
      simp
      omega
    · cases hr
  · rw [h _ (by omega), if_pos (by omega), show 12 + n - 12 = n by omega]

theorem witness_RoleActsAtItsPosition :
    (scanning .decout 30 State.reset).scan = some { op := .decout, slot := 4#8, pos := 30, out := 0x01#8, first := none } ∧
      30 < 31 := ⟨rfl, by decide⟩

theorem witness_LastRoleEndsOperation : ∀ op, (scanning op 31 State.reset).scan =
    some { op := op, slot := 4#8, pos := 31, out := 0x01#8, first := none } := fun _ => rfl

theorem witness_RoleOutsideScanDoesNothing : State.reset.scan = none := rfl

theorem witness_RoleStepsRefineCodecOperations :
    Usable (loaded 63#8 tDG) 63#8 ∧ (loaded 63#8 tDG).resetPin = false ∧ (loaded 63#8 tDG).scan = none :=
  ⟨usable_last, rfl, rfl⟩

theorem witness_SendEmitsFrame : (List.replicate 65535 0#8).length ≤ State.reset.par.maxPayload ∧
    (List.replicate 65535 0#8).length ≤ 65535 := by
  rw [List.length_replicate]
  decide

theorem witness_SentChecksumResolvesToZero : [0x01#8].length ≤ State.reset.par.maxPayload ∧
    exec (.send [0x01#8]) State.reset = .next (endOk none [] (sendFrame [0x01#8] State.reset)) := ⟨by decide, rfl⟩

theorem witness_SendRefusesLongPayload :
    ({ Config.defaults with maxPayload := 4 } : Config.Params).maxPayload < [1#8, 2#8, 3#8, 4#8, 5#8].length := by decide

/-- The bytes a waiting test state has queued. -/
theorem waiting_rxq (st : RxState) (len cnt : Half) (sum : Byte) (rxq : List Byte) :
    (waiting st len cnt sum rxq).rxq = rxq := rfl

theorem waiting_waits (st : RxState) (len cnt : Half) (sum : Byte) (rxq : List Byte) (h : st ≠ .idle) :
    Waiting (waiting st len cnt sum rxq) st := ⟨rfl, rfl, rfl, h⟩

theorem witness_StartByteMatched :
    Waiting (waiting .wStart 0#16 0#16 0#8 [0x1B#8]) .wStart ∧
      (waiting .wStart 0#16 0#16 0#8 [0x1B#8]).rxq = 0x1B#8 :: [] ∧
      Waiting (waiting .wStart 0#16 0#16 0#8 [0x1A#8]) .wStart ∧
      (waiting .wStart 0#16 0#16 0#8 [0x1A#8]).rxq = 0x1A#8 :: [] ∧ (0x1A#8 : Byte) ≠ 0x1B#8 :=
  ⟨waiting_waits _ _ _ _ _ (by decide), rfl, waiting_waits _ _ _ _ _ (by decide), rfl, by decide⟩

theorem witness_SequenceByteMatched :
    Waiting (waiting .wSeq 0#16 0#16 0x1B#8 [0x01#8]) .wSeq ∧
      (waiting .wSeq 0#16 0#16 0x1B#8 [0x01#8]).rxq = 0x01#8 :: [] ∧
      0x01#8 = (waiting .wSeq 0#16 0#16 0x1B#8 [0x01#8]).seq ∧
      (waiting .wSeq 0#16 0#16 0x1B#8 [0x02#8]).rxq = 0x02#8 :: [] ∧
      0x02#8 ≠ (waiting .wSeq 0#16 0#16 0x1B#8 [0x02#8]).seq :=
  ⟨waiting_waits _ _ _ _ _ (by decide), rfl, rfl, rfl, by decide⟩

theorem witness_LengthHighTaken : Waiting (waiting .wLenHi 0#16 0#16 0x1A#8 [0xFF#8]) .wLenHi ∧
    (waiting .wLenHi 0#16 0#16 0x1A#8 [0xFF#8]).rxq = 0xFF#8 :: [] := ⟨⟨rfl, rfl, rfl, by decide⟩, rfl⟩

/-- `RXMAX` is 275 = 0x0113: the length 0x0113 is taken, 0x0114 is not. -/
theorem witness_LengthLowChecked : Waiting (waiting .wLenLo 0x0100#16 0#16 0x1A#8 [0x13#8]) .wLenLo ∧
    (waiting .wLenLo 0x0100#16 0#16 0x1A#8 [0x13#8]).rxq = 0x13#8 :: [] ∧
    256 * ((0x0100#16).toNat / 256) + (0x13#8).toNat ≤ (waiting .wLenLo 0x0100#16 0#16 0x1A#8 [0x13#8]).rxmax.toNat ∧
    (waiting .wLenLo 0x0100#16 0#16 0x1A#8 [0x14#8]).rxmax.toNat < 256 * ((0x0100#16).toNat / 256) + (0x14#8).toNat :=
  ⟨waiting_waits _ _ _ _ _ (by decide), rfl, by decide, by decide⟩

theorem witness_TokenByteMatched : Waiting (waiting .wToken 1#16 0#16 0x19#8 [0x0E#8]) .wToken ∧
    (waiting .wToken 1#16 0#16 0x19#8 [0x0E#8]).rxq = 0x0E#8 :: [] ∧ (0x0F#8 : Byte) ≠ 0x0E#8 ∧
    0 < (waiting .wToken 1#16 0#16 0x19#8 [0x0E#8]).rxlen.toNat ∧
    (waiting .wToken 0#16 0#16 0x1A#8 [0x0E#8]).rxlen.toNat = 0 :=
  ⟨waiting_waits _ _ _ _ _ (by decide), rfl, by decide, by decide, by decide⟩

/-- The first of two bytes; the second would be the last. -/
theorem witness_DataByteStored : Inv (waiting .wData 2#16 0#16 0x16#8 [0x01#8]) ∧
    Waiting (waiting .wData 2#16 0#16 0x16#8 [0x01#8]) .wData ∧
    (waiting .wData 2#16 0#16 0x16#8 [0x01#8]).rxq = 0x01#8 :: [] ∧ (1#16 : Half) ≠ 2#16 ∧
    Inv (waiting .wData 1#16 0#16 0x15#8 [0x01#8]) ∧ (1#16 : Half) = (waiting .wData 1#16 0#16 0x15#8 [0x01#8]).rxlen :=
  ⟨inv_data, waiting_waits _ _ _ _ _ (by decide), rfl, by decide, inv_last, rfl⟩

theorem witness_ChecksumDecides :
    (Inv (waiting .wCsum 0#16 0#16 0x14#8 [0x14#8]) ∧ Waiting (waiting .wCsum 0#16 0#16 0x14#8 [0x14#8]) .wCsum ∧
      (waiting .wCsum 0#16 0#16 0x14#8 [0x14#8]).rxq = 0x14#8 :: [] ∧ (0x14#8 ^^^ 0x14#8 : Byte) = 0#8) ∧
    (Inv (waiting .wCsum 0#16 0#16 0x14#8 [0x16#8]) ∧ (waiting .wCsum 0#16 0#16 0x14#8 [0x16#8]).rxq = 0x16#8 :: [] ∧
      (0x14#8 ^^^ 0x16#8 : Byte) ≠ 0#8) :=
  ⟨⟨inv_csum _, waiting_waits _ _ _ _ _ (by decide), rfl, by decide⟩, inv_csum _, rfl, by decide⟩

theorem witness_SilenceTimesOut : ∀ st, st ≠ .idle →
    Waiting { waiting st 0#16 0#16 0#8 [] with line := [.silence] } st ∧ (waiting st 0#16 0#16 0#8 []).rxq = [] :=
  fun _ h => ⟨⟨rfl, rfl, rfl, h⟩, rfl⟩

theorem witness_LineOutcomes :
    (Waiting { waiting .wData 2#16 0#16 0x16#8 [] with line := [.byte 0xFF#8] } .wData ∧
      Waiting (waiting .wData 2#16 0#16 0x16#8 []) .wData ∧ (waiting .wData 2#16 0#16 0x16#8 []).rxq = [] ∧
      (waiting .wData 2#16 0#16 0x16#8 []).line = []) ∧
    Ready { State.reset with line := [.byte 0xFF#8] } ∧ Ready { State.reset with line := [.silence] } ∧
    State.reset.cmds = [] :=
  ⟨⟨⟨rfl, rfl, rfl, by decide⟩, ⟨rfl, rfl, rfl, by decide⟩, rfl, rfl⟩, ⟨rfl, rfl, rfl⟩, ⟨rfl, rfl, rfl⟩, rfl⟩

/-- Sequence number 1, `RXMAX` 275: the lengths 0 and 275 are taken, 276 is not. -/
theorem witness_HeaderReceived :
    ((waiting .wStart 0#16 0#16 0#8 []).rxs = .wStart ∧ (waiting .wStart 0#16 0#16 0#8 []).rxq = [] ∧
      0x01#8 = (waiting .wStart 0#16 0#16 0#8 []).seq ∧ 0x02#8 ≠ (waiting .wStart 0#16 0#16 0#8 []).seq) ∧
    256 * (0x01#8).toNat + (0x13#8).toNat ≤ (waiting .wStart 0#16 0#16 0#8 []).rxmax.toNat ∧
    (waiting .wStart 0#16 0#16 0#8 []).rxmax.toNat < 256 * (0x01#8).toNat + (0x14#8).toNat ∧
    State.reset.rxs = .idle ∧ (waiting .wStart 0#16 0#16 0#8 [0x00#8]).rxq ≠ [] := by decide

/-- A header at an idle block. -/
def headed : State := { State.reset with line := [.header (headerWord 0x1B#8 1#8 0#8 2#8 0x0E#8)] }

theorem witness_HeaderIsFiveBytes : headed.resetPin = false ∧ headed.scan = none ∧ headed.cmds = [] ∧
    (headed.rxs ≠ .idle → headed.rxq = []) ∧
    step headed = .next { State.reset with rxq := bytes [0x1B, 0x01, 0x00, 0x02, 0x0E] } :=
  ⟨rfl, rfl, rfl, fun _ => rfl, rfl⟩

theorem witness_WellFormedFrameAccepted : Inv framed ∧ Ready framed ∧ framed.rxq = frame framed.seq [] ++ [] ∧
    ([] : List Byte).length ≤ (275#16).toNat ∧ exec (.recv 275#16) framed = .next receiving :=
  ⟨inv_framed, ⟨rfl, rfl, rfl⟩, by decide, by decide, rfl⟩

theorem witness_AlteredByteRejected :
    let s : State := { State.reset with rxq := (frame 1#8 [0x01#8]).set 5 0x81#8 ++ [] }
    Ready s ∧ (5 : Nat) < 6 + [0x01#8].length ∧ (6 : Nat) < 6 + [0x01#8].length ∧ 0x81#8 ≠ (frame s.seq [0x01#8]).getD 5 0#8 ∧
      s.rxq = (frame s.seq [0x01#8]).set 5 0x81#8 ++ [] ∧ exec (.recv 275#16) s = .next (recvStart 275#16 s) :=
  ⟨⟨rfl, rfl, rfl⟩, by decide, by decide, by decide, rfl, rfl⟩

theorem witness_AcceptedBytesWereFrame : Inv framed ∧ Ready framed ∧
    exec (.recv 275#16) framed = .next receiving ∧ control (Host.Core.run core 6 receiving) = some .idle ∧
    after (Host.Core.run core 6 receiving) State.result = some (okPort (some 0#32) []) ∧
    ∀ j, j < 6 → control (Host.Core.run core j receiving) ≠ some .idle := by
  refine ⟨inv_framed, ⟨rfl, rfl, rfl⟩, rfl, by rfl, by rfl, ?_⟩
  decide

/-- The state after reset, the same frame coming on the line as a header and a byte. -/
def lineFramed : State :=
  { State.reset with line := [.header (headerWord 0x1B#8 1#8 0#8 0#8 0x0E#8), .byte 0x14#8, .silence] }

theorem witness_AcceptedBytesWereFrame_line : Inv lineFramed ∧ Ready lineFramed ∧
    control (Host.Core.run core 2 (recvStart 275#16 lineFramed)) = some .idle ∧
    after (Host.Core.run core 2 (recvStart 275#16 lineFramed)) State.result = some (okPort (some 0#32) []) ∧
    ∀ j, j < 2 → control (Host.Core.run core j (recvStart 275#16 lineFramed)) ≠ some .idle := by
  refine ⟨inv_environment inv_reset [] _ 0 [] [], ⟨rfl, rfl, rfl⟩, by rfl, by rfl, ?_⟩
  decide

/-- The state after reset with `n` silences to come. -/
def silent (n : Nat) : State :=
  { State.reset with line := (List.range n).map (fun i => drawEvent ((fun _ => Config.Draw.timeout) i)) }

theorem silent_meets (n : Nat) : Inv (silent n) ∧ Ready (silent n) ∧ (silent n).rxq = [] ∧
    (silent n).line = (List.range n).map (fun i => drawEvent ((fun _ => Config.Draw.timeout) i)) ∧
    exec (.recv 275#16) (silent n) = .next (recvStart 275#16 (silent n)) :=
  ⟨inv_environment inv_reset [] _ 0 [] [], ⟨rfl, rfl, rfl⟩, rfl, rfl, rfl⟩

theorem witness_RecvEndsAsBigStep : Inv (silent 65541) ∧ Ready (silent 65541) ∧ (silent 65541).rxq = [] ∧
    (silent 65541).line = (List.range 65541).map (fun i => drawEvent ((fun _ => Config.Draw.timeout) i)) ∧
    exec (.recv 275#16) (silent 65541) = .next (recvStart 275#16 (silent 65541)) := silent_meets 65541

theorem witness_SentFrameIsAccepted :
    exec (.send []) State.reset = .next (endOk none [] (sendFrame [] State.reset)) ∧ Inv framed ∧ Ready framed ∧
      framed.seq = State.reset.seq ∧ (endOk none [] (sendFrame [] State.reset)).txs = State.reset.txs ++ framed.rxq ∧
      exec (.recv 275#16) framed = .next receiving :=
  ⟨rfl, inv_framed, ⟨rfl, rfl, rfl⟩, rfl, by decide, rfl⟩

theorem witness_ExchangeIsSendThenRecv :
    [0x01#8].length ≤ ({ Config.defaults with maxPayload := 1 } : Config.Params).maxPayload ∧
    ({ Config.defaults with maxPayload := 0 } : Config.Params).maxPayload < [0x01#8].length := by decide

theorem witness_StepKeepsInvariant : Inv State.reset ∧ step State.reset = .next State.reset := ⟨inv_reset, rfl⟩

theorem witness_StepNeverStops : Inv (waiting .wData 2#16 0#16 0x16#8 [0x01#8]) := inv_data

theorem witness_SeqAdvancesOnAcceptanceOnly :
    (waiting .wCsum 0#16 0#16 0x14#8 [0x14#8]).resetPin = false ∧
      after (step (waiting .wCsum 0#16 0#16 0x14#8 [0x14#8])) State.seq = some 2#8 := by decide

theorem witness_ValidTemplatesAreImmutable :
    (loaded 4#8 tWE).resetPin = false ∧ step (loaded 4#8 tWE) = .next (loaded 4#8 tWE) ∧
      (loaded 4#8 tWE).tplv.getLsbD (4#8).toNat = true := ⟨rfl, rfl, by decide⟩

theorem witness_StreamsAreSequences : step State.reset = .next State.reset := rfl

theorem witness_ConfigurationFaultIsSticky :
    step { State.reset with cfgf := true } = .next { State.reset with cfgf := true } := rfl

theorem witness_ErrorRecordTellsLastFailure : (IsCommand (.encfix 9#8) ∧
    exec (.encfix 9#8) State.reset = .next (raise .templateNotValid 9#16 State.reset)) ∧
    control (step (waiting .wData 2#16 0#16 0x16#8 [0x01#8])) = some .wData ∧
    after (step (waiting .wCsum 0#16 0#16 0x14#8 [0x14#8])) record = some (0x00#8, 0#16, false) ∧
    after (step (waiting .wCsum 0#16 0#16 0x14#8 [0x15#8])) record = some (0x20#8, 1#16, false) :=
  ⟨⟨trivial, rfl⟩, by decide, by decide, by decide⟩

theorem witness_ConfigurationErrorRepeats : IsCommand (.encfix 9#8) ∧
    exec (.encfix 9#8) State.reset = .next (raise .templateNotValid 9#16 State.reset) ∧
    ∃ r : Result, (raise .templateNotValid 9#16 State.reset).result = some r ∧
      r.status ∈ [0x40#8, 0x41#8, 0x42#8, 0x43#8] := ⟨trivial, rfl, _, rfl, by decide⟩

/-- One clause each: a codec operation, a position of a scan, RECV's start, a step of a receive, a header that reaches it. -/
theorem witness_UnitsShareNoState :
    (IsCodec .rdbuf ∧ SameCodec State.reset framed ∧ exec .rdbuf State.reset = .next (endOk (some 0#32) [] State.reset)) ∧
    (SameCodec (scanning .decout 31 State.reset) (scanning .decout 31 framed) ∧
      after (step (scanning .decout 31 State.reset)) State.scan = some none ∧
      after (step (scanning .decout 31 framed)) State.scan = some none) ∧
    (SameFramer State.reset { State.reset with buf := 1#32 } ∧
      exec (.recv 5#16) State.reset = .next (recvStart 5#16 State.reset)) ∧
    (SameFramer (waiting .wCsum 0#16 0#16 0x14#8 [0x14#8]) { waiting .wCsum 0#16 0#16 0x14#8 [0x14#8] with buf := 1#32 } ∧
      control (step (waiting .wCsum 0#16 0#16 0x14#8 [0x14#8])) = some .idle ∧
      control (step { waiting .wCsum 0#16 0#16 0x14#8 [0x14#8] with buf := 1#32 }) = some .idle) ∧
    control (exec (.frameHeader 1#8 0#8 0#8) (waiting .wStart 0#16 0#16 0#8 [])) = some .wCsum :=
  ⟨⟨trivial, ⟨rfl, rfl, rfl, rfl, rfl⟩, rfl⟩, ⟨⟨rfl, rfl, rfl, rfl, rfl⟩, by decide, by decide⟩,
    ⟨⟨rfl, rfl, rfl, rfl, rfl, rfl, rfl, rfl, rfl, rfl⟩, rfl⟩,
    ⟨⟨rfl, rfl, rfl, rfl, rfl, rfl, rfl, rfl, rfl, rfl⟩, by decide, by decide⟩, by decide⟩

theorem witness_EveryReceiveStepProgresses :
    Inv (waiting .wData 2#16 0#16 0x16#8 [0x01#8]) ∧ (waiting .wData 2#16 0#16 0x16#8 [0x01#8]).scan = none ∧
      (waiting .wData 2#16 0#16 0x16#8 [0x01#8]).rxs ≠ .idle ∧
      control (step (waiting .wData 2#16 0#16 0x16#8 [0x01#8])) = some .wData := ⟨inv_data, rfl, by decide, by decide⟩

end Sys2Proof.Tests
end

/-! PROOFS of the family 00_scope.md. The byte order of a word (R15, R67), and the separation of codec and framer (R2), in
three parts: what an operation, a scan step or a receive step leaves of the other unit; two runs of the codec on states of
equal codec state; two runs of the framer on states of equal framer state. -/

namespace Sys2Proof.Machine

/-! ### The four bytes of a word (R15, R67) -/

/-- Byte `3 - k div 8` of a word holds position `k` at its bit `k mod 8`. -/
theorem wordByte_getLsbD (w : Word) {k : Nat} (hk : k < 32) :
    (wordByte w (3 - k / 8)).getLsbD (k % 8) = w.getLsbD k := by
  have hpos : 8 * (3 - (3 - k / 8)) + k % 8 = k := by omega
  have hbit : k % 8 < 8 := Nat.mod_lt k (by decide)
  simp only [wordByte, BitVec.getLsbD_extractLsb', hpos, hbit, decide_true, Bool.true_and]

/-- Four bytes put together, as a number: byte 0 is the most significant. -/
theorem wordOfBytes_toNat (b0 b1 b2 b3 : Byte) :
    (wordOfBytes b0 b1 b2 b3).toNat = ((b0.toNat * 256 + b1.toNat) * 256 + b2.toNat) * 256 + b3.toNat := by
  have h1 := append_toNat b0 b1 (k := 16) rfl
  have h2 := append_toNat (b0 ++ b1) b2 (k := 24) rfl
  have h3 := append_toNat (b0 ++ b1 ++ b2) b3 (k := 32) rfl
  simp only [BitVec.toNat_cast] at h1 h2 h3
  refine h3.trans ?_
  rw [h2, h1]
  norm_num

/-- A word is its four bytes. -/
theorem wordOfBytes_wordByte (w : Word) :
    wordOfBytes (wordByte w 0) (wordByte w 1) (wordByte w 2) (wordByte w 3) = w := by
  apply BitVec.eq_of_toNat_eq
  have := w.isLt
  rw [wordOfBytes_toNat]
  simp only [wordByte, extract_toNat]
  omega

/-- Settles O7: the bits by the offset of a byte within the word, the word by its number. -/
theorem wordIsBigEndian : Obligations.WordIsBigEndian := by
  unfold Obligations.WordIsBigEndian
  exact fun w => ⟨fun _ hk => (wordByte_getLsbD w hk).symm, wordOfBytes_wordByte w⟩

/-! ### Two runs -/

/-- Two runs that both end in a next state end in states related by `R`. -/
def BothNext (R : State → State → Prop) (o o' : Host.Outcome State Fault Refusal) : Prop :=
  ∀ s' u', o = .next s' → o' = .next u' → R s' u'

theorem bothNext_next {R : State → State → Prop} {s u : State} (h : R s u) : BothNext R (.next s) (.next u) := by
  intro s' u' hs hu
  cases hs
  cases hu
  exact h

/-- Two runs that take the same branch. -/
theorem bothNext_ite {R : State → State → Prop} {c c' : Prop} [Decidable c] [Decidable c']
    {a b a' b' : Host.Outcome State Fault Refusal} (hc : c ↔ c') (ha : BothNext R a a') (hb : BothNext R b b') :
    BothNext R (if c then a else b) (if c' then a' else b') := by
  by_cases h : c
  · rw [if_pos h, if_pos (hc.mp h)]
    exact ha
  · rw [if_neg h, if_neg (hc.not.mp h)]
    exact hb

/-- A run that faults relates nothing. -/
theorem bothNext_fault {R : State → State → Prop} (r : Fault) (o : Host.Outcome State Fault Refusal) :
    BothNext R (.fault r) o := fun _ _ h => nomatch h

/-- Two runs of the same two parts: the second parts go on from states the first parts have related. -/
theorem bothNext_andThen {R Q : State → State → Prop} {o o' : Host.Outcome State Fault Refusal}
    {f f' : State → Host.Outcome State Fault Refusal} (h : BothNext R o o')
    (hf : ∀ s u, R s u → BothNext Q (f s) (f' u)) : BothNext Q (andThen o f) (andThen o' f') := by
  intro s' u' hs hu
  cases o with
  | next s =>
    cases o' with
    | next u => exact hf s u (h s u rfl rfl) s' u' hs hu
    | fault r => cases hu
    | refused r => cases hu
  | fault r => cases hs
  | refused r => cases hs

/-! ### What is left of the other unit -/

/-- A codec operation leaves the framer state: its errors are no transport errors (R202, R242). -/
theorem exec_codec_keeps_framer {i : Instr} {s t : State} (hi : IsCodec i) (h : exec i s = .next t) :
    SameFramer t s := by
  have hc : IsCommand i := by cases i <;> trivial
  cases exec_command_cases hc h with
  | raised kind info hk => simp [SameFramer, hk]
  | receiving m hm => subst hm; exact hi.elim
  | sent payload hp => subst hp; exact hi.elim
  | loaded => simp [SameFramer]
  | plain => simp [SameFramer]

/-- What a receive never touches has the codec state in it. -/
theorem sameCodec_of_receiveKeeps {s t : State} (h : ReceiveKeeps s t) : SameCodec t s :=
  ⟨h.tpl, h.tplv, h.buf, h.resp, h.par⟩

/-- What a receive step never touches, on a byte or a timeout. -/
theorem recvStep_keeps {d : Config.Draw} {s t : State} (hw : s.rxs ≠ .idle) (h : recvStep d s = .next t) :
    ReceiveKeeps s t := by
  cases d with
  | byte b => exact (recvByte_keeps h).1
  | timeout =>
    rw [recvStep_timeout hw, raise_transport rfl] at h
    cases h
    constructor <;> rfl

/-- A step of a receive leaves the codec state, and takes one event of the line where `RXQ` is empty, or one free draw
where the line is at its end too (R62; log 3). -/
theorem step_waiting_keeps {s t : State} (hp : s.resetPin = false) (hs : s.scan = none) (hw : s.rxs ≠ .idle)
    (h : step s = .next t) : SameCodec t s ∧
      t.line = (if s.rxq = [] then s.line.tail else s.line) ∧
      t.waits = (if s.rxq = [] ∧ s.line = [] then s.waits + 1 else s.waits) := by
  cases step_cases h with
  | read b rest _ _ _ _ hq h =>
    obtain ⟨hk, -⟩ := recvByte_keeps h
    have hcodec := sameCodec_of_receiveKeeps hk
    exact ⟨hcodec, by simp [hk.line, hq], by simp [hk.waits, hq]⟩
  | bytes bs e rest _ _ _ hq _ hl _ h =>
    obtain ⟨hk, -⟩ := arriveAll_keeps h
    have hcodec := sameCodec_of_receiveKeeps hk
    exact ⟨hcodec, by simp [hk.line, hq hw, hl], by simp [hk.waits, hl]⟩
  | silence rest _ _ _ hq hl => simp [SameCodec, hq, hl]
  | draw _ _ _ _ hq hl h =>
    have hk := recvStep_keeps (by exact hw) h
    have hcodec := sameCodec_of_receiveKeeps hk
    exact ⟨hcodec, by simp [hk.line, hl], by simp [hk.waits, hq, hl]⟩
  | reset hr => simp [hr] at hp
  | role sc _ hsc => simp [hsc] at hs
  | still _ _ _ hi => exact absurd hi hw
  | waits _ _ hi => exact absurd hi hw
  | command _ _ _ _ _ _ hi => exact absurd hi hw
  | illegal _ _ _ _ hi => exact absurd hi hw

/-! ### Two runs of the codec -/

/-- Equal codec state and equal results: how two runs of a codec operation are to end. -/
def CodecAlike (s u : State) : Prop := SameCodec s u ∧ s.result = u.result

theorem raise_codecAlike {s u : State} (kind : ErrKind) (info : Half) (h : SameCodec s u) :
    CodecAlike (raise kind info s) (raise kind info u) := ⟨h, rfl⟩

/-- An end `OK` with the same value, after the same write to the codec state. -/
theorem endOk_codecAlike {s u : State} (v : Option Word) (p : List Byte) (h : SameCodec s u) :
    CodecAlike (endOk v p s) (endOk v p u) := ⟨h, rfl⟩

/-- The range check reads a parameter only. -/
theorem rangeCheck_codecAlike {s u : State} (t : Byte) {go go' : Host.Outcome State Fault Refusal} (h : SameCodec s u)
    (hgo : BothNext CodecAlike go go') : BothNext CodecAlike (rangeCheck t s go) (rangeCheck t u go') := by
  have ⟨_, _, _, _, hpar⟩ := h
  rw [rangeCheck_eq, rangeCheck_eq]
  exact bothNext_ite (by rw [hpar]) hgo (bothNext_next (raise_codecAlike _ _ h))

/-- The scan of a template and what it returns depend on the codec state only. -/
theorem codecOp_codecAlike {s u : State} (op : ScanOp) (t : Byte) (h : SameCodec s u) :
    CodecAlike (codecOp op t s) (codecOp op t u) := by
  have ⟨htpl, htplv, hbuf, hresp, hpar⟩ := h
  have hroles : roleAt s t = roleAt u t := by funext k; simp only [roleAt, htpl]
  rw [codecOp_eq, codecOp_eq, hroles, hbuf, hresp]
  exact ⟨⟨htpl, htplv, rfl, rfl, hpar⟩, rfl⟩

/-- A codec operation that goes through a template, its check included. -/
theorem templateCheck_codecAlike {s u : State} (op : ScanOp) (t : Byte) (h : SameCodec s u) :
    BothNext CodecAlike (templateCheck t s (.next (codecOp op t s))) (templateCheck t u (.next (codecOp op t u))) := by
  have ⟨_, htplv, _, _, _⟩ := h
  unfold templateCheck
  exact rangeCheck_codecAlike t h (bothNext_ite (by rw [slotValid, slotValid, htplv])
    (bothNext_next (codecOp_codecAlike op t h)) (bothNext_next (raise_codecAlike _ _ h)))

/-- TPLLOAD checks and loads the codec state only. -/
theorem execTplload_codecAlike {s u : State} (t : Byte) (roles : List Byte) (h : SameCodec s u) :
    BothNext CodecAlike (execTplload t roles s) (execTplload t roles u) := by
  have ⟨htpl, htplv, hbuf, hresp, hpar⟩ := h
  unfold execTplload
  have raises (kind : ErrKind) (info : Half) :
      BothNext CodecAlike (.next (raise kind info s)) (.next (raise kind info u)) :=
    bothNext_next (raise_codecAlike kind info h)
  refine rangeCheck_codecAlike t h ?_
  refine bothNext_ite (by rw [slotValid, slotValid, htplv]) (raises _ _) (bothNext_ite Iff.rfl (raises _ _) ?_)
  cases firstUndefined 0 roles with
  | some kc => exact raises _ _
  | none =>
    rw [htpl, htplv]
    exact bothNext_next (endOk_codecAlike _ _ ⟨rfl, rfl, hbuf, hresp, hpar⟩)

/-- What a codec operation does to the codec state and returns depends on the codec state only. -/
theorem exec_codecAlike {i : Instr} {s u : State} (hi : IsCodec i) (h : SameCodec s u) :
    BothNext CodecAlike (exec i s) (exec i u) := by
  have ⟨htpl, htplv, hbuf, hresp, hpar⟩ := h
  cases i with
  | tplload t roles => exact execTplload_codecAlike t roles h
  | tplvalid t =>
    refine rangeCheck_codecAlike t h (bothNext_next ?_)
    simp only [slotValid, htplv]
    exact endOk_codecAlike _ _ h
  | encfix t => exact templateCheck_codecAlike .encfix t h
  | encaddr t address => exact templateCheck_codecAlike (.encaddr address) t h
  | encin t data => exact templateCheck_codecAlike (.encin data) t h
  | decout t => exact templateCheck_codecAlike .decout t h
  | outidx t => exact templateCheck_codecAlike .outidx t h
  | ldbuf w => exact bothNext_next (endOk_codecAlike _ _ ⟨htpl, htplv, rfl, hresp, hpar⟩)
  | rdbuf =>
    refine bothNext_next ?_
    rw [hbuf]
    exact endOk_codecAlike _ _ h
  | ldresp w => exact bothNext_next (endOk_codecAlike _ _ ⟨htpl, htplv, hbuf, rfl, hpar⟩)
  | send | recv | rdseq | rderr | roleF0 | roleF1 | roleX | roleA | roleI | roleO | frameHeader => exact hi.elim

/-- A step of a scan is the action of the role in the template store, and no action where the code is undefined. -/
theorem step_scan_eq {s : State} {sc : Scan} (hp : s.resetPin = false) (hs : s.scan = some sc) :
    step s = .next (scanStep (fun op k c => roleAct op s.resp k (decodeRole (scanCode sc s)) c) s) := by
  rw [step_scanning hp hs, roleStep]
  split
  · exact exec_role ‹_› s
  · rw [decodeRole_of_error ‹_›]
    rfl

/-- One position of a scan: what it does depends on the codec state only, and it leaves the framer state. -/
theorem scanStep_separate {s u : State} {sc : Scan} (act : ScanOp → Nat → CodecAcc → CodecAcc)
    (hs : s.scan = some sc) (hu : u.scan = some sc) (h : SameCodec s u) :
    SameCodec (scanStep act s) (scanStep act u) ∧ (scanStep act s).scan = (scanStep act u).scan ∧
      ((scanStep act s).scan = none → (scanStep act s).result = (scanStep act u).result) ∧
      SameFramer (scanStep act s) s := by
  have ⟨htpl, htplv, hbuf, hresp, hpar⟩ := h
  simp only [scanStep_eq act hs, scanStep_eq act hu, hbuf]
  split
  · simp [SameCodec, SameFramer, htpl, htplv, hresp, hpar]
  · simp [scanEnd, SameCodec, SameFramer, htpl, htplv, hresp, hpar]

/-! ### Two runs of the framer -/

/-- Equal framer state and equal parameters: all that SEND, RECV, RDSEQ and a byte that arrives depend on. -/
def SameReceiver (s u : State) : Prop := SameFramer s u ∧ s.par = u.par

/-- SEND, RECV's start and RDSEQ: what they do to the framer state and return depends on it only, and they leave the codec
state. -/
theorem exec_framer_separate {i : Instr} {s u : State}
    (hi : (∃ payload, i = .send payload) ∨ (∃ m, i = .recv m) ∨ i = .rdseq) (h : SameReceiver s u) :
    BothNext (fun s' u' => SameFramer s' u' ∧ s'.result = u'.result ∧ SameCodec s' s) (exec i s) (exec i u) := by
  have ⟨hf, hpar⟩ := h
  have ⟨hseq, hrxs, hlen, hcnt, hsum, hmax, hbuf, htxsum, htxs, hrxq⟩ := hf
  obtain ⟨payload, rfl⟩ | ⟨m, rfl⟩ | rfl := hi
  · simp only [exec, execSend, sendFrame_eq, ← hpar, ← hseq, ← htxs]
    exact bothNext_ite Iff.rfl
      (bothNext_next ⟨⟨rfl, hrxs, hlen, hcnt, hsum, hmax, hbuf, rfl, rfl, hrxq⟩, rfl, rfl, rfl, rfl, rfl, rfl⟩)
      (bothNext_next ⟨hf, rfl, rfl, rfl, rfl, rfl, rfl⟩)
  · simp only [exec, execRecv, recvStart, ← hpar]
    exact bothNext_next ⟨⟨hseq, rfl, rfl, rfl, rfl, rfl, hbuf, htxsum, htxs, hrxq⟩, rfl, rfl, rfl, rfl, rfl, rfl⟩
  · simp only [exec, execRdseq, ← hseq]
    exact bothNext_next ⟨hf, rfl, rfl, rfl, rfl, rfl, rfl⟩

/-- How two runs of the receive machine, from `s` and `u`, are to end: in equal framer state; an idle block stays idle; the
results are equal where the receive has ended, and as they were where not. -/
def ReceivesAlike (s u s' u' : State) : Prop :=
  SameReceiver s' u' ∧ (s.rxs = .idle → s'.rxs = .idle) ∧
    if s.rxs ≠ .idle ∧ s'.rxs = .idle then s'.result = u'.result else s'.result = s.result ∧ u'.result = u.result

/-- The receive goes on. -/
theorem receivesAlike_of_running {s u s' u' : State} (h : SameReceiver s' u') (hw : s.rxs ≠ .idle)
    (hgo : s'.rxs ≠ .idle) (hs : s'.result = s.result) (hu : u'.result = u.result) : ReceivesAlike s u s' u' := by
  refine ⟨h, fun hi => absurd hi hw, ?_⟩
  rw [if_neg (fun hc => hgo hc.2)]
  exact ⟨hs, hu⟩

/-- The receive ends. -/
theorem receivesAlike_of_ended {s u s' u' : State} (h : SameReceiver s' u') (hw : s.rxs ≠ .idle)
    (hend : s'.rxs = .idle) (hr : s'.result = u'.result) : ReceivesAlike s u s' u' := by
  refine ⟨h, fun _ => hend, ?_⟩
  rw [if_pos ⟨hw, hend⟩]
  exact hr

/-- The receive machine takes no step. -/
theorem receivesAlike_of_untouched {s u s' u' : State} (h : SameReceiver s' u') (hx : s'.rxs = s.rxs)
    (hs : s'.result = s.result) (hu : u'.result = u.result) : ReceivesAlike s u s' u' := by
  refine ⟨h, fun hi => hx.trans hi, ?_⟩
  rw [if_neg (fun hc => hc.1 (hx ▸ hc.2))]
  exact ⟨hs, hu⟩

/-- Two runs after two runs: what has ended in the first part stays ended with its result. -/
theorem receivesAlike_trans {s u t v s' u' : State} (h : ReceivesAlike s u t v) (k : ReceivesAlike t v s' u') :
    ReceivesAlike s u s' u' := by
  obtain ⟨-, hidle, hport⟩ := h
  obtain ⟨hsame, kidle, kport⟩ := k
  refine ⟨hsame, fun hi => kidle (hidle hi), ?_⟩
  by_cases ht : t.rxs = .idle
  · obtain ⟨ks, ku⟩ : s'.result = t.result ∧ u'.result = v.result := by simpa [ht] using kport
    simpa [kidle ht, ht, ks, ku] using hport
  · have hw : s.rxs ≠ .idle := fun hi => ht (hidle hi)
    obtain ⟨hs, hu⟩ : t.result = s.result ∧ v.result = u.result := by simpa [ht] using hport
    simpa [hw, ht, hs, hu] using kport

/-- A transport error ends both receives alike (R202); its information goes to `ERRINFO`, which is no part of the framer. -/
theorem raise_receivesAlike {s u : State} {kind : ErrKind} (hk : isTransport kind = true) (info info' : Half)
    (h : SameReceiver s u) (hw : s.rxs ≠ .idle) :
    ReceivesAlike s u (raise kind info s) (raise kind info' u) := by
  have ⟨⟨hseq, _, hrest⟩, hpar⟩ := h
  rw [raise_transport hk, raise_transport hk]
  exact receivesAlike_of_ended ⟨⟨hseq, rfl, hrest⟩, hpar⟩ hw rfl rfl

/-- A payload byte is stored in the framer state (R195). -/
theorem storeData_receivesAlike {s u : State} (b : Byte) (h : SameReceiver s u) (hw : s.rxs ≠ .idle) :
    BothNext (ReceivesAlike s u) (storeData b s) (storeData b u) := by
  have ⟨⟨hseq, _, hlen, hcnt, hsum, hmax, hbuf, htxsum, htxs, hrxq⟩, hpar⟩ := h
  refine bothNext_ite (by rw [hcnt, hpar]) (bothNext_next ?_) (bothNext_fault _ _)
  refine receivesAlike_of_running ?_ hw (by dsimp only; split <;> decide) rfl rfl
  exact ⟨⟨hseq, by rw [hcnt, hlen], hlen, by rw [hcnt], hsum, hmax, by rw [hbuf, hcnt], htxsum, htxs, hrxq⟩, hpar⟩

/-- An accepted frame is returned from the framer state (R200). -/
theorem accept_receivesAlike {s u : State} (h : SameReceiver s u) (hw : s.rxs ≠ .idle) :
    BothNext (ReceivesAlike s u) (accept s) (accept u) := by
  have ⟨⟨hseq, _, hlen, hcnt, hsum, hmax, hbuf, htxsum, htxs, hrxq⟩, hpar⟩ := h
  refine bothNext_ite (by rw [hlen, hpar]) (bothNext_next ?_) (bothNext_fault _ _)
  refine receivesAlike_of_ended ?_ hw rfl (by rw [endOk_result, endOk_result, hlen, hbuf])
  exact ⟨⟨by simp only [endOk_seq, hseq], rfl, hlen, hcnt, hsum, hmax, hbuf, htxsum, htxs, hrxq⟩, hpar⟩

/-- The rule of a waiting state reads and writes the framer state only (R190 to R200). -/
theorem recvRule_receivesAlike {s u : State} (b : Byte) (h : SameReceiver s u) (hw : s.rxs ≠ .idle) :
    BothNext (ReceivesAlike s u) (recvRule b s) (recvRule b u) := by
  have ⟨⟨hseq, hrxs, hlen, hcnt, hsum, hmax, hbuf, htxsum, htxs, hrxq⟩, hpar⟩ := h
  have fails {kind : ErrKind} (hk : isTransport kind = true) {info info' : Half} :
      BothNext (ReceivesAlike s u) (.next (raise kind info s)) (.next (raise kind info' u)) :=
    bothNext_next (raise_receivesAlike hk info info' h hw)
  have goes {st st' : RxState} {len len' : Half} (hst : st = st') (hl : len = len') (hgo : st ≠ .idle) :
      BothNext (ReceivesAlike s u) (.next { s with rxs := st, rxlen := len })
        (.next { u with rxs := st', rxlen := len' }) :=
    bothNext_next (receivesAlike_of_running
      ⟨⟨hseq, hst, hl, hcnt, hsum, hmax, hbuf, htxsum, htxs, hrxq⟩, hpar⟩ hw hgo rfl rfl)
  unfold recvRule
  rw [← hrxs]
  cases hr : s.rxs with
  | idle => exact absurd hr hw
  | wStart => exact bothNext_ite Iff.rfl (goes rfl hlen (by decide)) (fails rfl)
  | wSeq => exact bothNext_ite (by rw [hseq]) (goes rfl hlen (by decide)) (fails rfl)
  | wLenHi => exact goes rfl (by rw [hlen]) (by decide)
  | wLenLo =>
    have hset : setLenLo s.rxlen b = setLenLo u.rxlen b := by rw [hlen]
    have h' : SameReceiver { s with rxlen := setLenLo s.rxlen b } { u with rxlen := setLenLo u.rxlen b } :=
      ⟨⟨hseq, hrxs, hset, hcnt, hsum, hmax, hbuf, htxsum, htxs, hrxq⟩, hpar⟩
    exact bothNext_ite (by rw [hset, hmax]) (goes rfl hset (by decide))
      (bothNext_next (raise_receivesAlike (kind := .tooLong) rfl _ _ h' hw))
  | wToken =>
    exact bothNext_ite Iff.rfl (goes (by rw [hlen]) hlen (by split <;> decide)) (fails rfl)
  | wData => exact storeData_receivesAlike b h hw
  | wCsum => exact bothNext_ite (by rw [hsum]) (accept_receivesAlike h hw) (fails rfl)

/-- A receive step on a byte (R189). -/
theorem recvByte_receivesAlike {s u : State} (b : Byte) (h : SameReceiver s u) :
    BothNext (ReceivesAlike s u) (recvByte b s) (recvByte b u) := by
  have ⟨⟨hseq, hrxs, hlen, hcnt, hsum, hrest⟩, hpar⟩ := h
  by_cases hw : s.rxs = .idle
  · rw [recvByte_idle b s hw, recvByte_idle b u (hrxs ▸ hw)]
    exact bothNext_next (receivesAlike_of_untouched h rfl rfl rfl)
  · rw [recvByte_waiting b s hw, recvByte_waiting b u (hrxs ▸ hw)]
    have h' : SameReceiver { s with rxsum := s.rxsum ^^^ b } { u with rxsum := u.rxsum ^^^ b } :=
      ⟨⟨hseq, hrxs, hlen, hcnt, by rw [hsum], hrest⟩, hpar⟩
    exact recvRule_receivesAlike b h' hw

/-- A receive step on the outcome of its wait (R62, R201). -/
theorem recvStep_receivesAlike {s u : State} (d : Config.Draw) (h : SameReceiver s u) (hw : s.rxs ≠ .idle) :
    BothNext (ReceivesAlike s u) (recvStep d s) (recvStep d u) := by
  have ⟨⟨_, hrxs, _⟩, _⟩ := h
  cases d with
  | byte b => exact recvByte_receivesAlike b h
  | timeout =>
    rw [recvStep_timeout hw, recvStep_timeout (hrxs ▸ hw)]
    exact bothNext_next (raise_receivesAlike rfl _ _ h hw)

/-- A byte that arrives is taken or queued by the framer state (R60, R64). -/
theorem arrive_receivesAlike {s u : State} (b : Byte) (h : SameReceiver s u) :
    BothNext (ReceivesAlike s u) (arrive b s) (arrive b u) := by
  have ⟨⟨hseq, hrxs, hlen, hcnt, hsum, hmax, hbuf, htxsum, htxs, hrxq⟩, hpar⟩ := h
  rw [arrive_eq, arrive_eq]
  refine bothNext_ite (by rw [hrxs, hrxq]) (recvByte_receivesAlike b h) (bothNext_next ?_)
  refine receivesAlike_of_untouched ?_ rfl rfl rfl
  exact ⟨⟨hseq, hrxs, hlen, hcnt, hsum, hmax, hbuf, htxsum, htxs, by rw [hrxq]⟩, hpar⟩

/-- Bytes that arrive one after the other. -/
theorem arriveAll_receivesAlike (bs : List Byte) {s u : State} (h : SameReceiver s u) :
    BothNext (ReceivesAlike s u) (arriveAll bs s) (arriveAll bs u) := by
  induction bs generalizing s u with
  | nil => exact bothNext_next (receivesAlike_of_untouched h rfl rfl rfl)
  | cons b bs ih =>
    refine bothNext_andThen (arrive_receivesAlike b h) fun t v htv s' u' hs hu => ?_
    exact receivesAlike_trans htv (ih htv.1 s' u' hs hu)

/-- At a wait with nothing on the line, the outcome is a free draw (log 3). -/
theorem lineStep_drawn {s : State} (hl : s.line = []) (hw : s.rxs ≠ .idle) :
    lineStep s = recvStep (Config.lineDraw s.waits) { s with waits := s.waits + 1 } := by
  simp [lineStep, hl, (busy_iff s).mpr hw]

theorem lineStep_byte {s : State} {b : Byte} {rest : List LineEvent} (hl : s.line = .byte b :: rest) :
    lineStep s = arrive b { s with line := rest } := by simp [lineStep, hl]

theorem lineStep_silence {s : State} {rest : List LineEvent} (hl : s.line = .silence :: rest) :
    lineStep s = recvStep .timeout { s with line := rest } := by simp [lineStep, hl]

/-- A header event is the arrival of its five bytes, whether they are a frame header or not (log 8). -/
theorem lineStep_header {s : State} {h : Header} {rest : List LineEvent} (hl : s.line = .header h :: rest) :
    lineStep s = arriveAll (headerBytes h) { s with line := rest } := by
  simp only [lineStep, hl]
  split
  · exact exec_header ‹_› _
  · rfl

/-- At a wait on an empty queue: the line's next event, or a free draw (R62; log 3, log 8). -/
theorem lineStep_receivesAlike {s u : State} (hline : s.line = u.line) (hwaits : s.waits = u.waits)
    (h : SameReceiver s u) (hw : s.rxs ≠ .idle) : BothNext (ReceivesAlike s u) (lineStep s) (lineStep u) := by
  have ⟨⟨_, hrxs, _⟩, _⟩ := h
  have rests (rest : List LineEvent) : SameReceiver { s with line := rest } { u with line := rest } := h
  match hl : s.line with
  | [] =>
    rw [lineStep_drawn hl hw, lineStep_drawn (hline ▸ hl) (hrxs ▸ hw), ← hwaits]
    have h' : SameReceiver { s with waits := s.waits + 1 } { u with waits := s.waits + 1 } := h
    exact recvStep_receivesAlike _ h' hw
  | .byte b :: rest =>
    rw [lineStep_byte hl, lineStep_byte (hline ▸ hl)]
    exact arrive_receivesAlike b (rests rest)
  | .silence :: rest =>
    rw [lineStep_silence hl, lineStep_silence (hline ▸ hl)]
    exact recvStep_receivesAlike .timeout (rests rest) hw
  | .header hd :: rest =>
    rw [lineStep_header hl, lineStep_header (hline ▸ hl)]
    exact arriveAll_receivesAlike (headerBytes hd) (rests rest)

/-- A step of a receive depends on the framer state, the line and the count of free draws. -/
theorem receiveStep_receivesAlike {s u : State} (hline : s.line = u.line) (hwaits : s.waits = u.waits)
    (h : SameReceiver s u) (hw : s.rxs ≠ .idle) : BothNext (ReceivesAlike s u) (receiveStep s) (receiveStep u) := by
  have ⟨⟨hseq, hrxs, hlen, hcnt, hsum, hmax, hbuf, htxsum, htxs, hrxq⟩, hpar⟩ := h
  unfold receiveStep
  rw [← hrxq]
  cases s.rxq with
  | nil => exact lineStep_receivesAlike hline hwaits h hw
  | cons b rest =>
    have h' : SameReceiver { s with rxq := rest } { u with rxq := rest } :=
      ⟨⟨hseq, hrxs, hlen, hcnt, hsum, hmax, hbuf, htxsum, htxs, rfl⟩, hpar⟩
    exact recvStep_receivesAlike (.byte b) h' hw

/-! ### The two units -/

/-- A step of a receive: what it does to the framer state and returns, and what it leaves. -/
theorem step_receive_separate {s u s' u' : State} (hps : s.resetPin = false) (hpu : u.resetPin = false)
    (hss : s.scan = none) (hsu : u.scan = none) (hw : s.rxs ≠ .idle) (hline : s.line = u.line)
    (hwaits : s.waits = u.waits) (h : SameReceiver s u) (hs : step s = .next s') (hu : step u = .next u') :
    SameFramer s' u' ∧ s'.line = u'.line ∧ s'.waits = u'.waits ∧ SameCodec s' s ∧
      if s'.rxs = .idle then s'.result = u'.result else s'.result = s.result ∧ u'.result = u.result := by
  have ⟨⟨_, hrxs, _, _, _, _, _, _, _, hrxq⟩, _⟩ := h
  have hwu : u.rxs ≠ .idle := hrxs ▸ hw
  obtain ⟨hcodec, hls, hns⟩ := step_waiting_keeps hps hss hw hs
  obtain ⟨-, hlu, hnu⟩ := step_waiting_keeps hpu hsu hwu hu
  rw [step_waiting hps hss hw] at hs
  rw [step_waiting hpu hsu hwu] at hu
  obtain ⟨⟨hframer, -⟩, -, hport⟩ := receiveStep_receivesAlike hline hwaits h hw s' u' hs hu
  simp only [ne_eq, hw, not_false_eq_true, true_and] at hport
  exact ⟨hframer, by rw [hls, hlu, hrxq, hline], by rw [hns, hnu, hrxq, hline, hwaits], hcodec, hport⟩

/-- Settles O59: each clause from the rules of its unit, the codec's by equal codec state, the framer's by equal framer
state and parameters. -/
theorem unitsShareNoState : Obligations.UnitsShareNoState := by
  unfold Obligations.UnitsShareNoState
  refine ⟨?_, ?_, ?_, ?_, ?_⟩
  · intro i s u s' u' hi h hs hu
    obtain ⟨hcodec, hresult⟩ := exec_codecAlike hi h s' u' hs hu
    exact ⟨hcodec, hresult, exec_codec_keeps_framer hi hs⟩
  · intro s u s' u' sc hps hpu hss hsu h hs hu
    have ⟨htpl, _, _, hresp, _⟩ := h
    have hcode : scanCode sc s = scanCode sc u := by rw [scanCode, scanCode, htpl]
    rw [step_scan_eq hps hss, hcode, hresp] at hs
    rw [step_scan_eq hpu hsu] at hu
    cases hs
    cases hu
    exact scanStep_separate _ hss hsu h
  · intro i s u s' u' hi hpar hf hs hu
    exact exec_framer_separate hi ⟨hf, hpar⟩ s' u' hs hu
  · intro s u s' u' hps hpu hss hsu hw hpar hline hwaits hf hs hu
    exact step_receive_separate hps hpu hss hsu hw hline hwaits ⟨hf, hpar⟩ hs hu
  · intro seq hi lo s u s' u' hpar hf hs hu
    obtain ⟨⟨hframer, -⟩, -, hport⟩ := arriveAll_receivesAlike (frameHeaderBytes seq hi lo) ⟨hf, hpar⟩ s' u' hs hu
    exact ⟨hframer, sameCodec_of_receiveKeeps (arriveAll_keeps hs).1, hport⟩

end Sys2Proof.Machine

/-! PROOFS of the family 10_state.md. The invariant is kept, by one lemma per thing a step can do; what a step can do to the
template store, `SEQ` and `CFGF` follows from one inversion of the step by the unit that takes it (`StepOutcome`); and the
error record follows from how an operation of the host (`RaisesListed`) or a receive (`ReceiveEnds`) ends. -/

namespace Sys2Proof.Machine

/-! ### Facts about the shared operations -/

/-- The configuration errors are the ones with the codes `0x40` to `0x43` (R241, R243). -/
theorem errCode_mem_configuration (kind : ErrKind) :
    errCode kind ∈ [0x40#8, 0x41#8, 0x42#8, 0x43#8] ↔ isConfiguration kind = true := by
  cases kind <;> decide

/-- No error has the status `OK` (R240, R241). -/
theorem errCode_ne_ok (kind : ErrKind) : errCode kind ≠ 0x00#8 := by cases kind <;> decide

/-- With no scan in progress a role code does nothing (R91, log 7). -/
theorem scanStep_none (act : ScanOp → Nat → CodecAcc → CodecAcc) {s : State} (hs : s.scan = none) :
    scanStep act s = s := by
  unfold scanStep
  rw [hs]

/-- One position of a scan writes the word, the scan and the port, nothing else (log 7). -/
theorem scanStep_frame (act : ScanOp → Nat → CodecAcc → CodecAcc) (s : State) :
    ∃ w sc r, scanStep act s = { s with buf := w, scan := sc, result := r } := by
  cases hs : s.scan with
  | none => exact ⟨s.buf, s.scan, s.result, scanStep_none act hs⟩
  | some sc =>
    rw [scanStep_eq act hs]
    dsimp only
    split <;> exact ⟨_, _, _, rfl⟩

/-- A template loaded into another slot leaves the codes of a slot (R20, R132). -/
theorem Memory.read_load_other (m : Memory) {t u : Byte} (htu : u ≠ t) {roles : List Byte} (hlen : roles.length = 32)
    {k : Nat} (hk : k < 32) : Memory.read (Memory.writeAll m (tplAddr t 0) roles) (32 * u.toNat + k) =
      Memory.read m (32 * u.toNat + k) := by
  have hne : u.toNat ≠ t.toNat := fun h => htu (BitVec.eq_of_toNat_eq h)
  refine Memory.read_writeAll_other m roles ?_
  simp only [tplAddr, Config.wordW, hlen]
  omega

/-! ### What the invariant keeps under each thing a step can do -/

/-- In `IDLE` the counters mean nothing. -/
theorem receiveCounts_idle {s : State} (h : s.rxs = .idle) : ReceiveCounts s := by
  unfold ReceiveCounts
  rw [h]
  trivial

/-- The reset values meet the invariant, whatever the state was (R47, R280). -/
theorem inv_resetEvent {s : State} (hp : s.par.wf = true) : Inv (resetEvent s) where
  params := hp
  tplForm := rfl
  rxbufForm := rfl
  tplRange := by simp
  rxbufRange := by simp
  templates := by simp
  errCodes := .inl rfl
  errSticky := by simp
  rxmaxRange := by simp
  counts := trivial
  sum := by simp
  quiet := by simp
  scanning := by simp

/-- An error that leaves the block idle keeps the invariant; `RXLEN` and `RXSUM`, which a receive step may have written
before it, mean nothing then (R202, R250). -/
theorem inv_raise {s : State} (h : Inv s) {kind : ErrKind} (info len : Half) (sum : Byte)
    (hidle : (raise kind info s).rxs = .idle) : Inv (raise kind info { s with rxlen := len, rxsum := sum }) := by
  have hrxs : (raise kind info { s with rxlen := len, rxsum := sum }).rxs = .idle := hidle
  exact
    { h with
      errCodes := .inr ⟨kind, rfl⟩
      errSticky := fun hmem => by simp [(errCode_mem_configuration kind).mp hmem]
      rxmaxRange := fun hw => absurd hrxs hw
      counts := receiveCounts_idle hrxs
      sum := fun hw => absurd hrxs hw
      quiet := fun hw => absurd hrxs hw
      scanning := fun sc hsc => ⟨hrxs, (h.scanning sc hsc).2⟩ }

/-- An idle block that has an operation's result on its port, with `BUF`, `RESP` and the transmit side written. -/
theorem inv_result {s : State} (h : Inv s) (hidle : s.rxs = .idle) (w r : Word) (tx : List Byte) (sum : Byte)
    (res : Option Result) : Inv { s with buf := w, resp := r, txs := tx, txsum := sum, result := res } :=
  { h with quiet := fun hw => absurd hidle hw }

/-- One position of a scan: the next position of the same slot, or no scan (log 7). -/
theorem inv_scanStep {s : State} (h : Inv s) (act : ScanOp → Nat → CodecAcc → CodecAcc) : Inv (scanStep act s) := by
  cases hs : s.scan with
  | none =>
    rw [scanStep_none act hs]
    exact h
  | some sc =>
    obtain ⟨hidle, -, hvalid⟩ := h.scanning sc hs
    rw [scanStep_eq act hs]
    dsimp only
    split
    · rename_i hpos
      exact { h with scanning := fun sc' hsc' => by cases hsc'; exact ⟨hidle, hpos, hvalid⟩ }
    · exact { h with
        quiet := fun hw => absurd hidle hw
        scanning := fun sc' hsc' => nomatch hsc' }

/-- A loaded template: 32 defined codes in a slot of the store (R131, R132). -/
theorem inv_loaded {s : State} (h : Inv s) {t : Byte} {roles : List Byte} (hrange : t.toNat < s.par.nTpl)
    (hfree : s.tplv.getLsbD t.toNat = false) (hlen : roles.length = 32) (hdef : ∀ c ∈ roles, roleDefined c = true) :
    Inv { s with tpl := Memory.writeAll s.tpl (tplAddr t 0) roles, tplv := setValid s.tplv t } where
  __ := h
  tplForm := Memory.wf_writeAll h.tplForm _ _
  tplRange := by
    intro c hc
    rcases Memory.mem_writeAll hc with hold | hnew
    · exact h.tplRange c hold
    · simp only [tplAddr, Config.wordW, hlen] at hnew
      show c.1 < 32 * s.par.nTpl
      omega
  templates := by
    intro u hu
    by_cases hut : u = t
    · subst hut
      refine ⟨hrange, fun k hk => ?_⟩
      have hread := Memory.read_writeAll_same h.tplForm (tplAddr u 0) roles (k := k) (by omega)
      have hmem : roles.getD k 0#8 ∈ roles := by
        rw [List.getD_eq_getElem _ _ (by omega)]
        exact List.getElem_mem _
      rw [tplAddr, Nat.add_zero, Config.wordW] at hread
      exact (congrArg roleDefined hread).trans (hdef _ hmem)
    · have hold : s.tplv.getLsbD u.toNat = true := by
        have hne : u.toNat ≠ t.toNat := fun h => hut (BitVec.eq_of_toNat_eq h)
        simpa [setValid_getLsbD, hne] using hu
      obtain ⟨hin, hcodes⟩ := h.templates u hold
      exact ⟨hin, fun k hk => (congrArg roleDefined (Memory.read_load_other s.tpl hut hlen hk)).trans (hcodes k hk)⟩
  scanning := by
    intro sc hsc
    obtain ⟨hidle, hpos, hvalid⟩ := h.scanning sc hsc
    exact ⟨hidle, hpos, by simp [setValid_getLsbD, hvalid]⟩

/-- The start of a receive: nothing read yet, and no more taken than the buffer holds (R185). -/
theorem inv_recvStart {s : State} (h : Inv s) (hs : s.scan = none) (m : Half) : Inv (recvStart m s) :=
  { h with
    rxmaxRange := fun _ => by
      rw [recvStart_rxmax, BitVec.toNat_ofNat]
      exact (Nat.mod_le _ _).trans (Nat.min_le_right _ _)
    counts := rfl
    sum := fun _ => rfl
    quiet := fun _ => rfl
    scanning := fun sc hsc => by simp [hs] at hsc }

/-- An operation of the host keeps the invariant. -/
theorem inv_command {i : Instr} {s t : State} (h : Inv s) (hs : s.scan = none) (hidle : s.rxs = .idle)
    (hc : CommandCase i s t) : Inv t := by
  cases hc with
  | raised kind info hk => exact inv_raise h info s.rxlen s.rxsum (by simp [hk, hidle])
  | receiving m => exact inv_recvStart h hs m
  | sent payload =>
    rw [sendFrame_eq]
    exact inv_result h hidle s.buf s.resp _ _ _
  | loaded u roles _ hrange hfree hlen hdef =>
    have hload := inv_loaded h hrange hfree hlen hdef
    exact inv_result hload hidle s.buf s.resp s.txs s.txsum _
  | plain v w r => exact inv_result h hidle w r s.txs s.txsum _

/-! ### A receive step keeps the invariant -/

/-- The high byte of `RXLEN` after its write is the byte (R192). -/
theorem lenHi_setLenHi (len : Half) (b : Byte) : lenHi (setLenHi len b) = b := by
  apply BitVec.eq_of_toNat_eq
  rw [lenHi_toNat, setLenHi_toNat]
  omega

/-- Writing the low byte of `RXLEN` leaves the high one (R193). -/
theorem lenHi_setLenLo (len : Half) (b : Byte) : lenHi (setLenLo len b) = lenHi len := by
  apply BitVec.eq_of_toNat_eq
  have := b.isLt
  rw [lenHi_toNat, setLenLo_toNat, lenHi_toNat]
  omega

/-- The low byte of `RXLEN` after its write is the byte (R193). -/
theorem lenLo_setLenLo (len : Half) (b : Byte) : lenLo (setLenLo len b) = b := by
  apply BitVec.eq_of_toNat_eq
  have := b.isLt
  rw [lenLo_toNat, setLenLo_toNat]
  omega

/-- The invariant of a receive in progress after a byte: what may have changed is the control state, the length, the count,
the sum and the buffer (R189 to R195). -/
theorem inv_receiving {s : State} (h : Inv s) (hw : s.rxs ≠ .idle) {st : RxState} {len cnt : Half} {sum : Byte}
    {buf : Memory} (hform : Memory.wf buf = true) (hrange : ∀ c ∈ buf, c.1 < s.par.maxPayload)
    (hcounts : ReceiveCounts { s with rxs := st, rxlen := len, rxcnt := cnt, rxsum := sum, rxbuf := buf })
    (hsum : sum = xorAll (bytesRead { s with rxs := st, rxlen := len, rxcnt := cnt, rxsum := sum, rxbuf := buf })) :
    Inv { s with rxs := st, rxlen := len, rxcnt := cnt, rxsum := sum, rxbuf := buf } :=
  { h with
    rxbufForm := hform
    rxbufRange := hrange
    rxmaxRange := fun _ => h.rxmaxRange hw
    counts := hcounts
    sum := fun _ => hsum
    quiet := fun _ => h.quiet hw
    scanning := fun sc hsc => absurd (h.scanning sc hsc).1 hw }

/-- The sum of a receive in progress after one more byte is read (R34, R189). -/
theorem rxsum_read {s : State} (h : Inv s) (hw : s.rxs ≠ .idle) {b : Byte} {read : List Byte}
    (hread : read = bytesRead s ++ [b]) : s.rxsum ^^^ b = xorAll read := by
  rw [hread, xorAll_append, ← h.sum hw]
  simp [xorAll]

/-- The invariant of a receive after its header, with `cnt` payload bytes stored: the next byte is the checksum exactly when
that is all of them (R194, R195). -/
theorem inv_payload {s : State} (h : Inv s) (hw : s.rxs ≠ .idle) {st : RxState} {cnt : Half} {sum : Byte} {buf : Memory}
    (hst : st = if cnt = s.rxlen then .wCsum else .wData) (hcnt : cnt.toNat ≤ s.rxlen.toNat)
    (hlen : s.rxlen.toNat ≤ s.rxmax.toNat) (hform : Memory.wf buf = true) (hrange : ∀ c ∈ buf, c.1 < s.par.maxPayload)
    (hsum : sum = xorAll ([0x1B#8, s.seq, lenHi s.rxlen, lenLo s.rxlen, 0x0E#8] ++ Memory.firstBytes buf cnt.toNat)) :
    Inv { s with rxs := st, rxcnt := cnt, rxsum := sum, rxbuf := buf } := by
  by_cases hall : cnt = s.rxlen
  · rw [if_pos hall] at hst
    subst hst
    exact inv_receiving h hw hform hrange ⟨hall, hlen⟩ hsum
  · rw [if_neg hall] at hst
    subst hst
    have hne : cnt.toNat ≠ s.rxlen.toNat := fun heq => hall (BitVec.eq_of_toNat_eq heq)
    exact inv_receiving h hw hform hrange ⟨Nat.lt_of_le_of_ne hcnt hne, hlen⟩ hsum

/-- A receive step on a byte keeps the invariant. -/
theorem inv_recvByte {b : Byte} {s t : State} (h : Inv s) (hr : recvByte b s = .next t) : Inv t := by
  by_cases hw : s.rxs = .idle
  · rw [recvByte_idle b s hw] at hr
    cases hr
    exact h
  have hcounts := h.counts
  cases recvByte_cases hw hr with
  | failed kind info len hk => exact inv_raise h info len (s.rxsum ^^^ b) (by simp [hk])
  | start hst hb =>
    replace hst : s.rxs = .wStart := hst
    simp only [ReceiveCounts, hst] at hcounts
    refine inv_receiving h hw h.rxbufForm h.rxbufRange hcounts (rxsum_read h hw ?_)
    simp [bytesRead, hst, hb, Config.start]
  | seq hst hb =>
    replace hst : s.rxs = .wSeq := hst
    simp only [ReceiveCounts, hst] at hcounts
    refine inv_receiving h hw h.rxbufForm h.rxbufRange hcounts (rxsum_read h hw ?_)
    simp [bytesRead, hst, hb]
  | lenHi hst =>
    replace hst : s.rxs = .wLenHi := hst
    simp only [ReceiveCounts, hst] at hcounts
    refine inv_receiving h hw h.rxbufForm h.rxbufRange hcounts (rxsum_read h hw ?_)
    simp [bytesRead, hst, lenHi_setLenHi]
  | lenLo hst hlen =>
    replace hst : s.rxs = .wLenLo := hst
    simp only [ReceiveCounts, hst] at hcounts
    refine inv_receiving h hw h.rxbufForm h.rxbufRange ⟨hcounts, hlen⟩ (rxsum_read h hw ?_)
    simp [bytesRead, hst, lenHi_setLenLo, lenLo_setLenLo]
  | token hst hb =>
    replace hst : s.rxs = .wToken := hst
    simp only [ReceiveCounts, hst] at hcounts
    obtain ⟨hcnt, hlen⟩ := hcounts
    refine inv_payload h hw ?_ (by simp [hcnt]) hlen h.rxbufForm h.rxbufRange (rxsum_read h hw ?_)
    · simp only [hcnt, eq_comm]
    · simp [bytesRead, hst, hb, hcnt, Config.token, Memory.firstBytes]
  | data hst hin =>
    replace hst : s.rxs = .wData := hst
    simp only [ReceiveCounts, hst] at hcounts
    obtain ⟨hcnt, hlen⟩ := hcounts
    have hnext : (s.rxcnt + 1#16).toNat = s.rxcnt.toNat + 1 := by
      have := s.rxlen.isLt
      simp only [BitVec.toNat_add, BitVec.toNat_ofNat]
      omega
    refine inv_payload h hw rfl (hnext ▸ hcnt) hlen (Memory.wf_write h.rxbufForm _ _) ?_ (rxsum_read h hw ?_)
    · intro c hc
      rcases Memory.mem_write hc with hold | hnew
      · exact h.rxbufRange c hold
      · exact hnew ▸ hin
    · rw [hnext, Memory.firstBytes_write h.rxbufForm]
      simp [bytesRead, hst]
  | accepted hst =>
    exact
      { h with
        rxmaxRange := fun hn => absurd rfl hn
        counts := trivial
        sum := fun hn => absurd rfl hn
        quiet := fun hn => absurd rfl hn
        scanning := fun sc hsc => absurd (h.scanning sc hsc).1 hw }

/-- A receive step on the outcome of its wait keeps the invariant. -/
theorem inv_recvStep {d : Config.Draw} {s t : State} (h : Inv s) (hw : s.rxs ≠ .idle) (hr : recvStep d s = .next t) :
    Inv t := by
  cases d with
  | byte b => exact inv_recvByte h hr
  | timeout =>
    rw [recvStep_timeout hw] at hr
    cases hr
    exact inv_raise h _ s.rxlen s.rxsum rfl

/-- What bytes that arrive one after the other keep, if a receive step and a byte queued keep it. -/
theorem arriveAll_induction {P : State → Prop} (hbyte : ∀ b s t, P s → s.rxs ≠ .idle → recvByte b s = .next t → P t)
    (hqueue : ∀ b s, P s → P { s with rxq := s.rxq ++ [b] }) {bs : List Byte} {s t : State} (h : P s)
    (ha : arriveAll bs s = .next t) : P t := by
  induction bs generalizing s with
  | nil =>
    cases ha
    exact h
  | cons b bs ih =>
    rw [arriveAll, arrive_eq] at ha
    split at ha
    · rename_i hwait
      cases hu : recvByte b s with
      | next u => exact ih (hbyte b s u h hwait.1 hu) (by simpa [hu, andThen] using ha)
      | fault r => simp [hu, andThen] at ha
      | refused r => simp [hu, andThen] at ha
    · exact ih (hqueue b s h) ha

/-- Settles O50: by what the step does, each part with its own lemma. -/
theorem stepKeepsInvariant : Obligations.StepKeepsInvariant := by
  unfold Obligations.StepKeepsInvariant
  intro s t h hstep
  cases step_cases hstep with
  | reset => exact inv_resetEvent h.params
  | role sc => exact inv_scanStep h _
  | read b rest _ _ _ _ _ hr =>
    exact inv_recvByte (inv_environment h rest s.line s.waits s.cmds s.blist) hr
  | bytes bs e rest _ _ _ _ _ _ _ ha =>
    refine arriveAll_induction (fun _ _ _ hs _ hr => inv_recvByte hs hr) (fun b u hu => ?_)
      (inv_environment h s.rxq rest s.waits s.cmds s.blist) ha
    exact inv_environment hu (u.rxq ++ [b]) u.line u.waits u.cmds u.blist
  | silence rest =>
    have hline := inv_environment h s.rxq rest s.waits s.cmds s.blist
    exact inv_raise hline _ s.rxlen s.rxsum rfl
  | still rest => exact inv_environment h s.rxq rest s.waits s.cmds s.blist
  | draw _ _ _ hw _ _ hr =>
    exact inv_recvStep (inv_environment h s.rxq s.line (s.waits + 1) s.cmds s.blist) hw hr
  | waits => exact h
  | command i w rest _ _ hs hw _ _ hi hr =>
    have htaken : Inv (takeCommand w rest s) := inv_environment h s.rxq s.line s.waits rest _
    exact inv_command htaken hs hw (exec_command_cases hi hr)
  | illegal w rest _ _ hw =>
    have hdropped : Inv (dropCommand rest s) := inv_environment h s.rxq s.line s.waits rest s.blist
    exact inv_raise hdropped _ s.rxlen s.rxsum hw

/-- Settles O51: the state after reset is what the reset event leaves of it (R47, R280). -/
theorem resetMeetsInvariant : Obligations.ResetMeetsInvariant := by
  unfold Obligations.ResetMeetsInvariant
  exact inv_resetEvent (s := State.reset) rfl

/-- Settles O11: each register of `State.reset` is the value of R47. -/
theorem resetStateValues : Obligations.ResetStateValues := by
  unfold Obligations.ResetStateValues
  exact ⟨rfl, rfl, rfl, rfl, rfl, rfl, rfl, rfl, rfl, rfl, rfl, rfl, rfl, rfl, rfl, rfl⟩

/-! ### How a step of a receive ends -/

/-- The receive in progress in `s` is still in progress in `u`: nothing returned or recorded, the same frame awaited. -/
structure StillReceiving (s u : State) : Prop where
  waits : u.rxs ≠ .idle
  seq : u.seq = s.seq
  rxmax : u.rxmax = s.rxmax
  result : u.result = s.result
  err : u.err = s.err
  errinfo : u.errinfo = s.errinfo

/-- How steps of the receive in progress in `s` can leave it: it goes on, it has accepted a frame (R200), or it has failed
(R202). -/
inductive ReceiveEnds (s t : State) : Prop where
  | running (h : StillReceiving s t)
  | accepted (hidle : t.rxs = .idle) (hseq : t.seq = s.seq + 1#8) (v : Option Word) (p : List Byte)
      (hresult : t.result = some { status := okCode, value := v, payload := p }) (herr : t.err = s.err)
      (hinfo : t.errinfo = s.errinfo)
  | failed (kind : ErrKind) (hidle : t.rxs = .idle) (hseq : t.seq = s.seq)
      (hresult : t.result = some { status := errCode kind, value := none, payload := [] }) (herr : t.err = errCode kind)
      (hinfo : ReceiveInfo s t (errCode kind) t.errinfo)

/-- The information of a failure on a byte is what R241 lists for a receive. -/
theorem receiveInfo_of_failureInfo {b : Byte} {s u : State} {kind : ErrKind} {info len : Half}
    (hseq : u.seq = s.seq) (hmax : u.rxmax = s.rxmax) (h : FailureInfo b u kind info len) :
    ReceiveInfo s (raise kind info { u with rxlen := len }) (errCode kind) info := by
  cases kind with
  | badStart => exact .inr (.inl ⟨rfl, b, h⟩)
  | badSeq => exact .inr (.inr (.inl ⟨rfl, b, hseq ▸ h⟩))
  | badToken => exact .inr (.inr (.inr (.inl ⟨rfl, b, h⟩)))
  | tooLong => exact .inr (.inr (.inr (.inr (.inl ⟨rfl, hmax ▸ h⟩))))
  | checksum => exact .inr (.inr (.inr (.inr (.inr ⟨rfl, h⟩))))
  | timeout => exact h.elim
  | invalidTemplate => exact h.elim
  | templateRange => exact h.elim
  | templateLocked => exact h.elim
  | templateNotValid => exact h.elim
  | illegalOp => exact h.elim
  | payloadTooLong => exact h.elim

/-- A byte read while the receive is still in progress. -/
theorem recvByte_ends {b : Byte} {s u t : State} (h : StillReceiving s u) (hr : recvByte b u = .next t) :
    ReceiveEnds s t := by
  obtain ⟨hw, hseq, hmax, hresult, herr, hinfo⟩ := h
  cases recvByte_cases hw hr with
  | failed kind info len hk _ hfail =>
    exact .failed kind (by simp [hk]) hseq rfl rfl (receiveInfo_of_failureInfo hseq hmax hfail)
  | start => exact .running ⟨nofun, hseq, hmax, hresult, herr, hinfo⟩
  | seq => exact .running ⟨nofun, hseq, hmax, hresult, herr, hinfo⟩
  | lenHi => exact .running ⟨nofun, hseq, hmax, hresult, herr, hinfo⟩
  | lenLo => exact .running ⟨nofun, hseq, hmax, hresult, herr, hinfo⟩
  | token => exact .running ⟨by dsimp only; split <;> nofun, hseq, hmax, hresult, herr, hinfo⟩
  | data => exact .running ⟨by dsimp only; split <;> nofun, hseq, hmax, hresult, herr, hinfo⟩
  | accepted => exact .accepted rfl (congrArg (· + 1#8) hseq) _ _ rfl herr hinfo

/-- A timeout at a wait, with its state as the information (R201). -/
theorem timeout_ends {s u : State} (hseq : u.seq = s.seq) :
    ReceiveEnds s (raise .timeout ((rxCode s.rxs).setWidth 16) u) :=
  .failed .timeout rfl hseq rfl rfl (.inl ⟨rfl, rfl⟩)

/-- A byte queued behind a receive changes nothing of how it ended. -/
theorem receiveEnds_queue {s u : State} (h : ReceiveEnds s u) (q : List Byte) : ReceiveEnds s { u with rxq := q } := by
  cases h with
  | running h => exact .running { h with }
  | accepted hidle hseq v p hresult herr hinfo => exact .accepted hidle hseq v p hresult herr hinfo
  | failed kind hidle hseq hresult herr hinfo => exact .failed kind hidle hseq hresult herr hinfo

/-- A byte that arrives while a wait runs meets a receive that has not ended. -/
theorem ReceiveEnds.stillReceiving {s u : State} (h : ReceiveEnds s u) (hw : u.rxs ≠ .idle) : StillReceiving s u := by
  cases h with
  | running h => exact h
  | accepted hidle => exact absurd hidle hw
  | failed _ hidle => exact absurd hidle hw

/-- How a step of a receive leaves it. -/
theorem step_receive_ends {s t : State} (hp : s.resetPin = false) (hs : s.scan = none) (hw : s.rxs ≠ .idle)
    (h : step s = .next t) : ReceiveEnds s t ∧ t.cfgf = s.cfgf := by
  have still (q : List Byte) (l : List LineEvent) (n : Nat) :
      StillReceiving s { s with rxq := q, line := l, waits := n } := ⟨hw, rfl, rfl, rfl, rfl, rfl⟩
  cases step_cases h with
  | read b rest _ _ _ _ _ hr => exact ⟨recvByte_ends (still rest s.line s.waits) hr, (recvByte_keeps hr).1.cfgf⟩
  | bytes bs e rest _ _ _ _ _ _ _ ha =>
    refine ⟨?_, (arriveAll_keeps ha).1.cfgf⟩
    exact arriveAll_induction (fun _ _ _ hu hwu hr => recvByte_ends (hu.stillReceiving hwu) hr)
      (fun b u hu => receiveEnds_queue hu (u.rxq ++ [b])) (.running (still s.rxq rest s.waits)) ha
  | silence rest => exact ⟨timeout_ends rfl, by simp [isConfiguration]⟩
  | draw _ _ _ _ _ _ hr =>
    have hkeeps : t.cfgf = s.cfgf := (recvStep_keeps (by exact hw) hr).cfgf
    refine ⟨?_, hkeeps⟩
    cases hd : Config.lineDraw s.waits with
    | byte b => exact recvByte_ends (still s.rxq s.line (s.waits + 1)) (by rwa [hd] at hr)
    | timeout =>
      rw [hd, recvStep_timeout (by exact hw)] at hr
      cases hr
      exact timeout_ends rfl
  | reset hr => simp [hr] at hp
  | role sc _ hsc => simp [hsc] at hs
  | still _ _ _ hi => exact absurd hi hw
  | waits _ _ hi => exact absurd hi hw
  | command _ _ _ _ _ _ hi => exact absurd hi hw
  | illegal _ _ _ _ hi => exact absurd hi hw

/-! ### One step, by the unit that takes it -/

/-- What one step does where no reset is pending: a position of a scan, a step of a receive, the host's next operation or
its refusal; or the block is idle, and at most the line and `RXQ` change. -/
inductive StepOutcome (s : State) : State → Prop where
  | scanned (w : Word) (sc : Option Scan) (r : Option Result) : StepOutcome s { s with buf := w, scan := sc, result := r }
  | received (t : State) (hw : s.rxs ≠ .idle) (hcodec : SameCodec t s) (hcfgf : t.cfgf = s.cfgf)
      (hends : ReceiveEnds s t) : StepOutcome s t
  | commanded (i : Instr) (w : Cmd) (rest : List Cmd) (t : State) (h : CommandCase i (takeCommand w rest s) t) :
      StepOutcome s t
  | refused (w : Cmd) (rest : List Cmd) : StepOutcome s (illegalCommand w (dropCommand rest s))
  | idle (q : List Byte) (l : List LineEvent) : StepOutcome s { s with rxq := q, line := l }

/-- Bytes that arrive at an idle block are queued (R64). -/
theorem arriveAll_idle {bs : List Byte} {s : State} (hidle : s.rxs = .idle) :
    arriveAll bs s = .next { s with rxq := s.rxq ++ bs } := by
  induction bs generalizing s with
  | nil => simp [arriveAll]
  | cons b bs ih =>
    rw [arriveAll, arrive_eq, if_neg (fun h => h.1 hidle)]
    simpa [andThen] using ih (s := { s with rxq := s.rxq ++ [b] }) hidle

/-- Every step without a reset is one of these. -/
theorem step_outcome {s t : State} (hp : s.resetPin = false) (h : step s = .next t) : StepOutcome s t := by
  by_cases hreceive : s.scan = none ∧ s.rxs ≠ .idle
  · obtain ⟨hs, hw⟩ := hreceive
    obtain ⟨hends, hcfgf⟩ := step_receive_ends hp hs hw h
    exact .received t hw (step_waiting_keeps hp hs hw h).1 hcfgf hends
  cases step_cases h with
  | reset hr => simp [hr] at hp
  | role sc =>
    obtain ⟨w, sc', r, heq⟩ := scanStep_frame (fun op k c => roleAct op s.resp k (decodeRole (scanCode sc s)) c) s
    rw [heq]
    exact .scanned w sc' r
  | read _ _ _ _ hs hw => exact absurd ⟨hs, hw⟩ hreceive
  | bytes bs e rest _ _ hs _ _ _ _ ha =>
    have hidle : s.rxs = .idle := by
      by_contra hw
      exact hreceive ⟨hs, hw⟩
    rw [arriveAll_idle (by exact hidle)] at ha
    cases ha
    exact .idle (s.rxq ++ bs) rest
  | silence _ _ hs hw => exact absurd ⟨hs, hw⟩ hreceive
  | still rest => exact .idle s.rxq rest
  | draw _ _ hs hw => exact absurd ⟨hs, hw⟩ hreceive
  | waits => exact .idle s.rxq s.line
  | command i w rest _ _ _ _ _ _ hi hr => exact .commanded i w rest t (exec_command_cases hi hr)
  | illegal w rest => exact .refused w rest

/-- Settles O53: a step of a receive that accepts is the only one that writes `SEQ`. -/
theorem seqAdvancesOnAcceptanceOnly : Obligations.SeqAdvancesOnAcceptanceOnly := by
  unfold Obligations.SeqAdvancesOnAcceptanceOnly
  intro s t hp hstep
  cases step_outcome hp hstep with
  | received _ hw _ _ hends =>
    cases hends with
    | running h => exact .inl h.seq
    | accepted hidle hseq v p hresult =>
      have hnext : t.seq = BitVec.ofNat 8 ((s.seq.toNat + 1) % 256) := by
        rw [hseq]
        apply BitVec.eq_of_toNat_eq
        simp
      exact .inr ⟨hw, hidle, hnext, _, hresult, rfl⟩
    | failed _ _ hseq => exact .inl hseq
  | commanded i w rest _ hc => cases hc <;> exact .inl rfl
  | scanned => exact .inl rfl
  | refused => exact .inl rfl
  | idle => exact .inl rfl

/-- Settles O54: only TPLLOAD writes the template store, and only at a slot that is not valid. -/
theorem validTemplatesAreImmutable : Obligations.ValidTemplatesAreImmutable := by
  unfold Obligations.ValidTemplatesAreImmutable
  intro s t slot hp hstep hvalid
  cases step_outcome hp hstep with
  | received _ _ hcodec =>
    obtain ⟨htpl, htplv, -⟩ := hcodec
    exact ⟨htplv ▸ hvalid, fun k _ => by rw [htpl]⟩
  | commanded i w rest _ hc =>
    cases hc with
    | loaded u roles _ _ hfree hlen =>
      have hne : slot ≠ u := by
        rintro rfl
        simp [hvalid] at hfree
      exact ⟨by simp [setValid_getLsbD, hvalid], fun k hk => Memory.read_load_other s.tpl hne hlen hk⟩
    | raised => exact ⟨hvalid, fun _ _ => rfl⟩
    | receiving => exact ⟨hvalid, fun _ _ => rfl⟩
    | sent => exact ⟨hvalid, fun _ _ => rfl⟩
    | plain => exact ⟨hvalid, fun _ _ => rfl⟩
  | scanned => exact ⟨hvalid, fun _ _ => rfl⟩
  | refused => exact ⟨hvalid, fun _ _ => rfl⟩
  | idle => exact ⟨hvalid, fun _ _ => rfl⟩

/-- An error never clears `CFGF` (R39, R250). -/
theorem raise_cfgf_of_set {kind : ErrKind} {info : Half} {s : State} (h : s.cfgf = true) :
    (raise kind info s).cfgf = true := by simp [h]

/-- Settles O56: only `raise` writes the flag, and it never clears it. -/
theorem configurationFaultIsSticky : Obligations.ConfigurationFaultIsSticky := by
  unfold Obligations.ConfigurationFaultIsSticky
  intro s t hp hstep hset
  cases step_outcome hp hstep with
  | received _ _ _ hcfgf => exact hcfgf ▸ hset
  | commanded i w rest _ hc =>
    cases hc with
    | raised => exact raise_cfgf_of_set hset
    | receiving => exact hset
    | sent => exact hset
    | loaded => exact hset
    | plain => exact hset
  | refused => exact raise_cfgf_of_set hset
  | scanned => exact hset
  | idle => exact hset

/-! ### The error record of an operation of the host (R241) -/

/-- `0x8000 | (k << 8) | code` as a number: the three parts hold disjoint bits (R131 line 4, R241). -/
theorem undefinedInfo_eq {k : Nat} (hk : k < 32) (code : Byte) :
    undefinedInfo k code = BitVec.ofNat 16 (0x8000 + 256 * k + code.toNat) := by
  have hcode := code.isLt
  have hlow : 2 ^ 8 * k ||| code.toNat = 2 ^ 8 * k + code.toNat :=
    (Nat.two_pow_add_eq_or_of_lt (i := 8) hcode k).symm
  have hhigh : 2 ^ 15 * 1 ||| (2 ^ 8 * k + code.toNat) = 2 ^ 15 * 1 + (2 ^ 8 * k + code.toNat) :=
    (Nat.two_pow_add_eq_or_of_lt (i := 15) (by omega) 1).symm
  have hshift : (BitVec.ofNat 16 k <<< 8).toNat = 2 ^ 8 * k := by
    simp only [BitVec.toNat_shiftLeft, BitVec.toNat_ofNat, Nat.shiftLeft_eq]
    omega
  have hinfo : (info8 code).toNat = code.toNat := by
    rw [info8, BitVec.toNat_setWidth]
    omega
  apply BitVec.eq_of_toNat_eq
  calc (undefinedInfo k code).toNat
      = 2 ^ 15 * 1 ||| (2 ^ 8 * k ||| code.toNat) := by
        simp only [undefinedInfo, BitVec.toNat_or, hshift, hinfo, Nat.or_assoc, BitVec.toNat_ofNat]
        rfl
    _ = 0x8000 + 256 * k + code.toNat := by rw [hlow, hhigh]; omega
    _ = (BitVec.ofNat 16 (0x8000 + 256 * k + code.toNat)).toNat := by
        rw [BitVec.toNat_ofNat]
        omega

/-- What the search for an undefined code finds stands in the list, and is undefined (R131 line 4). -/
theorem firstUndefined_found {n k : Nat} {roles : List Byte} {c : Byte} (h : firstUndefined n roles = some (k, c)) :
    ∃ j, k = n + j ∧ roles[j]? = some c ∧ roleDefined c = false := by
  induction roles generalizing n with
  | nil => cases h
  | cons d ds ih =>
    rw [firstUndefined] at h
    split at h
    · obtain ⟨j, hk, hj, hc⟩ := ih h
      exact ⟨j + 1, by omega, by simpa using hj, hc⟩
    · rename_i hd
      cases h
      exact ⟨0, rfl, rfl, by simpa using hd⟩

/-- Whatever error the outcome raises on `s` carries the information R241 lists for the operation. -/
def RaisesListed (i : Instr) (s : State) (o : Host.Outcome State Fault Refusal) : Prop :=
  ∀ kind info, o = .next (raise kind info s) → CommandInfo i (errCode kind) info

/-- An error with listed information: its code and its information are all that is looked at. -/
theorem raisesListed_raise {i : Instr} {s : State} {kind : ErrKind} {info : Half}
    (h : CommandInfo i (errCode kind) info) : RaisesListed i s (.next (raise kind info s)) := by
  intro kind' info' heq
  have hstate : raise kind info s = raise kind' info' s := Host.Outcome.next.inj heq
  have hcode : errCode kind = errCode kind' := congrArg State.err hstate
  have hinfo : info = info' := congrArg State.errinfo hstate
  exact hcode ▸ hinfo ▸ h

/-- An operation that ends `OK` raises nothing. -/
theorem raisesListed_endOk {i : Instr} {s u : State} {v : Option Word} {p : List Byte} :
    RaisesListed i s (.next (endOk v p u)) := by
  intro kind info heq
  have hport := congrArg State.result (Host.Outcome.next.inj heq)
  simp only [endOk_result, raise_result, Option.some.injEq, Result.mk.injEq] at hport
  exact absurd hport.1.symm (errCode_ne_ok kind)

/-- The errors of a slot carry its number (R241). -/
theorem commandInfo_slot {i : Instr} {t : Byte} (ht : slotOf i = some t) {kind : ErrKind}
    (hk : errCode kind ∈ [0x41#8, 0x42#8, 0x43#8]) : CommandInfo i (errCode kind) (info8 t) :=
  .inr (.inr (.inl ⟨hk, t, ht, rfl⟩))

theorem raisesListed_rangeCheck {i : Instr} {t : Byte} {s : State} {go : Host.Outcome State Fault Refusal}
    (ht : slotOf i = some t) (hgo : RaisesListed i s go) : RaisesListed i s (rangeCheck t s go) := by
  rw [rangeCheck_eq]
  split
  · exact hgo
  · exact raisesListed_raise (commandInfo_slot ht (by decide))

/-- A codec operation raises the errors of its template check only (R138). -/
theorem raisesListed_codecOp {i : Instr} {t : Byte} (ht : slotOf i = some t) (op : ScanOp) (s : State) :
    RaisesListed i s (templateCheck t s (.next (codecOp op t s))) := by
  refine raisesListed_rangeCheck ht ?_
  split
  · exact raisesListed_endOk
  · exact raisesListed_raise (commandInfo_slot ht (by decide))

/-- TPLLOAD: a slot that is valid already, a wrong count, an undefined code (R131). -/
theorem raisesListed_tplload (t : Byte) (roles : List Byte) (s : State) :
    RaisesListed (.tplload t roles) s (execTplload t roles s) := by
  refine raisesListed_rangeCheck rfl ?_
  split
  · exact raisesListed_raise (commandInfo_slot rfl (by decide))
  · split
    · rename_i hlen
      exact raisesListed_raise (.inl ⟨rfl, hlen, rfl⟩)
    · rename_i hlen
      have hlen : roles.length = 32 := by simpa [Config.wordW] using hlen
      split
      · rename_i k c hfound
        obtain ⟨j, hkj, hj, hc⟩ := firstUndefined_found hfound
        obtain rfl : k = j := by omega
        obtain ⟨hlt, -⟩ := List.getElem?_eq_some_iff.mp hj
        exact raisesListed_raise (.inr (.inl ⟨rfl, k, c, hj, hc, undefinedInfo_eq (hlen ▸ hlt) c⟩))
      · exact raisesListed_endOk

/-- Every error of an operation of the host carries the information R241 lists for it. -/
theorem exec_raisesListed {i : Instr} (hi : IsCommand i) (s : State) : RaisesListed i s (exec i s) := by
  cases i with
  | tplload t roles => exact raisesListed_tplload t roles s
  | tplvalid t => exact raisesListed_rangeCheck rfl raisesListed_endOk
  | encfix t => exact raisesListed_codecOp rfl _ s
  | encaddr t a => exact raisesListed_codecOp rfl _ s
  | encin t d => exact raisesListed_codecOp rfl _ s
  | decout t => exact raisesListed_codecOp rfl _ s
  | outidx t => exact raisesListed_codecOp rfl _ s
  | send payload =>
    simp only [exec, execSend]
    split
    · exact raisesListed_endOk
    · exact raisesListed_raise (.inr (.inr (.inr ⟨rfl, rfl⟩)))
  | recv m =>
    intro kind info heq
    have hport := congrArg State.result (Host.Outcome.next.inj heq)
    simp at hport
  | ldbuf w => exact raisesListed_endOk
  | rdbuf => exact raisesListed_endOk
  | ldresp w => exact raisesListed_endOk
  | rdseq => exact raisesListed_endOk
  | rderr => exact raisesListed_endOk
  | roleF0 => exact hi.elim
  | roleF1 => exact hi.elim
  | roleX => exact hi.elim
  | roleA n => exact hi.elim
  | roleI n => exact hi.elim
  | roleO n => exact hi.elim
  | frameHeader seq hi' lo => exact hi.elim

/-- Settles O57: an operation by how it ends, its errors with the information of `exec_raisesListed`; a step of a receive by
how it leaves the receive. -/
theorem errorRecordTellsLastFailure : Obligations.ErrorRecordTellsLastFailure := by
  unfold Obligations.ErrorRecordTellsLastFailure
  refine ⟨fun i s t hi hexec => ?_, fun s t hp hs hw hstep => ?_⟩
  · cases exec_command_cases hi hexec with
    | raised kind info =>
      have hlisted : CommandInfo i (errCode kind) info := exec_raisesListed hi s kind info hexec
      have hflag : isConfiguration kind = decide (errCode kind ∈ [0x40#8, 0x41#8, 0x42#8, 0x43#8]) := by
        simp only [errCode_mem_configuration, Bool.decide_eq_true]
      exact .inr ⟨_, rfl, fun hok => absurd hok (errCode_ne_ok kind),
        fun _ => ⟨rfl, hlisted, rfl, rfl, by rw [raise_cfgf, hflag]⟩⟩
    | receiving => exact .inl ⟨rfl, rfl, rfl, rfl⟩
    | sent => exact .inr ⟨_, rfl, fun _ => ⟨rfl, rfl, rfl⟩, fun hne => absurd rfl hne⟩
    | loaded => exact .inr ⟨_, rfl, fun _ => ⟨rfl, rfl, rfl⟩, fun hne => absurd rfl hne⟩
    | plain => exact .inr ⟨_, rfl, fun _ => ⟨rfl, rfl, rfl⟩, fun hne => absurd rfl hne⟩
  · obtain ⟨hends, hcfgf⟩ := step_receive_ends hp hs hw hstep
    refine ⟨hcfgf, ?_⟩
    cases hends with
    | running h => exact .inl ⟨h.waits, h.result, h.err, h.errinfo⟩
    | accepted hidle _ v p hresult herr hinfo =>
      exact .inr ⟨hidle, _, hresult, fun _ => ⟨herr, hinfo⟩, fun hne => absurd rfl hne⟩
    | failed kind hidle _ hresult herr hinfo =>
      exact .inr ⟨hidle, _, hresult, fun hok => absurd hok (errCode_ne_ok kind),
        fun _ => ⟨herr, hinfo, rfl, rfl⟩⟩

end Sys2Proof.Machine

/-! PROOFS of the family 20_memory.md. The two streams (R60 to R64): what a step does to them, from the inversion of the step;
and what the line brings to a wait and to an idle block, by what a step runs in each. -/

namespace Sys2Proof.Machine

/-! ### What a step does to the streams (R60, R61, R62, R71) -/

/-- Both streams grow at their ends, or stay. -/
def StreamsGrow (s t : State) : Prop :=
  (∃ sent, t.txs = s.txs ++ sent) ∧ ∃ arrived, t.rxq = s.rxq ++ arrived

theorem streamsGrow_of_eq {s t : State} (htxs : t.txs = s.txs) (hrxq : t.rxq = s.rxq) : StreamsGrow s t :=
  ⟨⟨[], by simp [htxs]⟩, [], by simp [hrxq]⟩

/-- Of the operations of the host only SEND touches a stream: it appends a frame to `TXS` (R61, R170). -/
theorem commandCase_streamsGrow {i : Instr} {s t : State} (h : CommandCase i s t) : StreamsGrow s t := by
  cases h with
  | sent payload =>
    rw [sendFrame_eq]
    exact ⟨⟨_, List.append_assoc s.txs _ _⟩, [], by simp⟩
  | raised => exact streamsGrow_of_eq rfl rfl
  | receiving => exact streamsGrow_of_eq rfl rfl
  | loaded => exact streamsGrow_of_eq rfl rfl
  | plain => exact streamsGrow_of_eq rfl rfl

/-- A receive step on the outcome of its wait leaves the bytes still queued where they are (R62). -/
theorem recvStep_rxq {d : Config.Draw} {s t : State} (hw : s.rxs ≠ .idle) (h : recvStep d s = .next t) :
    t.rxq = s.rxq := by
  cases d with
  | byte b => exact (recvByte_keeps h).2
  | timeout =>
    rw [recvStep_timeout hw] at h
    cases h
    rfl

/-- A step lets the streams grow, or it is a read of the head of `RXQ`, which adds no byte to either. -/
theorem step_streams {s t : State} (h : step s = .next t) :
    StreamsGrow s t ∨ (t.txs = s.txs ∧ t.rxq = s.rxq.drop 1) := by
  cases step_cases h with
  | read b rest _ _ _ _ hq hr =>
    obtain ⟨hkeeps, hrxq⟩ := recvByte_keeps hr
    exact .inr ⟨hkeeps.txs, by simp [hrxq, hq]⟩
  | bytes _ _ _ _ _ _ _ _ _ _ ha =>
    obtain ⟨hkeeps, queued⟩ := arriveAll_keeps ha
    exact .inl ⟨⟨[], by simp [hkeeps.txs]⟩, queued⟩
  | draw _ _ _ hw _ _ hr =>
    have hdrawn : ({ s with waits := s.waits + 1 } : State).rxs ≠ .idle := hw
    have hrxq := recvStep_rxq hdrawn hr
    exact .inl (streamsGrow_of_eq (recvStep_keeps hdrawn hr).txs hrxq)
  | role sc =>
    obtain ⟨w, sc', r, heq⟩ := scanStep_frame (fun op k c => roleAct op s.resp k (decodeRole (scanCode sc s)) c) s
    rw [heq]
    exact .inl (streamsGrow_of_eq rfl rfl)
  | command i w rest _ _ _ _ _ _ hi hr =>
    have htaken : StreamsGrow (takeCommand w rest s) t := commandCase_streamsGrow (exec_command_cases hi hr)
    exact .inl htaken
  | reset => exact .inl (streamsGrow_of_eq rfl rfl)
  | silence => exact .inl (streamsGrow_of_eq rfl rfl)
  | still => exact .inl (streamsGrow_of_eq rfl rfl)
  | waits => exact .inl (streamsGrow_of_eq rfl rfl)
  | illegal => exact .inl (streamsGrow_of_eq rfl rfl)

/-- Settles O55: the streams grow, except that a read takes the head of `RXQ`. -/
theorem streamsAreSequences : Obligations.StreamsAreSequences := by
  unfold Obligations.StreamsAreSequences
  intro s t hstep
  rcases step_streams hstep with ⟨sent, arrived, harrived⟩ | ⟨htxs, hrxq⟩
  · exact ⟨sent, arrived, .inl harrived⟩
  · exact ⟨⟨[], by simp [htxs]⟩, [], .inr (by simp [hrxq])⟩

/-! ### What the line brings (R62, R63, R64) -/

/-- A wait with nothing queued is decided by the line (R62). -/
theorem step_waiting_empty {s : State} {st : RxState} (h : Waiting s st) (hq : s.rxq = []) : step s = lineStep s := by
  obtain ⟨hp, hs, rfl, hw⟩ := h
  simp [step_waiting hp hs hw, receiveStep, hq]

/-- A wait takes the one byte that is queued: a receive step on it, from the state with nothing queued. -/
theorem step_waiting_queued {s : State} {st : RxState} (h : Waiting s st) (hq : s.rxq = []) (b : Byte) :
    step { s with rxq := [b] } = recvByte b s := by
  obtain ⟨hp, hs, rfl, hw⟩ := h
  have hempty : { s with rxq := [] } = s := by rw [← hq]
  rw [step_waiting (by exact hp) (by exact hs) (by exact hw)]
  exact congrArg (recvByte b) hempty

/-- A wait on an empty queue takes a byte that arrives (R62). -/
theorem arrive_waiting {s : State} {st : RxState} (h : Waiting s st) (hq : s.rxq = []) (b : Byte) :
    arrive b s = recvByte b s := by
  obtain ⟨-, -, rfl, hw⟩ := h
  rw [arrive_eq, if_pos ⟨hw, hq⟩]

/-- With no command, an idle block does what the line brings (R64, R282). -/
theorem step_ready_lineStep {s : State} (h : Ready s) (hc : s.cmds = []) : step s = lineStep s := by
  obtain ⟨hp, hs, hidle⟩ := h
  simp [step_ready hp hs hidle, commandStep, hc]

/-- At an idle block a byte that arrives is queued (R64). -/
theorem arrive_ready {s : State} (h : Ready s) (b : Byte) : arrive b s = .next { s with rxq := s.rxq ++ [b] } := by
  obtain ⟨-, -, hidle⟩ := h
  rw [arrive_eq, if_neg (fun hwait => hwait.1 hidle)]

/-- At an idle block a silence of the line means nothing (R186). -/
theorem recvStep_timeout_ready {s : State} (h : Ready s) : recvStep .timeout s = .next s := by
  obtain ⟨-, -, hidle⟩ := h
  simp [recvStep, hidle]

/-- A wait past the listed line is a receive step on a free draw (log 3); a timeout is what a listed silence gives, a byte
what a queued one gives. -/
theorem step_waiting_drawn {s : State} {st : RxState} (h : Waiting s st) (hq : s.rxq = []) (hl : s.line = []) :
    step s = step { s with waits := s.waits + 1, line := [.silence] } ∨
    ∃ b : Byte, step s = step { s with waits := s.waits + 1, rxq := [b] } := by
  have ⟨_, _, hst, hne⟩ := h
  have hdrawn : Waiting { s with waits := s.waits + 1 } st := h
  have hsilent : Waiting { s with waits := s.waits + 1, line := [.silence] } st := h
  rw [step_waiting_empty h hq, lineStep_drawn hl (hst ▸ hne)]
  cases Config.lineDraw s.waits with
  | timeout =>
    rw [step_waiting_empty hsilent hq, lineStep_silence rfl]
    exact .inl (by rw [← hl])
  | byte b => exact .inr ⟨b, (step_waiting_queued hdrawn hq b).symm⟩

/-- Settles O40: by what the line decides at a wait and at an idle block, and the free draw past its end. -/
theorem lineOutcomes : Obligations.LineOutcomes := by
  unfold Obligations.LineOutcomes
  refine ⟨fun s st b rest h hq hl => ?_, fun s b rest h hc hl => ?_, fun s rest h hc hl => ?_,
    fun s st h hq hl => step_waiting_drawn h hq hl⟩
  · have hrest : Waiting { s with line := rest } st := h
    rw [step_waiting_empty h hq, lineStep_byte hl, arrive_waiting hrest hq]
    exact (step_waiting_queued hrest hq b).symm
  · rw [step_ready_lineStep h hc, lineStep_byte hl]
    exact arrive_ready (s := { s with line := rest }) h b
  · rw [step_ready_lineStep h hc, lineStep_silence hl]
    exact recvStep_timeout_ready (s := { s with line := rest }) h

end Sys2Proof.Machine

/-! PROOFS of the family 30_encoding.md. The decoder and the encoder by the fields of their words, one lemma per format; what
the role of a position does in a scan, and the 32 steps of a scan; and the five bytes of a header, taken by the rules of the
waiting states or one event of the line at a time. -/

namespace Sys2Proof

/-! ### Decoding a command word by its fields (R110, R112) -/

/-- A word with the `op` value of an operation is decoded as that operation. -/
theorem decode_mkCmd (op : Op) (t : Byte) (imm : Word) (bytes : List Byte) :
    decode (.cmd (mkCmd (opByte op) t imm) bytes) = decodeOp op (mkCmd (opByte op) t imm) bytes := by
  have hop : opOfByte (cmdOp (mkCmd (opByte op) t imm)) = some op := by
    rw [cmdOp_mkCmd, opOfByte_eq_some]
  simp only [decode, decodeCmd, hop]

/-- The length of the byte list by operation (R111). -/
theorem listLen_mkCmd (op : Op) (t : Byte) (imm : Word) :
    listLen (mkCmd (opByte op) t imm) = match op with
      | .tplload => (imm8 imm).toNat
      | .send => (imm16 imm).toNat
      | _ => 0 := by
  have hop : opOfByte (cmdOp (mkCmd (opByte op) t imm)) = some op := by
    rw [cmdOp_mkCmd, opOfByte_eq_some]
  rw [listLen, hop, cmdImm_mkCmd]
  cases op <;> rfl

/-- A command word that decodes has the `op` value of an operation, and is that value with its two other fields. -/
theorem decode_cmd_ok {w : Cmd} {bytes : List Byte} {i : Instr} (h : decode (.cmd w bytes) = .ok i) :
    ∃ op t imm, w = mkCmd (opByte op) t imm := by
  simp only [decode, decodeCmd] at h
  split at h
  · rename_i op hop
    rw [opOfByte_eq_some] at hop
    exact ⟨op, cmdT w, cmdImm w, by rw [← hop, mkCmd_fields]⟩
  · cases h

/-- A command without byte list decodes when its unused fields are zero, to its instruction (R112, R116). -/
theorem whenZero_eq_ok {z : Bool} {op : Byte} {i j : Instr} : whenZero z op j = .ok i ↔ z = true ∧ j = i := by
  cases z <;> simp [whenZero]

/-- A command with a byte list needs the list too (R111). -/
theorem whenListed_eq_ok {z : Bool} {op : Byte} {n : Nat} {bytes : List Byte} {mk : List Byte → Instr} {i : Instr} :
    whenListed z op n bytes mk = .ok i ↔ z = true ∧ n ≤ bytes.length ∧ mk (bytes.take n) = i := by
  by_cases hn : n ≤ bytes.length <;> cases z <;> simp [whenListed, hn]

/-! ### Role codes by their roles (R92) -/

/-- What a role code stands for is the role it was made from (R92). -/
theorem decodeRole_encodeRole (r : Role) : decodeRole (encodeRole r) = some r := by
  cases r with
  | f0 | f1 | x => rfl
  | a n | i n | o n => simp [decodeRole, encodeRole]

/-- A code stands for a role exactly when it is the code of that role (R92). -/
theorem decodeRole_eq_some {code : Byte} {r : Role} : decodeRole code = some r ↔ code = encodeRole r := by
  constructor
  · intro h
    rw [← roleCode_fields code]
    have tag_eq {k : Nat} (hk : (roleTag code).toNat = k) : roleTag code = BitVec.ofNat 3 k := by
      rw [← hk, BitVec.ofNat_toNat, BitVec.setWidth_eq]
    simp only [decodeRole] at h
    split at h
    iterate 3
      · rename_i htag
        split at h <;> cases h
        rename_i hindex
        rw [tag_eq htag, hindex]
        rfl
    iterate 3
      · rename_i htag
        cases h
        rw [tag_eq htag]
        rfl
    · cases h
  · rintro rfl
    exact decodeRole_encodeRole r

/-- The instruction of a role (R91, R92). -/
def instrOfRole : Role → Instr
  | .f0 => .roleF0
  | .f1 => .roleF1
  | .x => .roleX
  | .a n => .roleA n
  | .i n => .roleI n
  | .o n => .roleO n

/-- The encoder writes a role's instruction as the role's code. -/
theorem encode_instrOfRole (r : Role) : encode (instrOfRole r) = .role (encodeRole r) := by cases r <;> rfl

/-- A role code decodes to the instruction of the role whose code it is. -/
theorem decode_role_eq_ok {code : Byte} {i : Instr} :
    decode (.role code) = .ok i ↔ ∃ r, code = encodeRole r ∧ i = instrOfRole r := by
  simp only [← decodeRole_eq_some, decode, decodeRoleWord]
  cases decodeRole code with
  | none => simp
  | some r => cases r <;> simp [instrOfRole, eq_comm]

/-- A role's instruction comes back from its code. -/
theorem decode_encode_instrOfRole (r : Role) : decode (encode (instrOfRole r)) = .ok (instrOfRole r) := by
  rw [encode_instrOfRole]
  exact decode_role_eq_ok.mpr ⟨r, rfl, rfl⟩

/-! ### Headers by their bytes (R100) -/

/-- A header made of the marker, three bytes and the token decodes to the three bytes (R100). -/
theorem decodeHeader_headerWord (seq hi lo : Byte) :
    decode (.header (headerWord Config.start seq hi lo Config.token)) = .ok (.frameHeader seq hi lo) := by
  have h := headerBytes_headerWord Config.start seq hi lo Config.token
  simp only [headerBytes, List.cons.injEq] at h
  simp [decode, decodeHeader, h]

/-- A header that decodes is the encoding of what it decodes to. -/
theorem encode_of_decode_header {h : Header} {i : Instr} (hd : decode (.header h) = .ok i) :
    encode i = .header h := by
  simp only [decode, decodeHeader] at hd
  split at hd
  · rename_i hmarks
    obtain ⟨hstart, htoken⟩ := hmarks
    cases hd
    rw [encode, ← hstart, ← htoken, headerWord_fields]
  · cases hd

/-! ### Decoding and encoding (R92, R100, R112) -/

/-- Settles O2: a command by the fields of its word and the length of its list, a role by its code, a header by its bytes. -/
theorem decodeOfEncode : Obligations.DecodeOfEncode := by
  unfold Obligations.DecodeOfEncode
  intro i hwf
  cases i with
  | tplload t roles =>
    have hlen : roles.length ≤ 255 := of_decide_eq_true hwf
    have hcount : (BitVec.ofNat 8 roles.length).toNat = roles.length := by simp; omega
    refine (decode_mkCmd .tplload t _ roles).trans (whenListed_eq_ok.mpr ?_)
    rw [listLen_mkCmd]
    simp [hcount]
  | send payload =>
    have hlen : payload.length ≤ 65535 := of_decide_eq_true hwf
    have hcount : (BitVec.ofNat 16 payload.length).toNat = payload.length := by simp; omega
    refine (decode_mkCmd .send 0#8 _ payload).trans (whenListed_eq_ok.mpr ?_)
    rw [listLen_mkCmd]
    simp [hcount]
  | tplvalid t => exact (decode_mkCmd .tplvalid t _ []).trans (whenZero_eq_ok.mpr (by simp))
  | encfix t => exact (decode_mkCmd .encfix t _ []).trans (whenZero_eq_ok.mpr (by simp))
  | encaddr t address => exact (decode_mkCmd .encaddr t address []).trans (by simp [decodeOp])
  | encin t data => exact (decode_mkCmd .encin t _ []).trans (whenZero_eq_ok.mpr (by simp))
  | decout t => exact (decode_mkCmd .decout t _ []).trans (whenZero_eq_ok.mpr (by simp))
  | outidx t => exact (decode_mkCmd .outidx t _ []).trans (whenZero_eq_ok.mpr (by simp))
  | recv m => exact (decode_mkCmd .recv _ _ []).trans (whenZero_eq_ok.mpr (by simp))
  | ldbuf w => exact (decode_mkCmd .ldbuf _ w []).trans (whenZero_eq_ok.mpr (by simp))
  | rdbuf => exact (decode_mkCmd .rdbuf _ _ []).trans (whenZero_eq_ok.mpr (by simp))
  | ldresp w => exact (decode_mkCmd .ldresp _ w []).trans (whenZero_eq_ok.mpr (by simp))
  | rdseq => exact (decode_mkCmd .rdseq _ _ []).trans (whenZero_eq_ok.mpr (by simp))
  | rderr => exact (decode_mkCmd .rderr _ _ []).trans (whenZero_eq_ok.mpr (by simp))
  | roleF0 => exact decode_encode_instrOfRole .f0
  | roleF1 => exact decode_encode_instrOfRole .f1
  | roleX => exact decode_encode_instrOfRole .x
  | roleA n => exact decode_encode_instrOfRole (.a n)
  | roleI n => exact decode_encode_instrOfRole (.i n)
  | roleO n => exact decode_encode_instrOfRole (.o n)
  | frameHeader seq hi lo => exact decodeHeader_headerWord seq hi lo

/-- The count field of a list whose length it names is the whole immediate (R111, R131). -/
theorem setWidth_count8 {imm : Word} {l : List Byte} (hlen : l.length = (imm8 imm).toNat) (h : immAbove8 imm = 0#24) :
    (BitVec.ofNat 8 l.length).setWidth 32 = imm := by
  rw [hlen, BitVec.ofNat_toNat, BitVec.setWidth_eq, imm8_setWidth imm h]

/-- The same of a 16-bit count (R111, R170). -/
theorem setWidth_count16 {imm : Word} {l : List Byte} (hlen : l.length = (imm16 imm).toNat)
    (h : immAbove16 imm = 0#16) : (BitVec.ofNat 16 l.length).setWidth 32 = imm := by
  rw [hlen, BitVec.ofNat_toNat, BitVec.setWidth_eq, imm16_setWidth imm h]

/-- A command word that decodes is the encoding of what it decodes to. -/
theorem encode_of_decode_cmd {w : Cmd} {bytes : List Byte} {i : Instr} (hlen : bytes.length = listLen w)
    (h : decode (.cmd w bytes) = .ok i) : encode i = .cmd w bytes := by
  obtain ⟨op, t, imm, rfl⟩ := decode_cmd_ok h
  rw [decode_mkCmd] at h
  rw [listLen_mkCmd] at hlen
  have hnil (hz : bytes.length = 0) : bytes = [] := List.eq_nil_of_length_eq_zero hz
  cases op with
  | tplload =>
    obtain ⟨hunused, -, rfl⟩ := whenListed_eq_ok.mp h
    have hcount := setWidth_count8 hlen (by simpa using hunused)
    rw [listLen_mkCmd, ← hlen, List.take_length, cmdT_mkCmd, encode, hcount]
    rfl
  | send =>
    obtain ⟨hunused, -, rfl⟩ := whenListed_eq_ok.mp h
    obtain ⟨rfl, himm⟩ : t = 0#8 ∧ immAbove16 imm = 0#16 := by simpa using hunused
    rw [listLen_mkCmd, ← hlen, List.take_length, encode, setWidth_count16 hlen himm]
    rfl
  | encaddr =>
    cases h
    rw [hnil hlen, cmdT_mkCmd, cmdImm_mkCmd]
    rfl
  | encin =>
    obtain ⟨hunused, rfl⟩ := whenZero_eq_ok.mp h
    rw [hnil hlen, cmdT_mkCmd, cmdImm_mkCmd, encode, imm8_setWidth imm (by simpa using hunused)]
    rfl
  | recv =>
    obtain ⟨hunused, rfl⟩ := whenZero_eq_ok.mp h
    obtain ⟨rfl, himm⟩ : t = 0#8 ∧ immAbove16 imm = 0#16 := by simpa using hunused
    rw [hnil hlen, cmdImm_mkCmd, encode, imm16_setWidth imm himm]
    rfl
  | tplvalid | encfix | decout | outidx =>
    obtain ⟨hunused, rfl⟩ := whenZero_eq_ok.mp h
    obtain rfl : imm = 0#32 := by simpa using hunused
    rw [hnil hlen, cmdT_mkCmd]
    rfl
  | ldbuf | ldresp =>
    obtain ⟨hunused, rfl⟩ := whenZero_eq_ok.mp h
    obtain rfl : t = 0#8 := by simpa using hunused
    rw [hnil hlen, cmdImm_mkCmd]
    rfl
  | rdbuf | rdseq | rderr =>
    obtain ⟨hunused, rfl⟩ := whenZero_eq_ok.mp h
    obtain ⟨rfl, rfl⟩ : t = 0#8 ∧ imm = 0#32 := by simpa using hunused
    rw [hnil hlen]
    rfl

/-- Settles O3: by format. -/
theorem encodeOfDecode : Obligations.EncodeOfDecode := by
  unfold Obligations.EncodeOfDecode
  refine ⟨fun w bytes i hlen h => encode_of_decode_cmd hlen h, fun code i h => ?_,
    fun h i hd => encode_of_decode_header hd⟩
  obtain ⟨r, rfl, rfl⟩ := decode_role_eq_ok.mp h
  exact encode_instrOfRole r

/-! ### The rows of the command words (R112, R116) -/

/-- Which bits of the slot field an operation leaves unused (R112). -/
def slotUnused : Op → Byte
  | .tplload | .tplvalid | .encfix | .encaddr | .encin | .decout | .outidx => 0x00#8
  | .send | .recv | .ldbuf | .rdbuf | .ldresp | .rdseq | .rderr => 0xFF#8

/-- Which bits of the immediate an operation leaves unused (R112). -/
def immUnused : Op → Word
  | .tplload | .encin => 0xFFFFFF00#32
  | .send | .recv => 0xFFFF0000#32
  | .encaddr | .ldbuf | .ldresp => 0x00000000#32
  | .tplvalid | .encfix | .decout | .outidx | .rdbuf | .rdseq | .rderr => 0xFFFFFFFF#32

/-- The row of an operation: the `op` field is its value, the unused bits are zero. -/
def opRow (op : Op) : Cmd × Cmd := (mkCmd 0xFF#8 (slotUnused op) (immUnused op), mkCmd (opByte op) 0#8 0#32)

/-- The rows of format CMD48 are the rows of the operations (R112). -/
theorem mem_commandRows {row : Cmd × Cmd} : row ∈ Machine.commandRows ↔ ∃ op, row = opRow op := by
  constructor
  · intro h
    simp only [Machine.commandRows, List.mem_cons, List.not_mem_nil, or_false] at h
    rcases h with h | h | h | h | h | h | h | h | h | h | h | h | h | h
    exacts [⟨.tplload, h⟩, ⟨.tplvalid, h⟩, ⟨.encfix, h⟩, ⟨.encaddr, h⟩, ⟨.encin, h⟩, ⟨.decout, h⟩, ⟨.outidx, h⟩,
      ⟨.send, h⟩, ⟨.recv, h⟩, ⟨.ldbuf, h⟩, ⟨.rdbuf, h⟩, ⟨.ldresp, h⟩, ⟨.rdseq, h⟩, ⟨.rderr, h⟩]
  · rintro ⟨op, rfl⟩
    cases op <;> decide

/-- Two command words are equal exactly when their fields are (R110). -/
theorem mkCmd_inj {op op' t t' : Byte} {imm imm' : Word} :
    mkCmd op t imm = mkCmd op' t' imm' ↔ op = op' ∧ t = t' ∧ imm = imm' := by
  constructor
  · intro h
    have hop := congrArg cmdOp h
    have ht := congrArg cmdT h
    have himm := congrArg cmdImm h
    simp only [cmdOp_mkCmd, cmdT_mkCmd, cmdImm_mkCmd] at hop ht himm
    exact ⟨hop, ht, himm⟩
  · rintro ⟨rfl, rfl, rfl⟩
    rfl

/-- A command word is legal exactly when it has the `op` value of an operation and zeros in its unused fields. -/
theorem legalCommand_iff (w : Cmd) : Machine.LegalCommand w ↔
    ∃ op, cmdOp w = opByte op ∧ cmdT w &&& slotUnused op = 0#8 ∧ cmdImm w &&& immUnused op = 0#32 := by
  have hrow (op : Op) : w &&& (opRow op).1 = (opRow op).2 ↔
      cmdOp w = opByte op ∧ cmdT w &&& slotUnused op = 0#8 ∧ cmdImm w &&& immUnused op = 0#32 := by
    have hmask : w &&& (opRow op).1 =
        mkCmd (cmdOp w &&& BitVec.allOnes 8) (cmdT w &&& slotUnused op) (cmdImm w &&& immUnused op) := by
      rw [← Laws.mkCmd_and, mkCmd_fields]
      rfl
    rw [hmask, BitVec.and_allOnes, opRow, mkCmd_inj]
  simp only [Machine.LegalCommand, mem_commandRows, ← hrow]
  constructor
  · rintro ⟨row, ⟨op, rfl⟩, h⟩
    exact ⟨op, h⟩
  · rintro ⟨op, h⟩
    exact ⟨opRow op, ⟨op, rfl⟩, h⟩

/-- The bits 31 to 8 of an immediate under their mask (R112). -/
theorem and_above8_eq_zero (imm : Word) : imm &&& 0xFFFFFF00#32 = 0#32 ↔ immAbove8 imm = 0#24 := by
  constructor
  · intro h
    calc immAbove8 imm = immAbove8 imm &&& BitVec.allOnes 24 := BitVec.and_allOnes.symm
      _ = immAbove8 (imm &&& 0xFFFFFF00#32) := by rw [immAbove8, immAbove8, BitVec.extractLsb'_and]; rfl
      _ = 0#24 := by rw [h]; rfl
  · intro h
    rw [← imm8_setWidth imm h]
    exact Laws.byte_and_high _

/-- The bits 31 to 16 of an immediate under their mask (R112). -/
theorem and_above16_eq_zero (imm : Word) : imm &&& 0xFFFF0000#32 = 0#32 ↔ immAbove16 imm = 0#16 := by
  constructor
  · intro h
    calc immAbove16 imm = immAbove16 imm &&& BitVec.allOnes 16 := BitVec.and_allOnes.symm
      _ = immAbove16 (imm &&& 0xFFFF0000#32) := by rw [immAbove16, immAbove16, BitVec.extractLsb'_and]; rfl
      _ = 0#16 := by rw [h]; rfl
  · intro h
    rw [← imm16_setWidth imm h]
    exact Laws.half_and_high _

/-- A command without byte list decodes exactly when its unused fields are zero (R116). -/
theorem whenZero_isOk {z : Bool} {op : Byte} {j : Instr} : (∃ i, whenZero z op j = .ok i) ↔ z = true := by
  simp [whenZero_eq_ok]

/-- So does a command with a byte list that is there (R111, R116). -/
theorem whenListed_isOk {z : Bool} {op : Byte} {n : Nat} {bytes : List Byte} {mk : List Byte → Instr}
    (hn : n ≤ bytes.length) : (∃ i, whenListed z op n bytes mk = .ok i) ↔ z = true := by
  simp [whenListed_eq_ok, hn]

/-- With its byte list there, an operation decodes exactly when its unused fields are zero (R112, R116). -/
theorem decodeOp_isOk (op : Op) {w : Cmd} {bytes : List Byte} (hlen : listLen w ≤ bytes.length) :
    (∃ i, decodeOp op w bytes = .ok i) ↔ cmdT w &&& slotUnused op = 0#8 ∧ cmdImm w &&& immUnused op = 0#32 := by
  have ht : cmdT w &&& 0xFF#8 = cmdT w := BitVec.and_allOnes
  have himm : cmdImm w &&& 0xFFFFFFFF#32 = cmdImm w := BitVec.and_allOnes
  cases op with
  | tplload => exact (whenListed_isOk hlen).trans (by simp [slotUnused, immUnused, and_above8_eq_zero])
  | send => exact (whenListed_isOk hlen).trans (by simp [slotUnused, immUnused, and_above16_eq_zero, ht])
  | encaddr => simp [decodeOp, slotUnused, immUnused]
  | encin => exact whenZero_isOk.trans (by simp [slotUnused, immUnused, and_above8_eq_zero])
  | recv => exact whenZero_isOk.trans (by simp [slotUnused, immUnused, and_above16_eq_zero, ht])
  | tplvalid | encfix | decout | outidx => exact whenZero_isOk.trans (by simp [slotUnused, immUnused, himm])
  | ldbuf | ldresp => exact whenZero_isOk.trans (by simp [slotUnused, immUnused, ht])
  | rdbuf | rdseq | rderr => exact whenZero_isOk.trans (by simp [slotUnused, immUnused, ht, himm])

/-- Settles O4: on both sides the `op` field names an operation and the bits it leaves unused are zero. -/
theorem legalCommandsDecode : Obligations.LegalCommandsDecode := by
  unfold Obligations.LegalCommandsDecode
  intro w bytes hlen
  rw [legalCommand_iff]
  constructor
  · rintro ⟨i, -, h⟩
    obtain ⟨op, t, imm, rfl⟩ := decode_cmd_ok h
    rw [decode_mkCmd] at h
    exact ⟨op, cmdOp_mkCmd _ _ _, (decodeOp_isOk op hlen).mp ⟨i, h⟩⟩
  · rintro ⟨op, hop, hunused⟩
    obtain ⟨i, hi⟩ := (decodeOp_isOk op hlen).mpr hunused
    have hdecode : decode (.cmd w bytes) = .ok i := by
      rw [← mkCmd_fields w, hop] at hi ⊢
      rw [decode_mkCmd, hi]
    exact ⟨i, Machine.decodeCmd_command hdecode, hdecode⟩

/-! ### The words and codes of the tables (R92, R112) -/

/-- Settles O1: each word evaluated by the decoder. -/
theorem writtenWordsDecode : Obligations.WrittenWordsDecode := by
  unfold Obligations.WrittenWordsDecode
  exact ⟨rfl, rfl, rfl, rfl, rfl, rfl, rfl, rfl, rfl, rfl⟩

/-- Settles O6: the defined codes are the codes of roles, an indexed role's by its tag 3, 4 or 5. -/
theorem definedRoleCodes : Obligations.DefinedRoleCodes := by
  unfold Obligations.DefinedRoleCodes
  intro c
  have hdefined : roleDefined c = true ↔ ∃ r, c = encodeRole r := by
    simp only [roleDefined, Option.isSome_iff_exists, decodeRole_eq_some]
  rw [hdefined]
  constructor
  · rintro ⟨r, rfl⟩
    cases r with
    | f0 => exact .inl rfl
    | f1 => exact .inr (.inl rfl)
    | x => exact .inr (.inr (.inl rfl))
    | a n | i n | o n =>
      have := n.isLt
      refine .inr (.inr (.inr ?_))
      simp only [encodeRole, roleCode_toNat, BitVec.toNat_ofNat]
      omega
  · rintro (rfl | rfl | rfl | hrange)
    · exact ⟨.f0, rfl⟩
    · exact ⟨.f1, rfl⟩
    · exact ⟨.x, rfl⟩
    · have hfields := roleCode_fields c
      generalize roleIndex c = n at hfields
      generalize roleTag c = tag at hfields
      subst hfields
      have := n.isLt
      rw [roleCode_toNat] at hrange
      have htag : tag.toNat = 3 ∨ tag.toNat = 4 ∨ tag.toNat = 5 := by omega
      rcases htag with htag | htag | htag
      · exact ⟨.a n, congrArg (roleCode · n) (BitVec.eq_of_toNat_eq htag)⟩
      · exact ⟨.i n, congrArg (roleCode · n) (BitVec.eq_of_toNat_eq htag)⟩
      · exact ⟨.o n, congrArg (roleCode · n) (BitVec.eq_of_toNat_eq htag)⟩

end Sys2Proof

namespace Sys2Proof.Machine

/-! ### What a step runs -/

/-- Settles O8: a command at the ports, a role code in the template store, a header as the line's next event. -/
theorem stepRunsDecodedInstruction : Obligations.StepRunsDecodedInstruction := by
  unfold Obligations.StepRunsDecodedInstruction
  refine ⟨?_, ?_, ?_⟩
  · intro s w rest i hready hcmds hdecode
    obtain ⟨hp, hs, hidle⟩ := hready
    simp only [step_ready hp hs hidle, commandStep, hcmds, hdecode]
    rfl
  · intro s sc i hp hs hdecode
    have hcode : decode (.role (scanCode sc s)) = .ok i := hdecode
    simp only [step_scanning hp hs, roleStep, hcode]
  · intro s h rest i hp hs hline hcmds hrxq hdecode
    have hstep : step s = lineStep s := by
      by_cases hidle : s.rxs = .idle
      · exact step_ready_lineStep ⟨hp, hs, hidle⟩ (hcmds hidle)
      · exact step_waiting_empty ⟨hp, hs, rfl, hidle⟩ (hrxq hidle)
    simp only [hstep, lineStep, hline, hdecode]

/-! ### One role of a scan (R91) -/

/-- Running a role code is its action at the position of the scan (R91). -/
theorem exec_instrOfRole (r : Role) (s : State) :
    exec (instrOfRole r) s = .next (scanStep (fun op k c => roleAct op s.resp k (some r) c) s) := by
  cases r <;> rfl

/-- Settles O26: with no scan there is no position to act at. -/
theorem roleOutsideScanDoesNothing : Obligations.RoleOutsideScanDoesNothing := by
  unfold Obligations.RoleOutsideScanDoesNothing
  intro s n hs i hi
  change i ∈ [Role.f0, .f1, .x, .a n, .i n, .o n].map instrOfRole at hi
  obtain ⟨r, -, rfl⟩ := List.mem_map.mp hi
  rw [exec_instrOfRole, scanStep_none _ hs]

/-- What a position of the word holds after the role of position `k`. -/
theorem roleAct_word_getLsbD (op : ScanOp) (resp : Word) (k : Nat) (r : Option Role) (c : CodecAcc) {j : Nat}
    (hj : j < 32) : (roleAct op resp k r c).word.getLsbD j =
      if j = k then (roleWrites op r).getD (c.word.getLsbD j) else c.word.getLsbD j := by
  rw [roleAct_word]
  cases roleWrites op r with
  | none => simp
  | some b => simp [writeBit_getLsbD _ _ hj]

/-- A role before position 31: its action on the word and on the partial result, then the next position (R91, log 7). -/
theorem exec_role_before_last (r : Role) {s : State} {sc : Scan} (hs : s.scan = some sc) (hpos : sc.pos < 31) :
    exec (instrOfRole r) s =
      let c := roleAct sc.op s.resp sc.pos (some r) { word := s.buf, out := sc.out, first := sc.first }
      .next { s with buf := c.word, scan := some { sc with pos := sc.pos + 1, out := c.out, first := c.first } } := by
  rw [exec_instrOfRole, scanStep_eq _ hs]
  dsimp only
  rw [if_pos (by omega)]

/-- The role of position 31 ends the operation (R91, log 7). -/
theorem exec_role_at_last (r : Role) {s : State} {sc : Scan} (hs : s.scan = some sc) (hpos : sc.pos = 31) :
    exec (instrOfRole r) s =
      let c := roleAct sc.op s.resp 31 (some r) { word := s.buf, out := sc.out, first := sc.first }
      .next { s with buf := c.word, scan := none, result := okPort (scanValue sc.op c) [] } := by
  rw [exec_instrOfRole, scanStep_eq _ hs, hpos]
  rfl

/-- An operation that only reads leaves the word (R155, R160). -/
theorem roleAct_word_reader {op : ScanOp} (hop : op = .decout ∨ op = .outidx) (resp : Word) (k : Nat) (r : Option Role)
    (c : CodecAcc) : (roleAct op resp k r c).word = c.word := by
  rw [roleAct_word]
  obtain rfl | rfl := hop <;> rfl

/-- `O(n)` never writes the word (R91). -/
theorem roleAct_output_word (op : ScanOp) (resp : Word) (k : Nat) (n : Index) (c : CodecAcc) :
    (roleAct op resp k (some (.o n)) c).word = c.word := by
  rw [roleAct_word]
  cases op <;> rfl

/-- Only output roles touch the byte and the position of the reading operations (R91). -/
theorem roleAct_not_output {r : Role} (hr : ∀ n, r ≠ .o n) (op : ScanOp) (resp : Word) (k : Nat) (c : CodecAcc) :
    (roleAct op resp k (some r) c).out = c.out ∧ (roleAct op resp k (some r) c).first = c.first := by
  cases r with
  | o n => exact absurd rfl (hr n)
  | f0 | f1 | x | a n | i n => cases op <;> exact ⟨rfl, rfl⟩

/-- DECOUT's byte after a role: bit `m` gets the response's bit from `O(m)` (R155). -/
theorem roleAct_decout_getLsbD (resp : Word) (k : Nat) (r : Role) (c : CodecAcc) {m : Nat} (hm : m < 8) :
    (roleAct .decout resp k (some r) c).out.getLsbD m =
      (c.out.getLsbD m || (decide (r = .o (BitVec.ofNat 5 m)) && resp.getLsbD k)) := by
  cases r with
  | o n =>
    have hindex : m = n.toNat ↔ n = BitVec.ofNat 5 m := by
      rw [← BitVec.toNat_inj, BitVec.toNat_ofNat]
      omega
    rw [roleAct_out, BitVec.getLsbD_or, outputBit_getLsbD _ _ hm]
    simp [hindex, bit, Bool.and_comm]
  | f0 | f1 | x | a n | i n => simp [roleAct_out]

/-- OUTIDX's position after a role: the one known, else this one if the role is an output (R160). -/
theorem roleAct_outidx_first (resp : Word) (k : Nat) (r : Role) (c : CodecAcc) :
    (roleAct .outidx resp k (some r) c).first = match c.first, r with
      | some j, _ => some j
      | none, .o _ => some k
      | none, _ => none := by
  rw [roleAct_first]
  cases c.first with
  | some j => cases r <;> rfl
  | none => cases r <;> rfl

/-- Settles O24: by what a role does to the word and to the partial result, `O(n)` apart from the others. -/
theorem roleActsAtItsPosition : Obligations.RoleActsAtItsPosition := by
  unfold Obligations.RoleActsAtItsPosition
  intro s sc n hs hpos
  refine ⟨fun i hi => ?_, ?_⟩
  · change i ∈ [Role.f0, .f1, .x, .a n, .i n].map instrOfRole at hi
    obtain ⟨r, hr, rfl⟩ := List.mem_map.mp hi
    have hnot : ∀ m, r ≠ .o m := by
      rintro m rfl
      simp at hr
    obtain ⟨hout, hfirst⟩ := roleAct_not_output hnot sc.op s.resp sc.pos ⟨s.buf, sc.out, sc.first⟩
    refine ⟨(roleAct sc.op s.resp sc.pos (some r) ⟨s.buf, sc.out, sc.first⟩).word, ?_, fun k hk hne => ?_, ?_⟩
    · rw [exec_role_before_last r hs hpos]
      dsimp only
      rw [hout, hfirst]
    · rw [roleAct_word_getLsbD _ _ _ _ _ hk, if_neg hne]
    · rw [roleAct_word_getLsbD _ _ _ _ _ (by omega), if_pos rfl]
      cases r with
      | f0 | f1 | x | a m => cases sc.op <;> rfl
      | i m =>
        cases sc.op with
        | encin data => exact dataBit_eq data m
        | encfix | encaddr | decout | outidx => rfl
      | o m => exact absurd rfl (hnot m)
  · refine ⟨(roleAct sc.op s.resp sc.pos (some (.o n)) ⟨s.buf, sc.out, sc.first⟩).out,
      (roleAct sc.op s.resp sc.pos (some (.o n)) ⟨s.buf, sc.out, sc.first⟩).first,
      (exec_role_before_last (.o n) hs hpos).trans ?_, fun m hm => ?_, ?_⟩
    · dsimp only
      rw [roleAct_output_word]
    · rw [roleAct_out]
      cases sc.op <;> simp [outputBit_getLsbD _ _ hm, bit, Bool.and_comm]
    · rw [roleAct_first]
      cases sc.op <;> cases sc.first <;> simp

/-- Settles O25: by the operation, from what a role does to the word and to the partial result. -/
theorem lastRoleEndsOperation : Obligations.LastRoleEndsOperation := by
  unfold Obligations.LastRoleEndsOperation
  intro s sc n hs hpos i hi
  change i ∈ [Role.f0, .f1, .x, .a n, .i n, .o n].map instrOfRole at hi
  obtain ⟨r, hr, rfl⟩ := List.mem_map.mp hi
  have hlast := roleAct_word_getLsbD sc.op s.resp 31 (some r) ⟨s.buf, sc.out, sc.first⟩ (j := 31) (by decide)
  rw [if_pos rfl] at hlast
  refine ⟨_, _, exec_role_at_last r hs hpos, fun k hk => ?_, fun hop => ?_, fun address hop => ?_, fun data hop => ?_,
    fun hop => ?_, fun hop => ?_⟩
  · rw [roleAct_word_getLsbD _ _ _ _ _ (by omega), if_neg (by omega)]
  · refine ⟨by rw [hop]; rfl, hlast.trans ?_⟩
    rw [hop]
    cases r <;> rfl
  · refine ⟨by rw [hop]; rfl, hlast.trans ?_⟩
    rw [hop]
    cases r <;> rfl
  · refine ⟨by rw [hop]; rfl, hlast.trans ?_⟩
    rw [hop]
    cases r with
    | i m => exact dataBit_eq data m
    | f0 | f1 | x | a m | o m => rfl
  · refine ⟨roleAct_word_reader (.inl hop) _ _ _ _, _, by rw [hop]; rfl, fun m hm => ?_⟩
    have hinstr : (instrOfRole r = .roleO (BitVec.ofNat 5 m)) = (r = .o (BitVec.ofNat 5 m)) := by
      cases r <;> simp [instrOfRole]
    rw [roleAct_decout_getLsbD _ _ _ _ hm]
    simp only [hinstr]
  · refine ⟨roleAct_word_reader (.inr hop) _ _ _ _, ?_⟩
    rw [hop, scanValue, roleAct_outidx_first]
    cases sc.first with
    | some k => rfl
    | none =>
      simp only [List.mem_cons, List.not_mem_nil, or_false] at hr
      rcases hr with rfl | rfl | rfl | rfl | rfl | rfl <;> simp [instrOfRole, outidxValue, byteOfPosition]

/-! ### The 32 steps of a scan (R140, R145, R150, R155, R160) -/

/-- After `n < 32` steps of a scan the word and the partial result are what the first `n` positions make of them. -/
theorem run_scan {s : State} {op : ScanOp} {t : Byte} (hp : s.resetPin = false) {n : Nat} (hn : n < 32) :
    Host.Core.run core n { s with scan := some { op := op, slot := t, pos := 0, out := 0#8, first := none } } =
      let c := scanFirst n op s.resp (roleAt s t) { word := s.buf, out := 0#8, first := none }
      .next { s with
        buf := c.word, scan := some { op := op, slot := t, pos := n, out := c.out, first := c.first } } := by
  induction n with
  | zero => rfl
  | succ n ih =>
    rw [run_add (ih (by omega)), run_succ (step_scan_eq (by exact hp) rfl), scanStep_eq _ rfl]
    dsimp only
    rw [if_pos hn, scanFirst_succ]
    rfl

/-- A scan of all positions from the start of the operation is the operation in one step. -/
theorem run_scan_all {s : State} (op : ScanOp) (t : Byte) (hp : s.resetPin = false) (hs : s.scan = none) :
    Host.Core.run core 32 { s with scan := some { op := op, slot := t, pos := 0, out := 0#8, first := none } } =
      .next (codecOp op t s) := by
  rw [run_add (m := 31) (n := 1) (run_scan hp (by decide)), run_succ (step_scan_eq (by exact hp) rfl),
    scanStep_eq _ rfl, codecOp_eq, scanFirst_succ, ← hs]
  rfl

/-- Settles O27: on a usable slot the operation is its scan, and so are the 32 steps. -/
theorem roleStepsRefineCodecOperations : Obligations.RoleStepsRefineCodecOperations := by
  unfold Obligations.RoleStepsRefineCodecOperations
  intro s t husable hp hs address data p hmem
  obtain ⟨hrange, hvalid⟩ := husable
  have hcheck (op : ScanOp) : templateCheck t s (.next (codecOp op t s)) = .next (codecOp op t s) := by
    rw [templateCheck_eq, if_pos hrange, if_pos hvalid]
  simp only [List.mem_cons, List.not_mem_nil, or_false] at hmem
  rcases hmem with rfl | rfl | rfl | rfl | rfl <;> exact (run_scan_all _ t hp hs).trans (hcheck _).symm

/-! ### The rules of the waiting states on a byte (R190 to R194) -/

section byteRules

variable {b : Byte} {s : State}

/-- The start marker, or `BadStart` (R190). -/
theorem recvByte_wStart (h : s.rxs = .wStart) : recvByte b s =
    if b = Config.start then .next { s with rxsum := s.rxsum ^^^ b, rxs := .wSeq }
    else .next (raise .badStart (info8 b) { s with rxsum := s.rxsum ^^^ b }) := by
  simp [recvByte, recvRule, h]

/-- The awaited sequence number, or `BadSeq` (R191). -/
theorem recvByte_wSeq (h : s.rxs = .wSeq) : recvByte b s =
    if b = s.seq then .next { s with rxsum := s.rxsum ^^^ b, rxs := .wLenHi }
    else .next (raise .badSeq (s.seq ++ b) { s with rxsum := s.rxsum ^^^ b }) := by
  simp [recvByte, recvRule, h]

/-- The high byte of the length (R192). -/
theorem recvByte_wLenHi (h : s.rxs = .wLenHi) : recvByte b s =
    .next { s with rxsum := s.rxsum ^^^ b, rxlen := setLenHi s.rxlen b, rxs := .wLenLo } := by
  simp [recvByte, recvRule, h]

/-- The low byte of the length, or `TooLong` (R193). -/
theorem recvByte_wLenLo (h : s.rxs = .wLenLo) : recvByte b s =
    if (setLenLo s.rxlen b).toNat ≤ s.rxmax.toNat then
      .next { s with rxsum := s.rxsum ^^^ b, rxlen := setLenLo s.rxlen b, rxs := .wToken }
    else .next (raise .tooLong (setLenLo s.rxlen b)
      { s with rxsum := s.rxsum ^^^ b, rxlen := setLenLo s.rxlen b }) := by
  simp [recvByte, recvRule, h]

/-- The token, or `BadToken` (R194). -/
theorem recvByte_wToken (h : s.rxs = .wToken) : recvByte b s =
    if b = Config.token then
      .next { s with rxsum := s.rxsum ^^^ b, rxs := if s.rxlen = 0#16 then .wCsum else .wData }
    else .next (raise .badToken (info8 b) { s with rxsum := s.rxsum ^^^ b }) := by
  simp [recvByte, recvRule, h]

end byteRules

/-! ### The bytes of a header at a receive (R64, R190 to R194) -/

/-- Bytes that arrive at a wait on an empty queue: the first is taken, the others arrive after it. -/
theorem arriveAll_taken {b : Byte} {bs : List Byte} {s t : State} (hw : s.rxs ≠ .idle) (hq : s.rxq = [])
    (h : recvByte b s = .next t) : arriveAll (b :: bs) s = arriveAll bs t := by
  rw [arriveAll, arrive_eq, if_pos ⟨hw, hq⟩, h]
  rfl

/-- Bytes that arrive at a block that does not wait on an empty queue wait at the tail of `RXQ` (R64). -/
theorem arriveAll_queued {bs : List Byte} {s : State} (h : s.rxs = .idle ∨ s.rxq ≠ []) :
    arriveAll bs s = .next { s with rxq := s.rxq ++ bs } := by
  induction bs generalizing s with
  | nil => simp [arriveAll]
  | cons b bs ih =>
    have hnot : ¬(s.rxs ≠ .idle ∧ s.rxq = []) := by tauto
    rw [arriveAll, arrive_eq, if_neg hnot]
    simpa [andThen] using ih (s := { s with rxq := s.rxq ++ [b] }) (.inr (by simp))

/-- The length two bytes make (R65, R192, R193). -/
theorem setLenLo_setLenHi (len : Half) (hi lo : Byte) :
    setLenLo (setLenHi len hi) lo = BitVec.ofNat 16 (256 * hi.toNat + lo.toNat) := by
  apply BitVec.eq_of_toNat_eq
  have := hi.isLt
  have := lo.isLt
  rw [setLenLo_toNat, setLenHi_toNat, BitVec.toNat_ofNat]
  omega

/-- A byte at which the receive fails: the bytes after it stay in `RXQ` (R64, R202). -/
theorem arriveAll_failed {kind : ErrKind} {info : Half} {b : Byte} {bs : List Byte} {s u : State} (hw : s.rxs ≠ .idle)
    (hq : s.rxq = []) (hk : isTransport kind = true) (h : recvByte b s = .next (raise kind info u)) (hu : u.rxq = []) :
    arriveAll (b :: bs) s = .next { u with
      rxq := bs, err := errCode kind, errinfo := info, rxs := .idle, result := errPort (errCode kind) } := by
  rw [arriveAll_taken hw hq h, arriveAll_idle (by simp [hk]), raise_transport hk]
  simp only [hu, List.nil_append]
  rfl

/-- The marker and the awaited sequence number (R190, R191). -/
theorem arriveAll_start_seq {s : State} (hst : s.rxs = .wStart) (hq : s.rxq = []) (bs : List Byte) :
    arriveAll (Config.start :: s.seq :: bs) s =
      arriveAll bs { s with rxsum := s.rxsum ^^^ Config.start ^^^ s.seq, rxs := .wLenHi } := by
  rw [arriveAll_taken (by simp [hst]) hq ((recvByte_wStart hst).trans (if_pos rfl))]
  exact arriveAll_taken (by simp) hq ((recvByte_wSeq rfl).trans (if_pos rfl))

/-- The marker and another sequence number (R190, R191). -/
theorem arriveAll_start_badSeq {s : State} (hst : s.rxs = .wStart) (hq : s.rxq = []) {b : Byte} (hb : b ≠ s.seq)
    (bs : List Byte) : arriveAll (Config.start :: b :: bs) s =
      .next { s with
        rxsum := s.rxsum ^^^ Config.start ^^^ b, rxs := .idle, rxq := bs, err := 0x11#8, errinfo := s.seq ++ b
        result := errPort 0x11#8 } := by
  rw [arriveAll_taken (by simp [hst]) hq ((recvByte_wStart hst).trans (if_pos rfl))]
  have hfail := (recvByte_wSeq (b := b) (s := { s with rxsum := s.rxsum ^^^ Config.start, rxs := .wSeq })
    rfl).trans (if_neg hb)
  exact arriveAll_failed (by simp) (by exact hq) rfl hfail (by exact hq)

/-- A length that fits (R192, R193). -/
theorem arriveAll_length {s : State} (hst : s.rxs = .wLenHi) (hq : s.rxq = []) {hi lo : Byte}
    (hlen : (setLenLo (setLenHi s.rxlen hi) lo).toNat ≤ s.rxmax.toNat) (bs : List Byte) :
    arriveAll (hi :: lo :: bs) s = arriveAll bs { s with
      rxlen := setLenLo (setLenHi s.rxlen hi) lo, rxsum := s.rxsum ^^^ hi ^^^ lo, rxs := .wToken } := by
  rw [arriveAll_taken (by simp [hst]) hq (recvByte_wLenHi hst)]
  exact arriveAll_taken (by simp) hq ((recvByte_wLenLo rfl).trans (if_pos hlen))

/-- A length that is too great (R192, R193). -/
theorem arriveAll_tooLong {s : State} (hst : s.rxs = .wLenHi) (hq : s.rxq = []) {hi lo : Byte}
    (hlen : s.rxmax.toNat < (setLenLo (setLenHi s.rxlen hi) lo).toNat) (bs : List Byte) :
    arriveAll (hi :: lo :: bs) s = .next { s with
      rxlen := setLenLo (setLenHi s.rxlen hi) lo, rxsum := s.rxsum ^^^ hi ^^^ lo, rxs := .idle, rxq := bs
      err := 0x13#8, errinfo := setLenLo (setLenHi s.rxlen hi) lo, result := errPort 0x13#8 } := by
  rw [arriveAll_taken (by simp [hst]) hq (recvByte_wLenHi hst)]
  have hfail := (recvByte_wLenLo (b := lo)
    (s := { s with rxsum := s.rxsum ^^^ hi, rxlen := setLenHi s.rxlen hi, rxs := .wLenLo }) rfl).trans
    (if_neg (Nat.not_le_of_lt hlen))
  exact arriveAll_failed (by simp) (by exact hq) rfl hfail (by exact hq)

/-- The token ends the header (R194). -/
theorem arriveAll_token {s : State} (hst : s.rxs = .wToken) (hq : s.rxq = []) :
    arriveAll [Config.token] s = .next { s with
      rxsum := s.rxsum ^^^ Config.token, rxs := if s.rxlen = 0#16 then .wCsum else .wData } :=
  arriveAll_taken (by simp [hst]) hq ((recvByte_wToken hst).trans (if_pos rfl))

/-- Two bytes next to each other as a number (R241). -/
theorem append_byte_eq (a b : Byte) : a ++ b = BitVec.ofNat 16 (256 * a.toNat + b.toNat) := by
  apply BitVec.eq_of_toNat_eq
  have := a.isLt
  have := b.isLt
  have h := append_toNat a b (k := 16) rfl
  rw [BitVec.toNat_cast] at h
  rw [h, BitVec.toNat_ofNat]
  omega

/-- Settles O41: the two bytes before the length, the two of the length, the token; or all five queued. -/
theorem headerReceived : Obligations.HeaderReceived := by
  unfold Obligations.HeaderReceived
  intro s seq hi lo
  have hbound : 256 * hi.toNat + lo.toNat < 2 ^ 16 := by
    have := hi.isLt
    have := lo.isLt
    omega
  have hlength := setLenLo_setLenHi s.rxlen hi lo
  have hnat : (setLenLo (setLenHi s.rxlen hi) lo).toNat = 256 * hi.toNat + lo.toNat := by
    rw [hlength, BitVec.toNat_ofNat, Nat.mod_eq_of_lt hbound]
  have hzero : BitVec.ofNat 16 (256 * hi.toNat + lo.toNat) = 0#16 ↔ 256 * hi.toNat + lo.toNat = 0 := by
    rw [← BitVec.toNat_inj, BitVec.toNat_ofNat, Nat.mod_eq_of_lt hbound]
    rfl
  refine ⟨fun hst hq hseq hlen => ?_, fun hst hq hseq => ?_, fun hst hq hseq hlen => ?_, fun h => arriveAll_queued h⟩
  · subst hseq
    refine (arriveAll_start_seq hst hq _).trans ?_
    rw [arriveAll_length rfl (by exact hq) (by rw [hnat]; exact hlen), arriveAll_token rfl (by exact hq)]
    simp only [hzero, hlength, xorAll, Config.start, Config.token, BitVec.xor_assoc, BitVec.xor_zero]
  · refine (arriveAll_start_badSeq hst hq hseq _).trans ?_
    simp only [append_byte_eq, xorAll, Config.start, Config.token, BitVec.xor_assoc, BitVec.xor_zero]
  · subst hseq
    refine (arriveAll_start_seq hst hq _).trans ?_
    rw [arriveAll_tooLong rfl (by exact hq) (by rw [hnat]; exact hlen)]
    simp only [hlength, xorAll, Config.start, Config.token, BitVec.xor_assoc, BitVec.xor_zero]

/-! ### A header and its five bytes (R64, R211; log 8) -/

/-- A receive step does not look at the line. -/
theorem recvByte_line (b : Byte) (s : State) (l : List LineEvent) :
    recvByte b { s with line := l } = andThen (recvByte b s) (fun t => .next { t with line := l }) := by
  by_cases hw : s.rxs = .idle
  · rw [recvByte_idle b s hw]
    exact recvByte_idle b _ hw
  rw [recvByte_waiting b s hw, recvByte_waiting b _ (by exact hw)]
  unfold recvRule
  dsimp only
  cases s.rxs with
  | idle => rfl
  | wStart => dsimp only; split <;> rfl
  | wSeq => dsimp only; split <;> rfl
  | wLenHi => rfl
  | wLenLo => dsimp only; split <;> rfl
  | wToken => dsimp only; split <;> rfl
  | wData => dsimp only [storeData]; split <;> rfl
  | wCsum =>
    dsimp only [accept]
    split
    · split <;> rfl
    · rfl

/-- A byte that arrives does not look at the line. -/
theorem arrive_line (b : Byte) (s : State) (l : List LineEvent) :
    arrive b { s with line := l } = andThen (arrive b s) (fun t => .next { t with line := l }) := by
  rw [arrive_eq, arrive_eq]
  dsimp only
  split
  · exact recvByte_line b s l
  · rfl

/-- What the bytes of the line meet: no reset, no scan, no command, and nothing queued at a receive that waits. -/
structure TakesLine (s : State) : Prop where
  resetPin : s.resetPin = false
  scan : s.scan = none
  cmds : s.cmds = []
  rxq : s.rxs ≠ .idle → s.rxq = []

/-- In such a state a step takes the line's next event. -/
theorem TakesLine.step_eq {s : State} (h : TakesLine s) : step s = lineStep s := by
  by_cases hidle : s.rxs = .idle
  · exact step_ready_lineStep ⟨h.resetPin, h.scan, hidle⟩ h.cmds
  · exact step_waiting_empty ⟨h.resetPin, h.scan, rfl, hidle⟩ (h.rxq hidle)

/-- A byte that arrives leaves it so: a receive that still waits has taken the byte. -/
theorem TakesLine.of_arrive {b : Byte} {s t : State} (h : TakesLine s) (ha : arrive b s = .next t) : TakesLine t := by
  rw [arrive_eq] at ha
  split at ha
  · rename_i hwait
    obtain ⟨hkeeps, hrxq⟩ := recvByte_keeps ha
    exact ⟨hkeeps.resetPin.trans h.resetPin, hkeeps.scan.trans h.scan, hkeeps.cmds.trans h.cmds,
      fun _ => hrxq.trans hwait.2⟩
  · rename_i hwait
    cases ha
    exact ⟨h.resetPin, h.scan, h.cmds, fun hw => absurd ⟨hw, h.rxq hw⟩ hwait⟩

/-- Bytes one event at a time do what they do as one event (R62, R64; log 8). -/
theorem run_line_bytes {bs : List Byte} {rest : List LineEvent} {s t : State} (h : TakesLine s)
    (ha : arriveAll bs { s with line := rest } = .next t) :
    Host.Core.run core bs.length { s with line := bs.map .byte ++ rest } = .next t := by
  induction bs generalizing s with
  | nil => exact ha
  | cons b bs ih =>
    have hstep : step { s with line := (b :: bs).map .byte ++ rest } =
        andThen (arrive b s) (fun u => .next { u with line := bs.map .byte ++ rest }) := by
      have hline : TakesLine { s with line := (b :: bs).map .byte ++ rest } := { h with }
      rw [hline.step_eq, lineStep_byte rfl]
      exact arrive_line b s _
    rw [arriveAll, arrive_line] at ha
    cases hu : arrive b s with
    | next u =>
      rw [hu] at hstep ha
      rw [List.length_cons, run_succ hstep]
      exact ih (h.of_arrive hu) ha
    | fault r =>
      rw [hu] at ha
      cases ha
    | refused r =>
      rw [hu] at ha
      cases ha

/-- Settles O42: both runs are the arrival of the same five bytes. -/
theorem headerIsFiveBytes : Obligations.HeaderIsFiveBytes := by
  unfold Obligations.HeaderIsFiveBytes
  intro s t seq hi lo rest hp hs hcmds hrxq hline hstep
  have h : TakesLine s := ⟨hp, hs, hcmds, hrxq⟩
  rw [h.step_eq, lineStep_header hline, headerBytes_headerWord] at hstep
  exact run_line_bytes h hstep

end Sys2Proof.Machine

/-! PROOFS of the family 40_codec.md. The five users of a template have one shape (`codecInstr`), so their check is passed or
refused once for all of them; what an encode operation leaves is its word bit by bit (`roleWrites`), and the two readers
leave the word. BUILD and the laws of R166 are sequences of encode operations. -/

namespace Sys2Proof.Machine

/-! ### Configuration errors (R243, R250) -/

/-- A configuration error writes the record, `CFGF` and the port, nothing else (R243). -/
theorem raise_configuration {kind : ErrKind} (h : isConfiguration kind = true) (info : Half) (s : State) :
    raise kind info s =
      { s with err := errCode kind, errinfo := info, cfgf := true, result := errPort (errCode kind) } := by
  have ht : isTransport kind = false := by cases kind <;> simp_all [isTransport, isConfiguration]
  simp [raise, h, ht, errPort]

/-! ### Loading a template (R131, R137) -/

theorem rangeCheck_out {t : Byte} {s : State} (h : s.par.nTpl ≤ t.toNat) (go : Host.Outcome State Fault Refusal) :
    rangeCheck t s go = .next (raise .templateRange (info8 t) s) := by
  rw [rangeCheck_eq, if_neg (by omega)]

theorem rangeCheck_in {t : Byte} {s : State} (h : t.toNat < s.par.nTpl) (go : Host.Outcome State Fault Refusal) :
    rangeCheck t s go = go := by
  rw [rangeCheck_eq, if_pos h]

/-- TPLLOAD on a valid slot is refused whatever the codes are (R133). -/
theorem execTplload_locked {s : State} {t : Byte} (hr : t.toNat < s.par.nTpl) (hv : s.tplv.getLsbD t.toNat = true)
    (roles : List Byte) : execTplload t roles s = .next (raise .templateLocked (info8 t) s) := by
  have hvalid : slotValid s t = true := hv
  rw [execTplload, rangeCheck_in hr, if_pos hvalid]

/-- TPLLOAD on a free slot of the store: the count, then the codes (R131 lines 3 to 6). -/
theorem execTplload_free {s : State} {t : Byte} (hr : t.toNat < s.par.nTpl) (hv : s.tplv.getLsbD t.toNat = false)
    (roles : List Byte) : execTplload t roles s =
      if roles.length ≠ 32 then .next (raise .invalidTemplate (lengthHalf roles) s)
      else (firstUndefined 0 roles).elim
        (.next (endOk none []
          { s with tpl := Memory.writeAll s.tpl (32 * t.toNat) roles, tplv := setValid s.tplv t }))
        (fun bad => .next (raise .invalidTemplate (undefinedInfo bad.1 bad.2) s)) := by
  have hfree : ¬ slotValid s t = true := by simpa [slotValid] using hv
  rw [execTplload, rangeCheck_in hr, if_neg hfree]
  cases firstUndefined 0 roles <;> rfl

/-- Settles O12: no code of the list is undefined, so it is written to the addresses of the slot, in order. -/
theorem tplloadStoresTemplate : Obligations.TplloadStoresTemplate := by
  unfold Obligations.TplloadStoresTemplate
  intro s t roles hwf hrange hfree hlen hdef
  refine ⟨Memory.writeAll s.tpl (32 * t.toNat) roles, setValid s.tplv t, ?_, setValid_getLsbD s.tplv t,
    fun k hk => Memory.read_writeAll_same hwf _ roles (by omega),
    fun a ha => Memory.read_writeAll_other s.tpl roles (by omega)⟩
  have hnone : firstUndefined 0 roles = none := (firstUndefined_eq_none 0 roles).mpr hdef
  refine (execTplload_free hrange hfree roles).trans ?_
  rw [if_neg (not_not.mpr hlen), hnone]
  rfl

/-- Settles O13: each refusal is the configuration error of its branch; for the codes, the least undefined one. -/
theorem tplloadRefusals : Obligations.TplloadRefusals := by
  unfold Obligations.TplloadRefusals
  refine fun s t roles => ⟨fun hout => ?_, fun hrange hvalid => ?_, fun hrange hfree hlen => ?_,
    fun k c hrange hfree hlen hk hc hleast => ?_⟩
  · refine (rangeCheck_out hout _).trans ?_
    rw [raise_configuration rfl]
    rfl
  · refine (execTplload_locked hrange hvalid roles).trans ?_
    rw [raise_configuration rfl]
    rfl
  · refine (execTplload_free hrange hfree roles).trans ?_
    rw [if_pos hlen, raise_configuration rfl]
    rfl
  · obtain ⟨hk32, -⟩ := List.getElem?_eq_some_iff.mp hk
    refine (execTplload_free hrange hfree roles).trans ?_
    rw [if_neg (not_not.mpr hlen), firstUndefined_eq_some 0 roles hk hc hleast, Option.elim_some, Nat.zero_add,
      raise_configuration rfl, undefinedInfo_eq (hlen ▸ hk32)]
    rfl

/-- Settles O14: TPLVALID has the range check alone. -/
theorem tplvalidReturnsValidity : Obligations.TplvalidReturnsValidity := by
  unfold Obligations.TplvalidReturnsValidity
  refine fun s t => ⟨fun hrange => rangeCheck_in hrange _, fun hout => ?_⟩
  refine (rangeCheck_out hout _).trans ?_
  rw [raise_configuration rfl]
  rfl

/-! ### The users of a template (R138) -/

/-- The instruction of a codec operation on a slot (R112). -/
def codecInstr (op : ScanOp) (t : Byte) : Instr :=
  match op with
  | .encfix => .encfix t
  | .encaddr address => .encaddr t address
  | .encin data => .encin t data
  | .decout => .decout t
  | .outidx => .outidx t

/-- Every user of a template is its check and then the codec operation. -/
theorem exec_codecInstr (op : ScanOp) (t : Byte) (s : State) :
    exec (codecInstr op t) s = templateCheck t s (.next (codecOp op t s)) := by
  cases op <;> rfl

theorem exec_codecInstr_usable (op : ScanOp) {t : Byte} {s : State} (h : Usable s t) :
    exec (codecInstr op t) s = .next (codecOp op t s) := by
  obtain ⟨hrange, hvalid⟩ := h
  rw [exec_codecInstr, templateCheck_eq, if_pos hrange, if_pos hvalid]

theorem exec_codecInstr_out (op : ScanOp) {t : Byte} {s : State} (h : s.par.nTpl ≤ t.toNat) :
    exec (codecInstr op t) s = .next (raise .templateRange (info8 t) s) := by
  rw [exec_codecInstr, templateCheck_eq, if_neg (by omega)]

theorem exec_codecInstr_invalid (op : ScanOp) {t : Byte} {s : State} (hr : t.toNat < s.par.nTpl)
    (hv : s.tplv.getLsbD t.toNat = false) :
    exec (codecInstr op t) s = .next (raise .templateNotValid (info8 t) s) := by
  rw [exec_codecInstr, templateCheck_eq, if_pos hr, if_neg (by simp [hv])]

/-- Settles O15: the five users share one check. -/
theorem templateCheckRefuses : Obligations.TemplateCheckRefuses := by
  unfold Obligations.TemplateCheckRefuses
  intro s t address data i hi
  change i ∈ [ScanOp.encfix, .encaddr address, .encin data, .decout, .outidx].map (codecInstr · t) at hi
  obtain ⟨op, -, rfl⟩ := List.mem_map.mp hi
  refine ⟨fun hout => ?_, fun hrange hfree => ?_⟩
  · rw [exec_codecInstr_out op hout, raise_configuration rfl]
    rfl
  · rw [exec_codecInstr_invalid op hrange hfree, raise_configuration rfl]
    rfl

/-! ### What an encode operation writes (R140, R145, R150) -/

/-- The role of a position by its address in the store (R20). -/
theorem roleAt_eq (s : State) (t : Byte) (k : Nat) :
    roleAt s t k = decodeRole (Memory.read s.tpl (32 * t.toNat + k)) := rfl

/-- A codec operation leaves the template store, so a later one sees the same roles. -/
@[simp] theorem roleAt_codecOp (op : ScanOp) (t u : Byte) (k : Nat) (s : State) :
    roleAt (codecOp op t s) u k = roleAt s u k := rfl

/-- The encode operations: those that return no value (R112). -/
def Encodes (op : ScanOp) : Prop := ∀ c, scanValue op c = none

theorem encodes_encfix : Encodes .encfix := fun _ => rfl

theorem encodes_encaddr (address : Word) : Encodes (.encaddr address) := fun _ => rfl

theorem encodes_encin (data : Byte) : Encodes (.encin data) := fun _ => rfl

/-- A position of `BUF` after a codec operation: the bit its role has written, else what it held. -/
theorem codecOp_buf_getLsbD (op : ScanOp) (t : Byte) (s : State) {k : Nat} (hk : k < 32) :
    (codecOp op t s).buf.getLsbD k = (roleWrites op (roleAt s t k)).getD (s.buf.getLsbD k) :=
  (scanFirst_word 32 op s.resp (roleAt s t) _ hk).trans (if_pos hk)

/-- An encode operation changes `BUF` and the port, nothing else (R141). -/
theorem codecOp_encodes {op : ScanOp} (h : Encodes op) (t : Byte) (s : State) :
    codecOp op t s = { s with buf := (codecOp op t s).buf, result := okPort none [] } := by
  conv_lhs => rw [codecOp_eq]
  dsimp only
  rw [h]
  rfl

/-- An encode operation on a usable slot, with its word bit by bit. -/
theorem exec_encodes {op : ScanOp} (h : Encodes op) {t : Byte} {s : State} (hu : Usable s t) :
    ∃ w : Word, exec (codecInstr op t) s = .next { s with buf := w, result := okPort none [] } ∧
      ∀ k, k < 32 → w.getLsbD k =
        (roleWrites op (decodeRole (Memory.read s.tpl (32 * t.toNat + k)))).getD (s.buf.getLsbD k) :=
  ⟨(codecOp op t s).buf, (exec_codecInstr_usable op hu).trans (congrArg _ (codecOp_encodes h t s)),
    fun _ hk => codecOp_buf_getLsbD op t s hk⟩

/-- What ENCIN writes at a position: data bit `n` at `I(n)`, 0 for `n ≥ 8` (R150). -/
theorem roleWrites_encin_i (data : Byte) (n : Index) :
    roleWrites (.encin data) (some (.i n)) = some (if n.toNat ≤ 7 then data.getLsbD n.toNat else false) :=
  congrArg some (dataBit_eq data n)

/-- Settles O16: position by position, by the role that stands there. -/
theorem encfixWritesFixedPositions : Obligations.EncfixWritesFixedPositions := by
  unfold Obligations.EncfixWritesFixedPositions
  intro s t hu
  obtain ⟨w, hexec, hbits⟩ := exec_encodes encodes_encfix hu
  refine ⟨w, hexec, fun k hk => (hbits k hk).trans ?_⟩
  rcases decodeRole _ with _ | _ | _ | _ | _ | _ | _ <;> rfl

/-- Settles O17: position by position, by the role that stands there. -/
theorem encaddrWritesAddressPositions : Obligations.EncaddrWritesAddressPositions := by
  unfold Obligations.EncaddrWritesAddressPositions
  intro s t address hu
  obtain ⟨w, hexec, hbits⟩ := exec_encodes (encodes_encaddr address) hu
  refine ⟨w, hexec, fun k hk => (hbits k hk).trans ?_⟩
  rcases decodeRole _ with _ | _ | _ | _ | _ | _ | _ <;> rfl

/-- Settles O18: position by position, by the role that stands there. -/
theorem encinWritesInputPositions : Obligations.EncinWritesInputPositions := by
  unfold Obligations.EncinWritesInputPositions
  intro s t data hu
  obtain ⟨w, hexec, hbits⟩ := exec_encodes (encodes_encin data) hu
  refine ⟨w, hexec, fun k hk => (hbits k hk).trans ?_⟩
  rcases decodeRole _ with _ | _ | _ | _ | _ | n | _
  case some.i => rw [roleWrites_encin_i]; rfl
  all_goals rfl

/-! ### What a reading operation returns (R155, R160) -/

/-- DECOUT and OUTIDX on a usable slot change the port only (R155, R161). -/
theorem exec_reads {op : ScanOp} (hop : op = .decout ∨ op = .outidx) {t : Byte} {s : State} (hu : Usable s t) :
    exec (codecInstr op t) s = .next { s with
      result := okPort (scanValue op (scanFirst 32 op s.resp (roleAt s t) ⟨s.buf, 0#8, none⟩)) [] } := by
  rw [exec_codecInstr_usable op hu, codecOp_eq]
  dsimp only
  rw [scanFirst_word_reader 32 op hop]
  rfl

/-- Settles O19: by the OR that the scan of all positions has gathered. -/
theorem decoutGathersOutputBits : Obligations.DecoutGathersOutputBits := by
  unfold Obligations.DecoutGathersOutputBits
  intro s t hu
  refine ⟨_, exec_reads (.inl rfl) hu, fun n hn => (scanFirst_out 32 s.resp (roleAt s t) _ hn).trans ?_⟩
  simp [roleAt_eq]

/-- Settles O20: the scan has found no output position, or the least one, which is the only least one. -/
theorem outidxNamesLowestOutputByte : Obligations.OutidxNamesLowestOutputByte := by
  unfold Obligations.OutidxNamesLowestOutputByte
  intro s t hu
  have hexec : exec (.outidx t) s = .next { s with
      result := okPort (some (outidxValue (scanFirst 32 .outidx s.resp (roleAt s t) ⟨s.buf, 0#8, none⟩).first)) [] } :=
    exec_reads (.inr rfl) hu
  have hscan := scanFirst_first 32 s.resp (roleAt s t) ⟨s.buf, 0#8, none⟩ rfl
  refine ⟨fun hnone => ?_, fun k n hk hrole hleast => ?_⟩
  · obtain ⟨-, hfirst⟩ | ⟨k, hk, ⟨n, hrole⟩, -⟩ := hscan
    · rw [hexec, hfirst]
      rfl
    · exact absurd hrole (hnone k hk n)
  · obtain ⟨hnone, -⟩ | ⟨j, -, ⟨m, hrole'⟩, hleast', hfirst⟩ := hscan
    · exact absurd hrole (hnone k hk n)
    · have hjk : j = k := by
        rcases Nat.lt_trichotomy j k with h | h | h
        · exact absurd hrole' (hleast j h m)
        · exact h
        · exact absurd hrole (hleast' k h n)
      rw [hexec, hfirst, hjk]
      rfl

/-- Settles O23: the bits DECOUT gathers at positions that hold the placed byte are bits of that byte. -/
theorem decoutRecoversPlacedByte : Obligations.DecoutRecoversPlacedByte := by
  unfold Obligations.DecoutRecoversPlacedByte
  intro s t b hu hplaced
  obtain ⟨out, hexec, hbits⟩ := decoutGathersOutputBits s t hu
  have hindex {n : Nat} (hn : n < 8) : (BitVec.ofNat 5 n).toNat = n := by
    rw [BitVec.toNat_ofNat]
    omega
  have hplacedAt {n k : Nat} (hn : n < 8) (hk : k < 32)
      (hrole : decodeRole (Memory.read s.tpl (32 * t.toNat + k)) = some (.o (BitVec.ofNat 5 n))) :
      s.resp.getLsbD k = b.getLsbD n := by
    have := hplaced k (BitVec.ofNat 5 n) hk (by rw [hindex hn]; omega) hrole
    rwa [hindex hn] at this
  have hmask : ∀ n, n < 8 → (out.getLsbD n = true ↔ b.getLsbD n = true ∧
      ∃ k, k < 32 ∧ decodeRole (Memory.read s.tpl (32 * t.toNat + k)) = some (.o (BitVec.ofNat 5 n))) := by
    intro n hn
    rw [hbits n hn]
    constructor
    · rintro ⟨k, hk, hrole, hbit⟩
      exact ⟨hplacedAt hn hk hrole ▸ hbit, k, hk, hrole⟩
    · rintro ⟨hbit, k, hk, hrole⟩
      exact ⟨k, hk, hrole, (hplacedAt hn hk hrole).trans hbit⟩
  refine ⟨out, hexec, hmask, fun hall => BitVec.eq_of_getLsbD_eq fun n hn => ?_⟩
  rw [Bool.eq_iff_iff, hmask n hn, and_iff_left (hall n hn)]

/-! ### Sequences of operations (R120, R165, R166) -/

/-- A sequence ends with the operation that raised an error (R120). -/
theorem thenOp_raise (kind : ErrKind) (info : Half) (s : State) (i : Instr) :
    thenOp (.next (raise kind info s)) i = .next (raise kind info s) := by
  cases kind <;> rfl

/-- A codec operation leaves a usable slot usable, so the next one of a sequence runs on what it left. -/
theorem thenOp_codecOp (op op' : ScanOp) {t : Byte} {s : State} (hu : Usable s t) :
    thenOp (.next (codecOp op t s)) (codecInstr op' t) = .next (codecOp op' t (codecOp op t s)) := by
  have hu' : Usable (codecOp op t s) t := hu
  exact exec_codecInstr_usable op' hu'

/-- Two codec operations in sequence on a usable slot. -/
theorem thenOp_exec_codecInstr (op op' : ScanOp) {t : Byte} {s : State} (hu : Usable s t) :
    thenOp (exec (codecInstr op t) s) (codecInstr op' t) = .next (codecOp op' t (codecOp op t s)) := by
  rw [exec_codecInstr_usable op hu, thenOp_codecOp op op' hu]

/-- Two encode operations in sequence change `BUF` and the port, nothing else. -/
theorem codecOp_codecOp_encodes {op op' : ScanOp} (h : Encodes op) (h' : Encodes op') (t : Byte) (s : State) :
    codecOp op' t (codecOp op t s) =
      { s with buf := (codecOp op' t (codecOp op t s)).buf, result := okPort none [] } := by
  conv_lhs => rw [codecOp_encodes h' t (codecOp op t s)]
  rw [codecOp_encodes h t s]

/-- Encode operations that write different roles commute (R166). -/
theorem codecOp_comm {op op' : ScanOp} (h : Encodes op) (h' : Encodes op')
    (hdisjoint : ∀ r, roleWrites op r = none ∨ roleWrites op' r = none) (t : Byte) (s : State) :
    codecOp op' t (codecOp op t s) = codecOp op t (codecOp op' t s) := by
  have hbuf : (codecOp op' t (codecOp op t s)).buf = (codecOp op t (codecOp op' t s)).buf := by
    refine BitVec.eq_of_getLsbD_eq fun k hk => ?_
    simp only [codecOp_buf_getLsbD _ _ _ hk, roleAt_codecOp]
    obtain hnone | hnone := hdisjoint (roleAt s t k) <;> simp [hnone]
  rw [codecOp_codecOp_encodes h h', codecOp_codecOp_encodes h' h, hbuf]

/-- An encode operation replaces an earlier one that writes no other roles (R166). -/
theorem codecOp_replaces {op op' : ScanOp} (h : Encodes op) (h' : Encodes op')
    (hcovers : ∀ r, roleWrites op r = none → roleWrites op' r = none) (t : Byte) (s : State) :
    codecOp op t (codecOp op' t s) = codecOp op t s := by
  have hbuf : (codecOp op t (codecOp op' t s)).buf = (codecOp op t s).buf := by
    refine BitVec.eq_of_getLsbD_eq fun k hk => ?_
    simp only [codecOp_buf_getLsbD _ _ _ hk, roleAt_codecOp]
    cases hwrite : roleWrites op (roleAt s t k) with
    | none => simp [hcovers _ hwrite]
    | some b => rfl
  rw [codecOp_codecOp_encodes h' h, codecOp_encodes h t s, hbuf]

/-- ENCFIX and ENCADDR write different roles. -/
theorem roleWrites_encfix_encaddr (address : Word) (r : Option Role) :
    roleWrites .encfix r = none ∨ roleWrites (.encaddr address) r = none := by
  rcases r with _ | _ | _ | _ | _ | _ | _ <;> simp [roleWrites]

/-- ENCFIX and ENCIN write different roles. -/
theorem roleWrites_encfix_encin (data : Byte) (r : Option Role) :
    roleWrites .encfix r = none ∨ roleWrites (.encin data) r = none := by
  rcases r with _ | _ | _ | _ | _ | _ | _ <;> simp [roleWrites]

/-- ENCADDR and ENCIN write different roles. -/
theorem roleWrites_encaddr_encin (address : Word) (data : Byte) (r : Option Role) :
    roleWrites (.encaddr address) r = none ∨ roleWrites (.encin data) r = none := by
  rcases r with _ | _ | _ | _ | _ | _ | _ <;> simp [roleWrites]

/-- Which roles ENCADDR writes does not depend on the address. -/
theorem roleWrites_encaddr_none (a a' : Word) (r : Option Role) (h : roleWrites (.encaddr a) r = none) :
    roleWrites (.encaddr a') r = none := by
  rcases r with _ | _ | _ | _ | _ | _ | _ <;> simp_all [roleWrites]

/-- Which roles ENCIN writes does not depend on the data byte. -/
theorem roleWrites_encin_none (d d' : Byte) (r : Option Role) (h : roleWrites (.encin d) r = none) :
    roleWrites (.encin d') r = none := by
  rcases r with _ | _ | _ | _ | _ | _ | _ <;> simp_all [roleWrites]

/-- Settles O22: by the roles that the operations write. -/
theorem encodersCommuteAndReplace : Obligations.EncodersCommuteAndReplace := by
  unfold Obligations.EncodersCommuteAndReplace
  intro s t a a' d d' hu
  have hcomm {op op' : ScanOp} (h : Encodes op) (h' : Encodes op')
      (hdisjoint : ∀ r, roleWrites op r = none ∨ roleWrites op' r = none) :
      thenOp (exec (codecInstr op t) s) (codecInstr op' t) = thenOp (exec (codecInstr op' t) s) (codecInstr op t) := by
    rw [thenOp_exec_codecInstr op op' hu, thenOp_exec_codecInstr op' op hu, codecOp_comm h h' hdisjoint]
  have hreplace {op op' : ScanOp} (h : Encodes op) (h' : Encodes op')
      (hcovers : ∀ r, roleWrites op r = none → roleWrites op' r = none) :
      thenOp (exec (codecInstr op' t) s) (codecInstr op t) = exec (codecInstr op t) s := by
    rw [thenOp_exec_codecInstr op' op hu, exec_codecInstr_usable op hu, codecOp_replaces h h' hcovers]
  exact ⟨hcomm encodes_encfix (encodes_encaddr a) (roleWrites_encfix_encaddr a),
    hcomm encodes_encfix (encodes_encin d) (roleWrites_encfix_encin d),
    hcomm (encodes_encaddr a) (encodes_encin d) (roleWrites_encaddr_encin a d),
    hreplace encodes_encfix encodes_encfix (fun _ h => h),
    hreplace (encodes_encaddr a) (encodes_encaddr a') (roleWrites_encaddr_none a a'),
    hreplace (encodes_encin d) (encodes_encin d') (roleWrites_encin_none d d')⟩

/-- The state after `LDBUF 0`, from which BUILD encodes (R165, R220). -/
def cleared (s : State) : State := endOk none [] { s with buf := 0#32 }

/-- BUILD is `LDBUF 0` and then the three encode operations (R120, R165). -/
theorem build_eq (t : Byte) (address : Word) (data : Byte) (s : State) :
    build t address data s = thenOp (thenOp (exec (codecInstr .encfix t) (cleared s))
      (codecInstr (.encaddr address) t)) (codecInstr (.encin data) t) := rfl

/-- BUILD on a usable slot, with its word bit by bit: what the last operation to write a position wrote, else 0. -/
theorem build_usable {t : Byte} {s : State} (hu : Usable s t) (address : Word) (data : Byte) :
    ∃ w : Word, build t address data s = .next { s with buf := w, result := okPort none [] } ∧
      ∀ k, k < 32 → w.getLsbD k = (roleWrites (.encin data) (roleAt s t k)).getD
        ((roleWrites (.encaddr address) (roleAt s t k)).getD ((roleWrites .encfix (roleAt s t k)).getD false)) := by
  have hcleared : Usable (cleared s) t := hu
  have hfixed : Usable (codecOp .encfix t (cleared s)) t := hu
  refine ⟨(codecOp (.encin data) t (codecOp (.encaddr address) t (codecOp .encfix t (cleared s)))).buf, ?_,
    fun k hk => ?_⟩
  · rw [build_eq, thenOp_exec_codecInstr _ _ hcleared, thenOp_codecOp _ _ hfixed,
      codecOp_codecOp_encodes (encodes_encaddr address) (encodes_encin data)]
    rfl
  · simp only [codecOp_buf_getLsbD _ _ _ hk, roleAt_codecOp]
    simp only [cleared, endOk_buf, BitVec.getLsbD_zero]
    rfl

/-- BUILD ends with the error its first encode operation raises (R120). -/
theorem build_raise {t : Byte} {s : State} {kind : ErrKind} (hk : isConfiguration kind = true) {info : Half}
    (h : exec (codecInstr .encfix t) (cleared s) = .next (raise kind info (cleared s))) (address : Word) (data : Byte) :
    build t address data s = .next { s with
      buf := 0#32, err := errCode kind, errinfo := info, cfgf := true, result := errPort (errCode kind) } := by
  rw [build_eq, h, thenOp_raise, thenOp_raise, raise_configuration hk]
  rfl

/-- Settles O21: from the word 0 each position that carries a bit is written by the one operation of its role; the refusals
are those of ENCFIX. -/
theorem buildAssemblesWord : Obligations.BuildAssemblesWord := by
  unfold Obligations.BuildAssemblesWord
  refine fun s t address data => ⟨fun hu => ?_, fun hout => ?_, fun hrange hfree => ?_⟩
  · obtain ⟨w, hbuild, hbits⟩ := build_usable hu address data
    refine ⟨w, hbuild, fun k hk => (hbits k hk).trans ?_⟩
    rw [roleAt_eq]
    rcases decodeRole _ with _ | _ | _ | _ | _ | n | _
    case some.i => rw [roleWrites_encin_i]; rfl
    all_goals rfl
  · exact build_raise rfl (exec_codecInstr_out .encfix (by exact hout)) address data
  · exact build_raise rfl (exec_codecInstr_invalid .encfix (by exact hrange) (by exact hfree)) address data

end Sys2Proof.Machine

/-! PROOFS of the family 41_framer_send.md. SEND has two ends, by the length of its payload; the bytes it emits are the frame
of 30_encoding.md. A receive on a queued frame goes through the header, the payload and the checksum in three runs. -/

namespace Sys2Proof.Machine

/-! ### The frame of a payload (R100, R102) -/

theorem lenHi_lengthHalf {payload : List Byte} (h : payload.length ≤ 65535) :
    lenHi (lengthHalf payload) = BitVec.ofNat 8 (payload.length / 256) := by
  apply BitVec.eq_of_toNat_eq
  rw [lenHi_toNat, lengthHalf, BitVec.toNat_ofNat, BitVec.toNat_ofNat]
  omega

theorem lenLo_lengthHalf (payload : List Byte) :
    lenLo (lengthHalf payload) = BitVec.ofNat 8 (payload.length % 256) := by
  apply BitVec.eq_of_toNat_eq
  rw [lenLo_toNat, lengthHalf, BitVec.toNat_ofNat, BitVec.toNat_ofNat]
  omega

/-- What SEND emits before the checksum is what the frame has there, for a length its two bytes can say (R65, R100). -/
theorem frameBody_eq_frameFront (seq : Byte) {payload : List Byte} (h : payload.length ≤ 65535) :
    frameBody seq payload = frameFront seq payload := by
  rw [frameBody, lenHi_lengthHalf h, lenLo_lengthHalf]
  rfl

theorem length_frameBody (seq : Byte) (payload : List Byte) : (frameBody seq payload).length = 5 + payload.length := by
  rw [frameBody, List.length_append]
  rfl

/-- The byte that follows a list as its exclusive OR makes the whole exclusive OR zero (R102). -/
theorem xorAll_append_xorAll (front : List Byte) : xorAll (front ++ [xorAll front]) = 0x00#8 := by
  simp [xorAll_append, xorAll]

/-- The sum a receive has after header, payload and checksum is zero (R102, R197). -/
theorem xorAll_residue (header payload : List Byte) :
    0#8 ^^^ xorAll header ^^^ xorAll payload ^^^ xorAll (header ++ payload) = 0#8 := by
  simp [xorAll_append]

/-! ### The two ends of SEND (R170, R174) -/

theorem exec_send {s : State} {payload : List Byte} (h : payload.length ≤ s.par.maxPayload) :
    exec (.send payload) s = .next { s with
      txs := s.txs ++ frameBody s.seq payload ++ [xorAll (frameBody s.seq payload)]
      txsum := xorAll (frameBody s.seq payload), result := okPort none [] } := by
  have hexec : exec (.send payload) s = .next (endOk none [] (sendFrame payload s)) := if_pos h
  rw [hexec, sendFrame_eq]
  rfl

theorem exec_send_tooLong {s : State} {payload : List Byte} (h : s.par.maxPayload < payload.length) :
    exec (.send payload) s = .next (raise .payloadTooLong (lengthHalf payload) s) :=
  if_neg (Nat.not_le_of_lt h)

/-- A usage error writes the record and the port, nothing else (R244). -/
theorem raise_usage {kind : ErrKind} (ht : isTransport kind = false) (hc : isConfiguration kind = false) (info : Half)
    (s : State) : raise kind info s = { s with err := errCode kind, errinfo := info, result := errPort (errCode kind) } := by
  simp [raise, ht, hc, errPort]

/-- Settles O28: the bytes emitted are the frame, its length fitting two bytes. -/
theorem sendEmitsFrame : Obligations.SendEmitsFrame := by
  unfold Obligations.SendEmitsFrame
  intro s payload hmax hlen
  refine ⟨xorAll (frameFront s.seq payload), ?_, rfl⟩
  rw [exec_send hmax, frameBody_eq_frameFront s.seq hlen]
  simp only [frameFront, List.append_assoc]

/-- Settles O29: the front is what SEND emits before the checksum. -/
theorem sentChecksumResolvesToZero : Obligations.SentChecksumResolvesToZero := by
  unfold Obligations.SentChecksumResolvesToZero
  intro s t payload hmax hexec
  rw [exec_send hmax] at hexec
  cases hexec
  exact ⟨frameBody s.seq payload, _, rfl, length_frameBody s.seq payload, rfl, rfl, xorAll_append_xorAll _⟩

/-- Settles O30: the refusal is a usage error, raised before any byte is written. -/
theorem sendRefusesLongPayload : Obligations.SendRefusesLongPayload := by
  unfold Obligations.SendRefusesLongPayload
  intro s payload hmax _
  rw [exec_send_tooLong hmax, raise_usage rfl rfl]
  rfl

/-! ### The last two waiting states on a byte (R195 to R200) -/

/-- A payload byte for which the buffer has an entry (R195). -/
theorem recvByte_wData {b : Byte} {s : State} (h : s.rxs = .wData) (hroom : s.rxcnt.toNat < s.par.maxPayload) :
    recvByte b s = .next { s with
      rxsum := s.rxsum ^^^ b, rxbuf := Memory.write s.rxbuf s.rxcnt.toNat b, rxcnt := s.rxcnt + 1#16
      rxs := if s.rxcnt + 1#16 = s.rxlen then .wCsum else .wData } := by
  simp [recvByte, recvRule, storeData, h, hroom]

/-- The checksum that resolves the sum to zero (R197, R200). -/
theorem recvByte_wCsum_accepted {b : Byte} {s : State} (h : s.rxs = .wCsum) (hsum : s.rxsum ^^^ b = 0#8)
    (hlen : s.rxlen.toNat ≤ s.par.maxPayload) : recvByte b s = .next { s with
      rxsum := 0#8, rxs := .idle, seq := s.seq + 1#8
      result := okPort (some (s.rxlen.setWidth 32)) (Memory.firstBytes s.rxbuf s.rxlen.toNat) } := by
  simp [recvByte, recvRule, accept, h, hsum, hlen, endOk, okPort, okCode]

/-! ### A receive on a queued frame (R189 to R200, R212) -/

/-- A receive that waits takes the head of the queue (R62, R189). -/
theorem run_queued {s t : State} {b : Byte} {rest : List Byte} (n : Nat) (hp : s.resetPin = false) (hs : s.scan = none)
    (hw : s.rxs ≠ .idle) (hq : s.rxq = b :: rest) (h : recvByte b { s with rxq := rest } = .next t) :
    Host.Core.run core (n + 1) s = Host.Core.run core n t := by
  refine run_succ ?_
  rw [step_waiting hp hs hw, receiveStep, hq]
  exact h

theorem setLenLo_setLenHi_self (old len : Half) : setLenLo (setLenHi old (lenHi len)) (lenLo len) = len := by
  apply BitVec.eq_of_toNat_eq
  have := len.isLt
  rw [setLenLo_toNat, setLenHi_toNat, lenHi_toNat, lenLo_toNat]
  omega

/-- The marker and the awaited sequence number (R190, R191). -/
theorem run_queued_start_seq {s : State} {rest : List Byte} (n : Nat) (hp : s.resetPin = false) (hs : s.scan = none)
    (hst : s.rxs = .wStart) (hq : s.rxq = Config.start :: s.seq :: rest) :
    Host.Core.run core (n + 2) s = Host.Core.run core n { s with
      rxq := rest, rxsum := s.rxsum ^^^ Config.start ^^^ s.seq, rxs := .wLenHi } := by
  refine (run_queued (n + 1) hp hs (by simp [hst]) hq ((recvByte_wStart (by exact hst)).trans (if_pos rfl))).trans ?_
  exact run_queued n (by exact hp) (by exact hs) (by simp) rfl ((recvByte_wSeq rfl).trans (if_pos rfl))

/-- A length that fits (R192, R193). -/
theorem run_queued_length {s : State} {len : Half} {rest : List Byte} (n : Nat) (hp : s.resetPin = false)
    (hs : s.scan = none) (hst : s.rxs = .wLenHi) (hlen : len.toNat ≤ s.rxmax.toNat)
    (hq : s.rxq = lenHi len :: lenLo len :: rest) :
    Host.Core.run core (n + 2) s = Host.Core.run core n { s with
      rxq := rest, rxlen := len, rxsum := s.rxsum ^^^ lenHi len ^^^ lenLo len, rxs := .wToken } := by
  have hself := setLenLo_setLenHi_self s.rxlen len
  refine (run_queued (n + 1) hp hs (by simp [hst]) hq (recvByte_wLenHi (by exact hst))).trans ?_
  refine (run_queued n (by exact hp) (by exact hs) (by simp) rfl ((recvByte_wLenLo rfl).trans (if_pos ?_))).trans ?_
  · exact hself.symm ▸ hlen
  · simp only [hself]

/-- The header, for the awaited sequence number and a length that fits (R190 to R194). -/
theorem run_queued_header {s : State} {len : Half} {rest : List Byte} (hp : s.resetPin = false) (hs : s.scan = none)
    (hst : s.rxs = .wStart) (hlen : len.toNat ≤ s.rxmax.toNat)
    (hq : s.rxq = frameHeaderBytes s.seq (lenHi len) (lenLo len) ++ rest) :
    Host.Core.run core 5 s = .next { s with
      rxq := rest, rxlen := len, rxsum := s.rxsum ^^^ xorAll (frameHeaderBytes s.seq (lenHi len) (lenLo len))
      rxs := if len = 0#16 then .wCsum else .wData } := by
  refine (run_queued_start_seq 3 hp hs hst hq).trans ?_
  refine (run_queued_length 1 (by exact hp) (by exact hs) rfl (by exact hlen) rfl).trans ?_
  refine (run_queued 0 (by exact hp) (by exact hs) (by simp) rfl ((recvByte_wToken rfl).trans (if_pos rfl))).trans ?_
  simp only [frameHeaderBytes, xorAll, BitVec.xor_assoc, BitVec.xor_zero]
  rfl

/-- The payload bytes still missing, each into the next entry of the buffer (R195). -/
theorem run_queued_payload {s : State} {payload rest : List Byte} (hp : s.resetPin = false) (hs : s.scan = none)
    (hst : s.rxs = if s.rxcnt = s.rxlen then .wCsum else .wData)
    (hcnt : s.rxcnt.toNat + payload.length = s.rxlen.toNat) (hlen : s.rxlen.toNat ≤ s.par.maxPayload)
    (hq : s.rxq = payload ++ rest) :
    Host.Core.run core payload.length s = .next { s with
      rxq := rest, rxcnt := s.rxlen, rxsum := s.rxsum ^^^ xorAll payload
      rxbuf := Memory.writeAll s.rxbuf s.rxcnt.toNat payload, rxs := .wCsum } := by
  induction payload generalizing s with
  | nil =>
    have hall : s.rxcnt = s.rxlen := BitVec.eq_of_toNat_eq hcnt
    rw [if_pos hall] at hst
    have hsame {q c st} (hq : s.rxq = q) (hc : s.rxcnt = c) (hst : s.rxs = st) :
        s = { s with rxq := q, rxcnt := c, rxs := st } := by subst hq hc hst; rfl
    simp only [Memory.writeAll, xorAll, BitVec.xor_zero]
    exact congrArg Host.Outcome.next (hsame hq hall hst)
  | cons b payload ih =>
    rw [List.length_cons] at hcnt
    have hmore : s.rxcnt ≠ s.rxlen := fun h => by rw [h] at hcnt; omega
    have hroom : s.rxcnt.toNat < s.par.maxPayload := by omega
    have hnext : (s.rxcnt + 1#16).toNat = s.rxcnt.toNat + 1 := by
      have := s.rxlen.isLt
      rw [BitVec.toNat_add, BitVec.toNat_ofNat]
      omega
    rw [if_neg hmore] at hst
    refine (run_queued payload.length hp hs (by simp [hst]) hq (recvByte_wData (by exact hst) hroom)).trans ?_
    refine (ih (by exact hp) (by exact hs) rfl (by dsimp only; omega) (by exact hlen) rfl).trans ?_
    simp only [hnext, xorAll, Memory.writeAll, BitVec.xor_assoc]

/-- The bytes written from address 0 are the first ones read back. -/
theorem Memory.firstBytes_writeAll {m : Memory} (hm : Memory.wf m = true) (bs : List Byte) :
    Memory.firstBytes (Memory.writeAll m 0 bs) bs.length = bs := by
  refine List.ext_getElem (by simp) fun k _ hk => ?_
  have hread := Memory.read_writeAll_same hm 0 bs hk
  simpa [Memory.firstBytes, hk] using hread

/-- RECV on a queue that begins with the frame of `SEQ` and of a payload it will take ends `OK` with that payload (R200,
R212). -/
theorem run_recv_frame {s : State} {m : Half} {payload rest : List Byte} (hbuf : Memory.wf s.rxbuf = true) (hr : Ready s)
    (hq : s.rxq = frame s.seq payload ++ rest) (hm : payload.length ≤ m.toNat)
    (hmax : payload.length ≤ s.par.maxPayload) :
    Host.Core.run core (6 + payload.length) (recvStart m s) = .next { recvStart m s with
      rxq := rest, rxlen := lengthHalf payload, rxcnt := lengthHalf payload
      rxbuf := Memory.writeAll s.rxbuf 0 payload, rxs := .idle, seq := s.seq + 1#8
      result := okPort (some (BitVec.ofNat 32 payload.length)) payload } := by
  obtain ⟨hp, hs, -⟩ := hr
  have hbound := m.isLt
  have hlen : (lengthHalf payload).toNat = payload.length := by
    rw [lengthHalf, BitVec.toNat_ofNat]
    omega
  have hfits : (lengthHalf payload).toNat ≤ (recvStart m s).rxmax.toNat := by
    rw [recvStart_rxmax, BitVec.toNat_ofNat, hlen]
    omega
  rw [frame, ← frameBody_eq_frameFront s.seq (by omega), frameBody, List.append_assoc, List.append_assoc] at hq
  rw [show 6 + payload.length = 5 + (payload.length + (0 + 1)) by omega]
  refine (run_add (run_queued_header (s := recvStart m s) hp hs rfl hfits hq)).trans ?_
  refine (run_add (run_queued_payload (by exact hp) (by exact hs) (if_congr eq_comm rfl rfl) (by simp [hlen])
    (hlen ▸ hmax) rfl)).trans ?_
  refine (run_queued 0 (by exact hp) (by exact hs) (by simp) rfl
    (recvByte_wCsum_accepted rfl (xorAll_residue _ _) (hlen ▸ hmax))).trans ?_
  have hport : okPort (some ((lengthHalf payload).setWidth 32))
      (Memory.firstBytes (Memory.writeAll s.rxbuf 0 payload) (lengthHalf payload).toNat) =
      okPort (some (BitVec.ofNat 32 payload.length)) payload := by
    rw [hlen, Memory.firstBytes_writeAll hbuf, ← hlen, BitVec.ofNat_toNat]
  rw [← hport]
  rfl

/-- Settles O47: the queue is the frame SEND emitted, and the receiver accepts it. -/
theorem sentFrameIsAccepted : Obligations.SentFrameIsAccepted := by
  unfold Obligations.SentFrameIsAccepted
  intro s s' u u1 payload m hmax hlen hsend hinv hready hseq htxs hm hmaxu hrecv
  rw [exec_send hmax, frameBody_eq_frameFront s.seq hlen] at hsend
  cases hsend
  cases hrecv
  have hqueue : u.rxq = frame u.seq payload ++ [] := by
    rw [hseq, List.append_nil]
    simpa [frame] using htxs.symm
  exact ⟨_, run_recv_frame hinv.rxbufForm hready hqueue hm hmaxu, rfl, rfl, rfl⟩

end Sys2Proof.Machine

/-! PROOFS of the family 42_framer_receive.md. The rules of the waiting states on the head of the queue; no step stops and
every step of a receive lowers the bound on its reads, both by what a receive step does with a byte; a queued frame, whole or
altered, in three runs. What a receive has taken is told by the frame bytes it has read (`bytesRead`): along them an accepted
frame is the bytes supplied to it (`Supplied`), and a receive on a listed line ends as R210 says (`HeardAs`). -/

namespace Sys2Proof.Machine

/-! ### One step on the head of the queue or on a silence (R189 to R202) -/

/-- A receive that waits takes the head of the queue, by the rule of its state (R62, R189). -/
theorem step_waiting_head {s : State} {st : RxState} {b : Byte} {rest : List Byte}
    {o : Host.Outcome State Fault Refusal} (h : Waiting s st) (hq : s.rxq = b :: rest)
    (hrule : recvByte b { s with rxq := rest } = o) : step s = o := by
  obtain ⟨hp, hs, rfl, hw⟩ := h
  rw [step_waiting hp hs hw, receiveStep, hq]
  exact hrule

/-- Settles O31: the start step is the meaning of RECV. -/
theorem recvStarts : Obligations.RecvStarts := by
  unfold Obligations.RecvStarts
  intro s m
  rfl

/-- Settles O32: by the rule of `W_START`, a mismatch being a transport error. -/
theorem startByteMatched : Obligations.StartByteMatched := by
  unfold Obligations.StartByteMatched
  intro s b rest h hq
  have ⟨_, _, hst, _⟩ := h
  rw [step_waiting_head h hq (recvByte_wStart (by exact hst))]
  refine ⟨fun hb => if_pos hb, fun hb => (if_neg hb).trans ?_⟩
  rw [raise_transport rfl]
  rfl

/-- Settles O33: by the rule of `W_SEQ`; the two bytes of the information as one number. -/
theorem sequenceByteMatched : Obligations.SequenceByteMatched := by
  unfold Obligations.SequenceByteMatched
  intro s b rest h hq
  have ⟨_, _, hst, _⟩ := h
  rw [step_waiting_head h hq (recvByte_wSeq (by exact hst))]
  refine ⟨fun hb => if_pos hb, fun hb => (if_neg hb).trans ?_⟩
  rw [raise_transport rfl, append_byte_eq]
  rfl

/-- Settles O34: by the rule of `W_LENHI`. -/
theorem lengthHighTaken : Obligations.LengthHighTaken := by
  unfold Obligations.LengthHighTaken
  intro s b rest h hq
  have ⟨_, _, hst, _⟩ := h
  rw [step_waiting_head h hq (recvByte_wLenHi (by exact hst))]
  exact ⟨setLenHi s.rxlen b, rfl, setLenHi_toNat s.rxlen b⟩

/-- Settles O35: by the rule of `W_LENLO`, which compares the completed length with `RXMAX`. -/
theorem lengthLowChecked : Obligations.LengthLowChecked := by
  unfold Obligations.LengthLowChecked
  intro s b rest h hq
  have ⟨_, _, hst, _⟩ := h
  rw [step_waiting_head h hq (recvByte_wLenLo (by exact hst))]
  refine ⟨setLenLo s.rxlen b, setLenLo_toNat s.rxlen b, fun hfits => if_pos hfits, fun hlong => ?_⟩
  refine (if_neg (Nat.not_le_of_lt hlong)).trans ?_
  rw [raise_transport rfl]
  rfl

/-- Settles O36: by the rule of `W_TOKEN`; a length is zero exactly when its number is. -/
theorem tokenByteMatched : Obligations.TokenByteMatched := by
  unfold Obligations.TokenByteMatched
  intro s b rest h hq
  have ⟨_, _, hst, _⟩ := h
  rw [step_waiting_head h hq (recvByte_wToken (by exact hst))]
  refine ⟨fun hb => (if_neg hb).trans ?_, fun hb hlen => (if_pos hb).trans ?_, fun hb hlen => (if_pos hb).trans ?_⟩
  · rw [raise_transport rfl]
    rfl
  · have hne : s.rxlen ≠ 0#16 := fun hzero => by simp [hzero] at hlen
    simp only [if_neg hne]
  · have hzero : s.rxlen = 0#16 := BitVec.eq_of_toNat_eq hlen
    simp only [if_pos hzero]

/-- Settles O39: a silence at a wait is a timeout, whose information is the code of the state. -/
theorem silenceTimesOut : Obligations.SilenceTimesOut := by
  unfold Obligations.SilenceTimesOut
  intro s st rest h hq hl
  have ⟨_, _, hst, hw⟩ := h
  rw [step_waiting_empty h hq, lineStep_silence hl, recvStep_timeout (hst ▸ hw), raise_transport rfl, hst]
  cases st <;> rfl

/-- After a send that ended `OK` the receive starts (R120, R216). -/
theorem exchange_sent {s u : State} {payload : List Byte} (m : Half) (h : exec (.send payload) s = .next u)
    (hok : endedOk u = true) : exchange payload m s = exec (.recv m) u := by
  rw [exchange, h]
  exact if_pos hok

/-- After a send that raised the receive is not performed (R120, R216). -/
theorem exchange_refused {s u : State} {payload : List Byte} (m : Half) (h : exec (.send payload) s = .next u)
    (herr : endedOk u = false) : exchange payload m s = exec (.send payload) s := by
  rw [exchange, h]
  exact if_neg (by simp [herr])

/-- Settles O48: a send that ends `OK` leaves its frame and its sum, and the receive starts on that; a send that raises ends
the sequence. -/
theorem exchangeIsSendThenRecv : Obligations.ExchangeIsSendThenRecv := by
  unfold Obligations.ExchangeIsSendThenRecv
  intro s payload m hlen
  refine ⟨fun hmax => ?_, fun hmax => ?_⟩
  · have hsend := exec_send hmax
    rw [frameBody_eq_frameFront s.seq hlen, List.append_assoc] at hsend
    have hexchange := exchange_sent m hsend rfl
    exact ⟨⟨_, hsend, hexchange⟩, hexchange⟩
  · have hsend := exec_send_tooLong hmax
    rw [raise_usage rfl rfl] at hsend
    have hexchange := exchange_refused m hsend rfl
    exact ⟨hexchange, hexchange.trans hsend⟩

/-! ### The payload and the checksum (R195, R197, R200) -/

/-- The count after one more byte, while bytes are missing (R195). -/
theorem toNat_add_one_of_lt {cnt len : Half} (h : cnt.toNat < len.toNat) : (cnt + 1#16).toNat = cnt.toNat + 1 := by
  have := len.isLt
  rw [BitVec.toNat_add, BitVec.toNat_ofNat]
  omega

/-- The entry the next payload byte goes to exists (R195). -/
theorem Inv.room_of_wData {s : State} (h : Inv s) (hst : s.rxs = .wData) :
    s.rxcnt.toNat < s.rxlen.toNat ∧ s.rxcnt.toNat < s.par.maxPayload := by
  have hcounts := h.counts
  simp only [ReceiveCounts, hst] at hcounts
  obtain ⟨hcnt, hlen⟩ := hcounts
  exact ⟨hcnt, (hcnt.trans_le hlen).trans_le (h.rxmaxRange (by simp [hst]))⟩

/-- When the checksum is awaited, the whole payload is stored, and the buffer holds it (R195, R200). -/
theorem Inv.complete_of_wCsum {s : State} (h : Inv s) (hst : s.rxs = .wCsum) :
    s.rxcnt = s.rxlen ∧ s.rxlen.toNat ≤ s.rxmax.toNat ∧ s.rxlen.toNat ≤ s.par.maxPayload := by
  have hcounts := h.counts
  simp only [ReceiveCounts, hst] at hcounts
  obtain ⟨hcnt, hlen⟩ := hcounts
  exact ⟨hcnt, hlen, hlen.trans (h.rxmaxRange (by simp [hst]))⟩

/-- Settles O37: the invariant gives the entry, and the store writes it and no other. -/
theorem dataByteStored : Obligations.DataByteStored := by
  unfold Obligations.DataByteStored
  intro s b rest hinv h hq
  have ⟨_, _, hst, _⟩ := h
  obtain ⟨hcnt, hroom⟩ := hinv.room_of_wData hst
  have hstep := step_waiting_head h hq (recvByte_wData (by exact hst) hroom)
  refine ⟨hroom, Memory.write s.rxbuf s.rxcnt.toNat b, s.rxcnt + 1#16, toNat_add_one_of_lt hcnt,
    Memory.read_write_same hinv.rxbufForm _ b, fun a ha => Memory.read_write_other _ b ha, fun hlast => ?_, fun hmore => ?_⟩
  · rw [hstep]
    simp only [if_pos hlast]
  · rw [hstep]
    simp only [if_neg hmore, hst]

/-- The checksum that leaves a residue (R197). -/
theorem recvByte_wCsum_rejected {b : Byte} {s : State} (h : s.rxs = .wCsum) (hsum : s.rxsum ^^^ b ≠ 0#8) :
    recvByte b s = .next (raise .checksum (info8 (s.rxsum ^^^ b)) { s with rxsum := s.rxsum ^^^ b }) := by
  simp [recvByte, recvRule, h, hsum]

/-- The next sequence number, modulo 256 (R200). -/
theorem seq_succ_eq (seq : Byte) : seq + 1#8 = BitVec.ofNat 8 ((seq.toNat + 1) % 256) := by
  apply BitVec.eq_of_toNat_eq
  rw [BitVec.toNat_add, BitVec.toNat_ofNat, BitVec.toNat_ofNat]
  omega

/-- Settles O38: the invariant gives the sum of what was read; the rule of `W_CSUM` decides by it. -/
theorem checksumDecides : Obligations.ChecksumDecides := by
  unfold Obligations.ChecksumDecides
  intro s b rest hinv h hq
  have ⟨_, _, hst, _⟩ := h
  obtain ⟨hcnt, -, hroom⟩ := hinv.complete_of_wCsum hst
  refine ⟨rxsum_read hinv (by simp [hst]) rfl, ?_, fun hsum => ?_, fun hsum => ?_⟩
  · simp [bytesRead, hst, hcnt]
    omega
  · refine (step_waiting_head h hq (recvByte_wCsum_rejected (by exact hst) hsum)).trans ?_
    rw [raise_transport rfl]
    rfl
  · refine (step_waiting_head h hq (recvByte_wCsum_accepted (by exact hst) hsum hroom)).trans ?_
    rw [← seq_succ_eq]
    rfl

/-! ### No step stops (R195) -/

/-- A receive step on a byte answers a next state: the two accesses to the buffer are in range (R195, R200). -/
theorem recvByte_next {s : State} (h : Inv s) (b : Byte) : ∃ t, recvByte b s = .next t := by
  cases hst : s.rxs with
  | idle => exact ⟨s, recvByte_idle b s hst⟩
  | wStart => rw [recvByte_wStart hst]; split <;> exact ⟨_, rfl⟩
  | wSeq => rw [recvByte_wSeq hst]; split <;> exact ⟨_, rfl⟩
  | wLenHi => exact ⟨_, recvByte_wLenHi hst⟩
  | wLenLo => rw [recvByte_wLenLo hst]; split <;> exact ⟨_, rfl⟩
  | wToken => rw [recvByte_wToken hst]; split <;> exact ⟨_, rfl⟩
  | wData => exact ⟨_, recvByte_wData hst (h.room_of_wData hst).2⟩
  | wCsum =>
    obtain ⟨-, -, hroom⟩ := h.complete_of_wCsum hst
    by_cases hsum : s.rxsum ^^^ b = 0#8
    · exact ⟨_, recvByte_wCsum_accepted hst hsum hroom⟩
    · exact ⟨_, recvByte_wCsum_rejected hst hsum⟩

theorem recvStep_next {s : State} (h : Inv s) (d : Config.Draw) : ∃ t, recvStep d s = .next t := by
  cases d with
  | byte b => exact recvByte_next h b
  | timeout =>
    by_cases hw : s.rxs = .idle
    · exact ⟨s, by simp [recvStep, hw]⟩
    · exact ⟨_, recvStep_timeout hw⟩

/-- A byte that arrives answers a next state, of the invariant again. -/
theorem arrive_next {s : State} (h : Inv s) (b : Byte) : ∃ t, arrive b s = .next t ∧ Inv t := by
  rw [arrive_eq]
  split
  · obtain ⟨t, ht⟩ := recvByte_next h b
    exact ⟨t, ht, inv_recvByte h ht⟩
  · exact ⟨_, rfl, inv_environment h (s.rxq ++ [b]) s.line s.waits s.cmds s.blist⟩

theorem arriveAll_next {s : State} (h : Inv s) (bs : List Byte) : ∃ t, arriveAll bs s = .next t := by
  induction bs generalizing s with
  | nil => exact ⟨s, rfl⟩
  | cons b bs ih =>
    obtain ⟨u, hu, hinv⟩ := arrive_next h b
    obtain ⟨t, ht⟩ := ih hinv
    refine ⟨t, ?_⟩
    rw [arriveAll, hu]
    exact ht

theorem lineStep_next {s : State} (h : Inv s) : ∃ t, lineStep s = .next t := by
  have hrest (rest : List LineEvent) : Inv { s with line := rest } := inv_environment h s.rxq rest s.waits s.cmds s.blist
  match hl : s.line with
  | .byte b :: rest =>
    obtain ⟨t, ht, -⟩ := arrive_next (hrest rest) b
    exact ⟨t, (lineStep_byte hl).trans ht⟩
  | .silence :: rest =>
    obtain ⟨t, ht⟩ := recvStep_next (hrest rest) .timeout
    exact ⟨t, (lineStep_silence hl).trans ht⟩
  | .header hd :: rest =>
    obtain ⟨t, ht⟩ := arriveAll_next (hrest rest) (headerBytes hd)
    exact ⟨t, (lineStep_header hl).trans ht⟩
  | [] =>
    by_cases hw : s.rxs = .idle
    · exact ⟨s, by simp [lineStep, hl, busy, hw]⟩
    · obtain ⟨t, ht⟩ := recvStep_next (inv_environment h s.rxq s.line (s.waits + 1) s.cmds s.blist)
        (Config.lineDraw s.waits)
      exact ⟨t, (lineStep_drawn hl hw).trans ht⟩

theorem commandStep_next {s : State} (h : Inv s) : ∃ t, commandStep s = .next t := by
  unfold commandStep
  split
  · exact lineStep_next h
  · split
    · exact exec_command_next (decodeCmd_command ‹_›) _
    · exact ⟨_, rfl⟩
    · exact ⟨_, rfl⟩

/-- Settles O52: by the unit that takes the step; only the receive machine has a fault, which the invariant rules out. -/
theorem stepNeverStops : Obligations.StepNeverStops := by
  unfold Obligations.StepNeverStops
  intro s h
  cases hp : s.resetPin with
  | true => exact ⟨_, step_reset hp⟩
  | false =>
    cases hs : s.scan with
    | some sc => exact ⟨_, step_scan_eq hp hs⟩
    | none =>
      by_cases hw : s.rxs = .idle
      · rw [step_ready hp hs hw]
        exact commandStep_next h
      · rw [step_waiting hp hs hw]
        cases hq : s.rxq with
        | cons b rest =>
          simp only [receiveStep, hq]
          exact recvStep_next (inv_environment h rest s.line s.waits s.cmds s.blist) (.byte b)
        | nil =>
          simp only [receiveStep, hq]
          exact lineStep_next h

/-! ### Every step of a receive lowers the bound on its reads (R217, R305) -/

theorem readsLeft_idle {s : State} (h : s.rxs = .idle) : readsLeft s = 0 := by
  unfold readsLeft
  rw [h]

theorem readsLeft_pos {s : State} (h : s.rxs ≠ .idle) : 0 < readsLeft s := by
  unfold readsLeft
  split
  · exact absurd ‹_› h
  all_goals omega

theorem readsLeft_le (s : State) : readsLeft s ≤ 65541 := by
  have := s.rxlen.isLt
  unfold readsLeft
  split <;> omega

/-- A byte read is one of those still bounded (R217). -/
theorem readsLeft_recvByte {b : Byte} {s t : State} (h : Inv s) (hw : s.rxs ≠ .idle) (hr : recvByte b s = .next t) :
    readsLeft t < readsLeft s := by
  have hcounts := h.counts
  cases recvByte_cases hw hr with
  | failed kind info len hk =>
    rw [readsLeft_idle (by simp [hk])]
    exact readsLeft_pos hw
  | start hst =>
    replace hst : s.rxs = .wStart := hst
    simp [readsLeft, hst]
  | seq hst =>
    replace hst : s.rxs = .wSeq := hst
    simp [readsLeft, hst]
  | lenHi hst =>
    replace hst : s.rxs = .wLenHi := hst
    simp [readsLeft, hst]
  | lenLo hst =>
    replace hst : s.rxs = .wLenLo := hst
    have := (setLenLo s.rxlen b).isLt
    simp only [readsLeft, hst]
    omega
  | token hst =>
    replace hst : s.rxs = .wToken := hst
    simp only [ReceiveCounts, hst] at hcounts
    obtain ⟨hcnt, -⟩ := hcounts
    by_cases hzero : s.rxlen = 0#16 <;> simp [readsLeft, hst, hcnt, hzero]
  | data hst =>
    replace hst : s.rxs = .wData := hst
    obtain ⟨hcnt, -⟩ := h.room_of_wData hst
    have hnext := toNat_add_one_of_lt hcnt
    by_cases hlast : s.rxcnt + 1#16 = s.rxlen
    · simp only [readsLeft, hst, hlast, if_true]
      omega
    · simp only [readsLeft, hst, hlast, if_false, hnext]
      omega
  | accepted =>
    rw [readsLeft_idle rfl]
    exact readsLeft_pos hw

/-- Bytes that arrive never raise the bound. -/
theorem readsLeft_arriveAll {bs : List Byte} {s t : State} (h : Inv s) (ha : arriveAll bs s = .next t) :
    readsLeft t ≤ readsLeft s := by
  have hmain : Inv t ∧ readsLeft t ≤ readsLeft s := by
    refine arriveAll_induction (P := fun u => Inv u ∧ readsLeft u ≤ readsLeft s) (fun b u v hu hw hr => ?_)
      (fun b u hu => ⟨inv_environment hu.1 (u.rxq ++ [b]) u.line u.waits u.cmds u.blist, hu.2⟩) ⟨h, le_rfl⟩ ha
    exact ⟨inv_recvByte hu.1 hr, (readsLeft_recvByte hu.1 hw hr).le.trans hu.2⟩
  exact hmain.2

theorem readsLeft_recvStep {d : Config.Draw} {s t : State} (h : Inv s) (hw : s.rxs ≠ .idle) (hr : recvStep d s = .next t) :
    readsLeft t < readsLeft s := by
  cases d with
  | byte b => exact readsLeft_recvByte h hw hr
  | timeout =>
    rw [recvStep_timeout hw] at hr
    cases hr
    rw [readsLeft_idle rfl]
    exact readsLeft_pos hw

/-- Settles O60: by what the step reads; of the bytes of a header the receive takes the first one at least. -/
theorem everyReceiveStepProgresses : Obligations.EveryReceiveStepProgresses := by
  unfold Obligations.EveryReceiveStepProgresses
  intro s t h hs hw hstep
  refine ⟨?_, readsLeft_le s⟩
  cases step_cases hstep with
  | reset =>
    rw [readsLeft_idle rfl]
    exact readsLeft_pos hw
  | read b rest _ _ _ _ _ hr =>
    have hless := readsLeft_recvByte (inv_environment h rest s.line s.waits s.cmds s.blist) (by exact hw) hr
    exact hless
  | bytes bs e rest _ _ _ hq _ _ hne ha =>
    obtain ⟨b, bs, rfl⟩ := List.exists_cons_of_ne_nil hne
    have hinv := inv_environment h s.rxq rest s.waits s.cmds s.blist
    obtain ⟨u, hu⟩ := recvByte_next hinv b
    have hless := readsLeft_recvByte hinv (by exact hw) hu
    rw [arriveAll_taken (by exact hw) (by exact hq hw) hu] at ha
    exact (readsLeft_arriveAll (inv_recvByte hinv hu) ha).trans_lt hless
  | silence =>
    rw [readsLeft_idle rfl]
    exact readsLeft_pos hw
  | draw _ _ _ _ _ _ hr =>
    have hless := readsLeft_recvStep (inv_environment h s.rxq s.line (s.waits + 1) s.cmds s.blist) (by exact hw) hr
    exact hless
  | role sc _ hsc => simp [hsc] at hs
  | still _ _ _ hi => exact absurd hi hw
  | waits _ _ hi => exact absurd hi hw
  | command _ _ _ _ _ _ hi => exact absurd hi hw
  | illegal _ _ _ _ hi => exact absurd hi hw

/-! ### A queued frame, whole or with one byte altered (R212, R214) -/

/-- Settles O43: the run over the queued frame, with all that it leaves. -/
theorem wellFormedFrameAccepted : Obligations.WellFormedFrameAccepted := by
  unfold Obligations.WellFormedFrameAccepted
  intro s s1 m payload rest hinv hready hq hm hmax hexec
  cases hexec
  exact ⟨_, run_recv_frame hinv.rxbufForm hready hq hm hmax, rfl, rfl, seq_succ_eq s.seq, rfl, rfl, rfl, rfl, rfl,
    ⟨rfl, rfl, rfl, rfl, rfl⟩, rfl, rfl, rfl⟩

/-- RECV on a queue that begins with a header for `SEQ` and for the length of the bytes after it reaches the checksum (R190
to R195). -/
theorem run_recv_to_checksum {s : State} {m : Half} {payload rest : List Byte} (hr : Ready s)
    (hq : s.rxq = frameHeaderBytes s.seq (lenHi (lengthHalf payload)) (lenLo (lengthHalf payload)) ++ (payload ++ rest))
    (hm : payload.length ≤ m.toNat) (hmax : payload.length ≤ s.par.maxPayload) :
    Host.Core.run core (5 + payload.length) (recvStart m s) = .next { recvStart m s with
      rxq := rest, rxlen := lengthHalf payload, rxcnt := lengthHalf payload
      rxsum := 0#8 ^^^ xorAll (frameHeaderBytes s.seq (lenHi (lengthHalf payload)) (lenLo (lengthHalf payload))) ^^^
        xorAll payload
      rxbuf := Memory.writeAll s.rxbuf 0 payload, rxs := .wCsum } := by
  obtain ⟨hp, hs, -⟩ := hr
  have hlen : (lengthHalf payload).toNat = payload.length := by
    have := m.isLt
    rw [lengthHalf, BitVec.toNat_ofNat]
    omega
  have hfits : (lengthHalf payload).toNat ≤ (recvStart m s).rxmax.toNat := by
    have := m.isLt
    rw [recvStart_rxmax, BitVec.toNat_ofNat, hlen]
    omega
  refine (run_add (run_queued_header (s := recvStart m s) hp hs rfl hfits hq)).trans ?_
  exact run_queued_payload (by exact hp) (by exact hs) (if_congr eq_comm rfl rfl) (by simp [hlen]) (hlen ▸ hmax) rfl

/-- A queue whose frame does not resolve to zero is rejected with its residue (R197, R202). -/
theorem run_recv_residue {s : State} {m : Half} {payload rest : List Byte} {c : Byte} (hr : Ready s)
    (hq : s.rxq = frameHeaderBytes s.seq (lenHi (lengthHalf payload)) (lenLo (lengthHalf payload)) ++
      (payload ++ c :: rest))
    (hm : payload.length ≤ m.toNat) (hmax : payload.length ≤ s.par.maxPayload) {residue : Byte}
    (hres : xorAll (frameHeaderBytes s.seq (lenHi (lengthHalf payload)) (lenLo (lengthHalf payload)) ++
      (payload ++ [c])) = residue) (hne : residue ≠ 0#8) :
    ∃ t, Host.Core.run core (6 + payload.length) (recvStart m s) = .next t ∧ t.rxs = .idle ∧
      t.result = errPort 0x20#8 ∧ t.err = 0x20#8 ∧ t.errinfo = residue.setWidth 16 ∧ t.seq = s.seq ∧ t.rxq = rest := by
  have ⟨hp, hs, _⟩ := hr
  have hsum : 0#8 ^^^ xorAll (frameHeaderBytes s.seq (lenHi (lengthHalf payload)) (lenLo (lengthHalf payload))) ^^^
      xorAll payload ^^^ c = residue := by
    rw [← hres]
    simp [xorAll_append, xorAll, BitVec.xor_assoc]
  rw [show 6 + payload.length = 5 + payload.length + (0 + 1) by omega, run_add (run_recv_to_checksum hr hq hm hmax),
    run_queued 0 (by exact hp) (by exact hs) (by simp) rfl (recvByte_wCsum_rejected rfl (by exact hsum ▸ hne))]
  exact ⟨_, rfl, rfl, rfl, rfl, congrArg info8 hsum, rfl, rfl⟩

/-- One byte changed changes the exclusive OR by the difference (R214). -/
theorem xorAll_set {l : List Byte} {j : Nat} (hj : j < l.length) (b : Byte) :
    xorAll (l.set j b) = xorAll l ^^^ (b ^^^ l.getD j 0#8) := by
  induction l generalizing j with
  | nil => simp at hj
  | cons a l ih =>
    cases j with
    | zero =>
      have hcancel : b = a ^^^ (b ^^^ a) := by rw [BitVec.xor_comm b, ← BitVec.xor_assoc, BitVec.xor_self, BitVec.zero_xor]
      calc b ^^^ xorAll l = a ^^^ (b ^^^ a) ^^^ xorAll l := by rw [← hcancel]
        _ = a ^^^ xorAll l ^^^ (b ^^^ a) := by rw [BitVec.xor_assoc, BitVec.xor_comm (b ^^^ a), ← BitVec.xor_assoc]
    | succ j =>
      simp only [List.set_cons_succ, xorAll, List.getD_cons_succ, ih (Nat.lt_of_succ_lt_succ hj), BitVec.xor_assoc]

/-- A frame is its header, and its payload followed by its checksum (R100). -/
theorem frame_eq_header_append {payload : List Byte} (h : payload.length ≤ 65535) (seq : Byte) :
    frame seq payload = frameHeaderBytes seq (lenHi (lengthHalf payload)) (lenLo (lengthHalf payload)) ++
      (payload ++ [xorAll (frameFront seq payload)]) := by
  rw [frame, ← frameBody_eq_frameFront seq h, frameBody, List.append_assoc]

/-- Settles O44: the altered frame has the same header, and its exclusive OR is the difference. -/
theorem alteredByteRejected : Obligations.AlteredByteRejected := by
  unfold Obligations.AlteredByteRejected
  intro s s1 m payload rest j b hready hlow hhigh hne hq hm hmax hexec
  cases hexec
  have hbound : payload.length ≤ 65535 := by
    have := m.isLt
    omega
  have hframe := frame_eq_header_append hbound s.seq
  have hlength : (frame s.seq payload).length = 6 + payload.length := by
    simp [hframe, frameHeaderBytes]
    omega
  have hsum : xorAll ((frame s.seq payload).set j b) = b ^^^ (frame s.seq payload).getD j 0#8 := by
    rw [xorAll_set (hlength ▸ hhigh), frame, xorAll_append_xorAll, BitVec.zero_xor]
  obtain ⟨altered, c, htail⟩ : ∃ altered c, (payload ++ [xorAll (frameFront s.seq payload)]).set (j - 5) b =
      altered ++ [c] := ⟨_, _, (List.dropLast_append_getLast (by simp)).symm⟩
  have hsame : altered.length = payload.length := by
    have := congrArg List.length htail
    simpa using this.symm
  have hset : (frame s.seq payload).set j b =
      frameHeaderBytes s.seq (lenHi (lengthHalf altered)) (lenLo (lengthHalf altered)) ++ (altered ++ [c]) := by
    rw [hframe, List.set_append_right _ _ hlow, lengthHalf, lengthHalf, hsame]
    exact congrArg _ htail
  rw [hset] at hq hsum
  rw [← hsame] at hm hmax ⊢
  exact run_recv_residue hready (by simpa using hq) hm hmax hsum (by simpa [BitVec.xor_eq_zero_iff] using hne)

/-! ### What a receive step on a byte reads (R189 to R202) -/

theorem StillReceiving.trans {s u t : State} (h : StillReceiving s u) (k : StillReceiving u t) : StillReceiving s t :=
  ⟨k.waits, k.seq.trans h.seq, k.rxmax.trans h.rxmax, k.result.trans h.result, k.err.trans h.err,
    k.errinfo.trans h.errinfo⟩

/-- The bytes a waiting state rejects, with the error and its information (R190, R191, R193, R194, R197). -/
inductive Rejects (s : State) (b : Byte) : ErrKind → Half → Prop where
  | badStart (hst : s.rxs = .wStart) (hb : b ≠ Config.start) : Rejects s b .badStart (info8 b)
  | badSeq (hst : s.rxs = .wSeq) (hb : b ≠ s.seq) : Rejects s b .badSeq (s.seq ++ b)
  | tooLong (hst : s.rxs = .wLenLo) (hlen : s.rxmax.toNat < (setLenLo s.rxlen b).toNat) :
      Rejects s b .tooLong (setLenLo s.rxlen b)
  | badToken (hst : s.rxs = .wToken) (hb : b ≠ Config.token) : Rejects s b .badToken (info8 b)
  | checksum (hst : s.rxs = .wCsum) (hsum : s.rxsum ^^^ b ≠ 0#8) : Rejects s b .checksum (info8 (s.rxsum ^^^ b))

/-- What a waiting receive does with a byte, in terms of the frame bytes read: it goes on with one byte more, it has read a
whole frame and returns its payload, or it rejects the byte. -/
inductive ByteRead (s : State) (b : Byte) (t : State) : Prop where
  | running (h : StillReceiving s t) (hread : bytesRead t = bytesRead s ++ [b])
  | accepted (payload : List Byte) (hread : frame s.seq payload = bytesRead s ++ [b])
      (hlen : payload.length ≤ s.rxmax.toNat) (hidle : t.rxs = .idle) (hseq : t.seq = s.seq + 1#8)
      (hresult : t.result = okPort (some (BitVec.ofNat 32 payload.length)) payload) (herr : t.err = s.err)
  | rejected (kind : ErrKind) (info : Half) (h : Rejects s b kind info) (hidle : t.rxs = .idle) (hseq : t.seq = s.seq)
      (hresult : t.result = errPort (errCode kind)) (herr : t.err = errCode kind) (hinfo : t.errinfo = info)

/-- A rejected byte ends the receive with its error (R202). -/
theorem byteRead_of_raise {s u : State} {b : Byte} {kind : ErrKind} {info : Half} (h : Rejects s b kind info)
    (hk : isTransport kind = true) (hseq : u.seq = s.seq) : ByteRead s b (raise kind info u) :=
  .rejected kind info h (by simp [hk]) hseq rfl rfl rfl

/-- The bytes read when the checksum is awaited are the front of the frame of the payload stored (R100, R195). -/
theorem Inv.bytesRead_of_wCsum {s : State} (h : Inv s) (hst : s.rxs = .wCsum) :
    bytesRead s = frameFront s.seq (Memory.firstBytes s.rxbuf s.rxlen.toNat) := by
  obtain ⟨hcnt, -, -⟩ := h.complete_of_wCsum hst
  have hhi : lenHi s.rxlen = BitVec.ofNat 8 (s.rxlen.toNat / 256) := by rw [← lenHi_toNat, BitVec.ofNat_toNat]; simp
  have hlo : lenLo s.rxlen = BitVec.ofNat 8 (s.rxlen.toNat % 256) := by rw [← lenLo_toNat, BitVec.ofNat_toNat]; simp
  simp only [bytesRead, hst, hcnt, hhi, hlo, frameFront, Memory.length_firstBytes]

/-- What a waiting receive does with a byte. -/
theorem recvByte_read {b : Byte} {s t : State} (h : Inv s) (hw : s.rxs ≠ .idle) (hr : recvByte b s = .next t) :
    ByteRead s b t := by
  have hcounts := h.counts
  cases hst : s.rxs with
  | idle => exact absurd hst hw
  | wStart =>
    rw [recvByte_wStart hst] at hr
    split at hr <;> cases hr
    · rename_i hb
      exact .running ⟨nofun, rfl, rfl, rfl, rfl, rfl⟩ (by simp [bytesRead, hst, hb, Config.start])
    · exact byteRead_of_raise (.badStart hst ‹_›) rfl rfl
  | wSeq =>
    rw [recvByte_wSeq hst] at hr
    split at hr <;> cases hr
    · rename_i hb
      exact .running ⟨nofun, rfl, rfl, rfl, rfl, rfl⟩ (by simp [bytesRead, hst, hb])
    · exact byteRead_of_raise (.badSeq hst ‹_›) rfl rfl
  | wLenHi =>
    rw [recvByte_wLenHi hst] at hr
    cases hr
    exact .running ⟨nofun, rfl, rfl, rfl, rfl, rfl⟩ (by simp [bytesRead, hst, lenHi_setLenHi])
  | wLenLo =>
    rw [recvByte_wLenLo hst] at hr
    split at hr <;> cases hr
    · exact .running ⟨nofun, rfl, rfl, rfl, rfl, rfl⟩ (by simp [bytesRead, hst, lenHi_setLenLo, lenLo_setLenLo])
    · exact byteRead_of_raise (.tooLong hst (Nat.lt_of_not_le ‹_›)) rfl rfl
  | wToken =>
    simp only [ReceiveCounts, hst] at hcounts
    obtain ⟨hcnt, -⟩ := hcounts
    rw [recvByte_wToken hst] at hr
    split at hr <;> cases hr
    · rename_i hb
      refine .running ⟨by dsimp only; split <;> nofun, rfl, rfl, rfl, rfl, rfl⟩ ?_
      by_cases hzero : s.rxlen = 0#16 <;>
        simp [bytesRead, hst, hb, hcnt, hzero, Config.token, Memory.firstBytes]
    · exact byteRead_of_raise (.badToken hst ‹_›) rfl rfl
  | wData =>
    obtain ⟨hcnt, hroom⟩ := h.room_of_wData hst
    rw [recvByte_wData hst hroom] at hr
    cases hr
    refine .running ⟨by dsimp only; split <;> nofun, rfl, rfl, rfl, rfl, rfl⟩ ?_
    have hstored : Memory.firstBytes (Memory.write s.rxbuf s.rxcnt.toNat b) (s.rxcnt + 1#16).toNat =
        Memory.firstBytes s.rxbuf s.rxcnt.toNat ++ [b] := by
      rw [toNat_add_one_of_lt hcnt, Memory.firstBytes_write h.rxbufForm]
    by_cases hlast : s.rxcnt + 1#16 = s.rxlen
    · simp only [bytesRead, hst, if_pos hlast, hstored, List.append_assoc]
    · simp only [bytesRead, hst, if_neg hlast, hstored, List.append_assoc]
  | wCsum =>
    obtain ⟨-, hmax, hroom⟩ := h.complete_of_wCsum hst
    by_cases hsum : s.rxsum ^^^ b = 0#8
    · rw [recvByte_wCsum_accepted hst hsum hroom] at hr
      cases hr
      have hb : xorAll (bytesRead s) = b := by rwa [h.sum hw, BitVec.xor_eq_zero_iff] at hsum
      refine .accepted (Memory.firstBytes s.rxbuf s.rxlen.toNat) ?_ (by simpa using hmax) rfl rfl ?_ rfl
      · rw [frame, ← h.bytesRead_of_wCsum hst, hb]
      · rw [Memory.length_firstBytes, BitVec.ofNat_toNat]
    · rw [recvByte_wCsum_rejected hst hsum] at hr
      cases hr
      exact byteRead_of_raise (.checksum hst hsum) rfl rfl

/-! ### The bytes a receive takes, from the queue, the line and free draws (R62, R211, R212; log 3) -/

/-- Where a receive that began in `s` is in `t`, of the bytes `avail` it has had for its frame: those not read are queued.
The receive goes on, has accepted the frame it read, or has failed. -/
inductive Taken (s : State) (avail : List Byte) (t : State) : Prop where
  | running (h : StillReceiving s t) (hread : bytesRead t ++ t.rxq = avail)
  | accepted (payload : List Byte) (hread : frame s.seq payload ++ t.rxq = avail)
      (hlen : payload.length ≤ s.rxmax.toNat) (hidle : t.rxs = .idle) (hseq : t.seq = s.seq + 1#8)
      (hresult : t.result = okPort (some (BitVec.ofNat 32 payload.length)) payload)
  | failed (kind : ErrKind) (hidle : t.rxs = .idle) (hresult : t.result = errPort (errCode kind))

/-- A byte read while the receive is still in progress. -/
theorem taken_recvByte {s u t : State} {b : Byte} (h : StillReceiving s u) (hinv : Inv u)
    (hr : recvByte b u = .next t) : Taken s (bytesRead u ++ b :: u.rxq) t := by
  obtain ⟨-, hrxq⟩ := recvByte_keeps hr
  cases recvByte_read hinv h.waits hr with
  | running hstill hread => exact .running (h.trans hstill) (by simp [hread, hrxq])
  | accepted payload hread hlen hidle hseq hresult =>
    refine .accepted payload ?_ (h.rxmax ▸ hlen) hidle (h.seq ▸ hseq) hresult
    rw [← h.seq, hread, hrxq, List.append_assoc]
    rfl
  | rejected kind _ _ hidle _ hresult => exact .failed kind hidle hresult

/-- A byte that arrives is read by a wait on an empty queue, or queued (R62, R64). -/
theorem taken_arrive {s u t : State} {avail : List Byte} {b : Byte} (h : Taken s avail u) (hinv : Inv u)
    (ha : arrive b u = .next t) : Taken s (avail ++ [b]) t := by
  rw [arrive_eq] at ha
  split at ha
  · rename_i hwait
    obtain ⟨hw, hq⟩ := hwait
    cases h with
    | running hstill hread =>
      obtain rfl : bytesRead u = avail := by simpa [hq] using hread
      have htaken := taken_recvByte hstill hinv ha
      rwa [hq] at htaken
    | accepted _ _ _ hidle => exact absurd hidle hw
    | failed _ hidle => exact absurd hidle hw
  · cases ha
    cases h with
    | running hstill hread => exact .running { hstill with } (by simp [bytesRead, ← hread])
    | accepted payload hread hlen hidle hseq hresult =>
      exact .accepted payload (by simp [← hread]) hlen hidle hseq hresult
    | failed kind hidle hresult => exact .failed kind hidle hresult

theorem taken_arriveAll {bs : List Byte} {s u t : State} {avail : List Byte} (h : Taken s avail u) (hinv : Inv u)
    (ha : arriveAll bs u = .next t) : Taken s (avail ++ bs) t := by
  induction bs generalizing u avail with
  | nil =>
    cases ha
    simpa using h
  | cons b bs ih =>
    obtain ⟨v, hv, hinvv⟩ := arrive_next hinv b
    rw [arriveAll, hv] at ha
    simpa using ih (taken_arrive h hinv hv) hinvv ha

/-- The bytes one step from `s` to `t` has had beside the queued ones: none, those of the line's next event, or a free draw
(R62; log 3). -/
inductive Supplies (s t : State) : List Byte → Prop where
  | queued (hl : t.line = s.line) (hn : t.waits = s.waits) : Supplies s t []
  | event (e : LineEvent) (he : e ≠ .silence) (hl : s.line = e :: t.line) (hn : t.waits = s.waits) :
      Supplies s t (eventBytes e)
  | drawn (b : Byte) (hd : Config.lineDraw s.waits = .byte b) (hs : s.line = []) (hl : t.line = [])
      (hn : t.waits = s.waits + 1) : Supplies s t [b]

/-- What one step of a receive takes; a timeout fails it (R201). -/
theorem step_receive_takes {s t : State} (h : Inv s) (hp : s.resetPin = false) (hs : s.scan = none) (hw : s.rxs ≠ .idle)
    (hstep : step s = .next t) : (t.resetPin = false ∧ t.scan = none) ∧
      ((∃ new, Supplies s t new ∧ Taken s (bytesRead s ++ (s.rxq ++ new)) t) ∨
        ∃ kind, t.rxs = .idle ∧ t.result = errPort (errCode kind)) := by
  have still (q : List Byte) (l : List LineEvent) (n : Nat) :
      StillReceiving s { s with rxq := q, line := l, waits := n } := ⟨hw, rfl, rfl, rfl, rfl, rfl⟩
  have inv (q : List Byte) (l : List LineEvent) (n : Nat) : Inv { s with rxq := q, line := l, waits := n } :=
    inv_environment h q l n s.cmds s.blist
  cases step_cases hstep with
  | read b rest _ _ _ _ hq hr =>
    obtain ⟨hkeeps, -⟩ := recvByte_keeps hr
    have htaken := taken_recvByte (still rest s.line s.waits) (inv rest s.line s.waits) hr
    refine ⟨⟨hkeeps.resetPin.trans hp, hkeeps.scan.trans hs⟩, .inl ⟨[], .queued hkeeps.line hkeeps.waits, ?_⟩⟩
    rw [hq, List.append_nil]
    exact htaken
  | bytes bs e rest _ _ _ _ _ hl hne ha hbs =>
    obtain ⟨hkeeps, -⟩ := arriveAll_keeps ha
    have hsound : e ≠ .silence := fun he => hne (by rw [hbs, he]; rfl)
    have hstart : Taken s (bytesRead s ++ s.rxq) { s with line := rest } := .running (still s.rxq rest s.waits) rfl
    have htaken := taken_arriveAll hstart (inv s.rxq rest s.waits) ha
    refine ⟨⟨hkeeps.resetPin.trans hp, hkeeps.scan.trans hs⟩,
      .inl ⟨eventBytes e, .event e hsound (by rw [hl, hkeeps.line]) hkeeps.waits, ?_⟩⟩
    rwa [hbs, List.append_assoc] at htaken
  | silence => exact ⟨⟨hp, hs⟩, .inr ⟨.timeout, rfl, rfl⟩⟩
  | draw _ _ _ _ hq hl hr =>
    have hkeeps := recvStep_keeps (by exact hw) hr
    refine ⟨⟨hkeeps.resetPin.trans hp, hkeeps.scan.trans hs⟩, ?_⟩
    cases hd : Config.lineDraw s.waits with
    | byte b =>
      have htaken := taken_recvByte (still s.rxq s.line (s.waits + 1)) (inv s.rxq s.line (s.waits + 1)) (by rwa [hd] at hr)
      refine .inl ⟨[b], .drawn b hd hl (hkeeps.line.trans hl) hkeeps.waits, ?_⟩
      rw [hq] at htaken ⊢
      exact htaken
    | timeout =>
      rw [hd, recvStep_timeout (by exact hw)] at hr
      cases hr
      exact .inr ⟨.timeout, rfl, rfl⟩
  | reset hr => simp [hr] at hp
  | role sc _ hsc => simp [hsc] at hs
  | still _ _ _ hi => exact absurd hi hw
  | waits _ _ hi => exact absurd hi hw
  | command _ _ _ _ _ _ hi => exact absurd hi hw
  | illegal _ _ _ _ hi => exact absurd hi hw

/-- From `s` to `t` the queue, the events taken from the line and the free draws have supplied the bytes `got`, and what is
left of them is in the queue and on the line; no event taken and no draw was a silence. -/
def Supplied (s t : State) (got : List Byte) : Prop :=
  ∃ taken drawn : Nat, t.line = s.line.drop taken ∧ t.waits = s.waits + drawn ∧
    (∀ e ∈ s.line.take taken, e ≠ .silence) ∧ (∀ i, i < drawn → Config.lineDraw (s.waits + i) ≠ .timeout) ∧
    s.rxq ++ s.line.flatMap eventBytes ++ drawnBytes s.waits drawn = got ++ t.rxq ++ t.line.flatMap eventBytes

theorem drawnBytes_succ (k n : Nat) :
    drawnBytes k (n + 1) = drawnBytes k n ++ [drawByte (Config.lineDraw (k + n))] := by
  simp [drawnBytes, List.range_succ]

/-- One more step of the receive. -/
theorem Supplied.step {s u t : State} {got got' new : List Byte} (h : Supplied s u got) (hnew : Supplies u t new)
    (hread : got' ++ t.rxq = got ++ (u.rxq ++ new)) : Supplied s t got' := by
  obtain ⟨taken, drawn, hline, hwaits, hsound, hbytes, hall⟩ := h
  cases hnew with
  | queued hl hn =>
    exact ⟨taken, drawn, hl.trans hline, hn.trans hwaits, hsound, hbytes, by simp [hall, hread, hl]⟩
  | event e he hl hn =>
    have hdrop : s.line.drop taken = e :: t.line := hline ▸ hl
    have hget : s.line[taken]? = some e := by
      rw [← List.head?_drop, hdrop]
      rfl
    refine ⟨taken + 1, drawn, ?_, hn.trans hwaits, ?_, hbytes, by simp [hall, hread, hl]⟩
    · rw [← List.drop_drop, hdrop]
      rfl
    · rw [List.take_add_one, hget]
      intro e' he'
      rcases List.mem_append.mp he' with hold | hnew
      · exact hsound e' hold
      · obtain rfl : e' = e := by simpa using hnew
        exact he
  | drawn b hd hu hl hn =>
    refine ⟨taken, drawn + 1, ?_, by rw [hn, hwaits, Nat.add_assoc], hsound, ?_, ?_⟩
    · rw [hl, ← hu, hline]
    · intro i hi
      by_cases hlast : i = drawn
      · rw [hlast, ← hwaits, hd]
        nofun
      · exact hbytes i (by omega)
    · rw [drawnBytes_succ, ← List.append_assoc, hall, ← hwaits, hd, hu, hl]
      simp [hread, drawByte]

/-- A receive that began in `s` is in progress in `u`, and has read the bytes supplied so far. -/
structure InProgress (s u : State) : Prop where
  inv : Inv u
  resetPin : u.resetPin = false
  scan : u.scan = none
  still : StillReceiving s u
  supplied : Supplied s u (bytesRead u)

/-- A receive in progress that ends `OK` has been supplied the frame of the payload it returns (R211, R212). -/
theorem InProgress.accepted {n : Nat} {s u t : State} {r : Result} (h : InProgress s u)
    (hrun : Host.Core.run core n u = .next t)
    (hfirst : ∀ j, j < n → ∀ v, Host.Core.run core j u = .next v → v.rxs ≠ .idle) (hidle : t.rxs = .idle)
    (hresult : t.result = some r) (hok : r.status = 0x00#8) :
    Supplied s t (frame s.seq r.payload) ∧ r.payload.length ≤ s.rxmax.toNat ∧ t.seq = s.seq + 1#8 := by
  induction n generalizing u with
  | zero =>
    cases hrun
    exact absurd hidle h.still.waits
  | succ n ih =>
    obtain ⟨v, hstep⟩ := stepNeverStops u h.inv
    rw [run_succ hstep] at hrun
    have hlast (hv : v.rxs = .idle) : v = t := by
      cases n with
      | zero => exact Host.Outcome.next.inj hrun
      | succ n => exact absurd hv (hfirst 1 (by omega) v (run_succ hstep))
    have hfailed (kind : ErrKind) (hv : v.rxs = .idle) (hport : v.result = errPort (errCode kind)) : False := by
      rw [hlast hv, hresult, errPort, Option.some.injEq] at hport
      exact errCode_ne_ok kind (by rw [← hok, hport])
    obtain ⟨⟨hp, hs⟩, ⟨new, hnew, htaken⟩ | ⟨kind, hv, hport⟩⟩ :=
      step_receive_takes h.inv h.resetPin h.scan h.still.waits hstep
    · cases htaken with
      | running hstill hread =>
        have hv : InProgress s v :=
          ⟨stepKeepsInvariant u v h.inv hstep, hp, hs, h.still.trans hstill, h.supplied.step hnew hread⟩
        exact ih hv hrun (fun j hj w hw => hfirst (j + 1) (by omega) w ((run_succ hstep).trans hw))
      | accepted payload hread hlen hv hseq hport =>
        obtain rfl := hlast hv
        obtain rfl : { status := 0x00#8, value := some (BitVec.ofNat 32 payload.length), payload := payload } = r :=
          Option.some.inj (hport.symm.trans hresult)
        rw [h.still.seq] at hread hseq
        exact ⟨h.supplied.step hnew hread, h.still.rxmax ▸ hlen, hseq⟩
      | failed kind hv hport => exact (hfailed kind hv hport).elim
    · exact (hfailed kind hv hport).elim

/-- What RECV will take, as a number (R185). -/
theorem recvStart_rxmax_toNat (m : Half) (s : State) :
    (recvStart m s).rxmax.toNat = min m.toNat s.par.maxPayload := by
  have := m.isLt
  rw [recvStart_rxmax, BitVec.toNat_ofNat]
  omega

/-- Settles O45: by induction on the steps of the receive, along the bytes supplied to it. -/
theorem acceptedBytesWereFrame : Obligations.AcceptedBytesWereFrame := by
  unfold Obligations.AcceptedBytesWereFrame
  intro s s1 t m n r hinv hready hexec hrun hfirst hidle hresult hok
  cases hexec
  obtain ⟨hp, hs, -⟩ := hready
  have hstart : InProgress (recvStart m s) (recvStart m s) :=
    { inv := inv_recvStart hinv hs m
      resetPin := hp
      scan := hs
      still := ⟨nofun, rfl, rfl, rfl, rfl, rfl⟩
      supplied := ⟨0, 0, rfl, rfl, by simp, by simp, by simp [bytesRead, drawnBytes]⟩ }
  obtain ⟨hsupplied, hlen, hseq⟩ := hstart.accepted hrun hfirst hidle hresult hok
  exact ⟨hsupplied, recvStart_rxmax_toNat m s ▸ hlen, hseq⟩

/-! ### The big-step reading (R210), line by line -/

/-- The first outcomes are these bytes. -/
def HeardAs (d : Nat → Config.Draw) (got : List Byte) : Prop := ∀ j b, got[j]? = some b → d j = .byte b

theorem heardAs_nil (d : Nat → Config.Draw) : HeardAs d [] := by simp [HeardAs]

/-- One more byte. -/
theorem HeardAs.snoc {d : Nat → Config.Draw} {got : List Byte} {b : Byte} (h : HeardAs d got)
    (hd : d got.length = .byte b) : HeardAs d (got ++ [b]) := by
  intro j b' hj
  rcases Nat.lt_trichotomy j got.length with hlt | rfl | hgt
  · exact h j b' (by rwa [List.getElem?_append_left hlt] at hj)
  · simpa [hd] using hj
  · simp [List.getElem?_eq_none, Nat.succ_le_of_lt hgt] at hj

/-- The outcomes after the first bytes. -/
theorem HeardAs.after {d : Nat → Config.Draw} {front rest : List Byte} (h : HeardAs d (front ++ rest)) :
    HeardAs (fun j => d (front.length + j)) rest :=
  fun j b hj => h (front.length + j) b (by rwa [List.getElem?_append_right (by omega), Nat.add_sub_cancel_left])

theorem HeardAs.of_append {d : Nat → Config.Draw} {front rest : List Byte} (h : HeardAs d (front ++ rest)) :
    HeardAs d front :=
  fun j b hj => h j b (by rwa [List.getElem?_append_left (List.getElem?_eq_some_iff.mp hj).1])

/-- The bytes of the outcomes, as R210 writes them. -/
theorem HeardAs.map_drawByte {d : Nat → Config.Draw} {got : List Byte} (h : HeardAs d got) :
    (List.range got.length).map (fun j => drawByte (d j)) = got := by
  refine List.ext_getElem (by simp) fun j _ hj => ?_
  simp [h j got[j] (List.getElem?_eq_getElem hj), drawByte]

theorem HeardAs.ne_timeout {d : Nat → Config.Draw} {got : List Byte} (h : HeardAs d got) {j : Nat}
    (hj : j < got.length) : d j ≠ .timeout := by
  rw [h j got[j] (List.getElem?_eq_getElem hj)]
  nofun

theorem firstTimeout_eq_none {d : Nat → Config.Draw} {n : Nat} :
    firstTimeout d n = none ↔ ∀ i, i < n → d (5 + i) ≠ .timeout := by
  simp [firstTimeout, List.find?_eq_none]

/-- The length its two bytes make (R65). -/
theorem lenHi_lenLo_toNat (len : Half) : (lenHi len).toNat * 256 + (lenLo len).toNat = len.toNat := by
  rw [lenHi_toNat, lenLo_toNat]
  omega

/-- The lines of R210 after the header of a payload of `n` bytes. -/
def payloadEnd (d : Nat → Config.Draw) (n : Nat) : RecvEnd :=
  let residue := xorAll ((List.range (6 + n)).map (fun j => drawByte (d j)))
  if firstTimeout d n ≠ none then .failed 0x01#8 6#16
  else if d (5 + n) = .timeout then .failed 0x01#8 7#16
  else if residue ≠ 0#8 then .failed 0x20#8 (residue.setWidth 16)
  else .accepted ((List.range n).map (fun j => drawByte (d (5 + j))))

@[simp] theorem drawByte_byte (b : Byte) : drawByte (.byte b) = b := rfl

/-- The bytes of a header for a length, as far as the first four of them (R190 to R193). -/
theorem recvEnd_of_length {d : Nat → Config.Draw} {limit : Nat} {seq : Byte} {len : Half}
    (h : HeardAs d [0x1B#8, seq, lenHi len, lenLo len]) :
    recvEnd seq limit d =
      if limit < len.toNat then .failed 0x13#8 len
      else if d 4 = .timeout then .failed 0x01#8 5#16
      else if drawByte (d 4) ≠ 0x0E#8 then .failed 0x12#8 ((drawByte (d 4)).setWidth 16)
      else payloadEnd d len.toNat := by
  have h0 := h 0 _ rfl
  have h1 := h 1 _ rfl
  have h2 := h 2 _ rfl
  have h3 := h 3 _ rfl
  simp only [recvEnd, h0, h1, h2, h3, drawByte_byte, lenHi_lenLo_toNat, BitVec.ofNat_toNat, BitVec.setWidth_eq, ne_eq,
    reduceCtorEq, not_true_eq_false, if_false, payloadEnd]

/-- All five bytes of a header for a length that is allowed (R194). -/
theorem recvEnd_of_header {d : Nat → Config.Draw} {limit : Nat} {seq : Byte} {len : Half}
    (h : HeardAs d [0x1B#8, seq, lenHi len, lenLo len, 0x0E#8]) (hlen : len.toNat ≤ limit) :
    recvEnd seq limit d = payloadEnd d len.toNat := by
  have h4 := h 4 _ rfl
  rw [recvEnd_of_length (HeardAs.of_append (rest := [0x0E#8]) h), if_neg (Nat.not_lt_of_le hlen)]
  simp [h4]

/-- Header and payload, and a byte after them: the exclusive OR decides (R197, R200). -/
theorem recvEnd_of_frame {d : Nat → Config.Draw} {limit : Nat} {seq c : Byte} {len : Half} {payload : List Byte}
    (h : HeardAs d ([0x1B#8, seq, lenHi len, lenLo len, 0x0E#8] ++ payload ++ [c])) (hpayload : payload.length = len.toNat)
    (hlen : len.toNat ≤ limit) {residue : Byte}
    (hres : xorAll ([0x1B#8, seq, lenHi len, lenLo len, 0x0E#8] ++ payload ++ [c]) = residue) :
    recvEnd seq limit d =
      if residue ≠ 0#8 then .failed 0x20#8 (residue.setWidth 16) else .accepted payload := by
  have hbody := h.of_append.after
  have hnone : firstTimeout d len.toNat = none :=
    firstTimeout_eq_none.mpr fun i hi => hbody.ne_timeout (hpayload ▸ hi)
  have hsum : d (5 + len.toNat) ≠ .timeout := h.ne_timeout (by simp [hpayload]; omega)
  have hall := h.map_drawByte
  rw [show ([0x1B#8, seq, lenHi len, lenLo len, 0x0E#8] ++ payload ++ [c]).length = 6 + len.toNat by
    simp [hpayload]; omega] at hall
  have hread := hbody.map_drawByte
  rw [hpayload] at hread
  rw [recvEnd_of_header h.of_append.of_append hlen]
  simp only [payloadEnd, hall, hres, hnone, hsum, ne_eq, not_true_eq_false, if_false]
  exact congrArg (fun p => if ¬residue = 0#8 then _ else RecvEnd.accepted p) hread

/-- A timeout in a waiting state is the line of R210 with the code of the state (R201). -/
theorem recvEnd_of_timeout {d : Nat → Config.Draw} {s : State} (hinv : Inv s) (hw : s.rxs ≠ .idle)
    (h : HeardAs d (bytesRead s)) (hd : d (bytesRead s).length = .timeout) :
    recvEnd s.seq s.rxmax.toNat d = .failed 0x01#8 ((rxCode s.rxs).setWidth 16) := by
  have hcounts := hinv.counts
  cases hst : s.rxs with
  | idle => exact absurd hst hw
  | wStart =>
    simp only [bytesRead, hst] at hd
    have hd : d 0 = .timeout := hd
    simp [recvEnd, hd, rxCode]
  | wSeq =>
    simp only [bytesRead, hst] at h hd
    have hd : d 1 = .timeout := hd
    simp [recvEnd, h 0 _ rfl, hd, rxCode]
  | wLenHi =>
    simp only [bytesRead, hst] at h hd
    have hd : d 2 = .timeout := hd
    simp [recvEnd, h 0 _ rfl, h 1 _ rfl, hd, rxCode]
  | wLenLo =>
    simp only [bytesRead, hst] at h hd
    have hd : d 3 = .timeout := hd
    simp [recvEnd, h 0 _ rfl, h 1 _ rfl, h 2 _ rfl, hd, rxCode]
  | wToken =>
    simp only [bytesRead, hst] at h hd
    have hd : d 4 = .timeout := hd
    simp only [ReceiveCounts, hst] at hcounts
    obtain ⟨-, hlen⟩ := hcounts
    rw [recvEnd_of_length h, if_neg (Nat.not_lt_of_le hlen), if_pos hd]
    rfl
  | wData =>
    simp only [bytesRead, hst] at h hd
    simp only [ReceiveCounts, hst] at hcounts
    obtain ⟨hcnt, hlen⟩ := hcounts
    rw [List.length_append, Memory.length_firstBytes] at hd
    have hsome : firstTimeout d s.rxlen.toNat ≠ none := fun hnone =>
      firstTimeout_eq_none.mp hnone _ hcnt hd
    rw [recvEnd_of_header h.of_append hlen, payloadEnd, if_pos hsome]
    rfl
  | wCsum =>
    simp only [bytesRead, hst] at h hd
    obtain ⟨hcnt, hlen, -⟩ := hinv.complete_of_wCsum hst
    rw [hcnt] at h hd
    rw [List.length_append, Memory.length_firstBytes] at hd
    have hd : d (5 + s.rxlen.toNat) = .timeout := hd
    have hnone : firstTimeout d s.rxlen.toNat = none :=
      firstTimeout_eq_none.mpr fun i hi => h.after.ne_timeout (by simpa using hi)
    rw [recvEnd_of_header h.of_append hlen, payloadEnd, if_neg (by simp [hnone]), if_pos hd]
    rfl

/-- A byte that a waiting state rejects is the line of R210 with its error (R190 to R197). -/
theorem recvEnd_of_rejects {d : Nat → Config.Draw} {s : State} {b : Byte} {kind : ErrKind} {info : Half} (hinv : Inv s)
    (h : HeardAs d (bytesRead s)) (hd : d (bytesRead s).length = .byte b) (hr : Rejects s b kind info) :
    recvEnd s.seq s.rxmax.toNat d = .failed (errCode kind) info := by
  have hcounts := hinv.counts
  have hnext := h.snoc hd
  cases hr with
  | badStart hst hb =>
    simp only [bytesRead, hst] at hnext
    have hne : ¬b = 0x1B#8 := hb
    simp [recvEnd, hnext 0 _ rfl, hne, errCode, info8]
  | badSeq hst hb =>
    simp only [bytesRead, hst] at hnext
    simp [recvEnd, hnext 0 _ rfl, hnext 1 _ rfl, hb, errCode]
  | tooLong hst hlen =>
    simp only [bytesRead, hst] at hnext
    have hlength : HeardAs d [0x1B#8, s.seq, lenHi (setLenLo s.rxlen b), lenLo (setLenLo s.rxlen b)] := by
      rw [lenHi_setLenLo, lenLo_setLenLo]
      exact hnext
    rw [recvEnd_of_length hlength, if_pos hlen]
    rfl
  | badToken hst hb =>
    simp only [bytesRead, hst] at h hnext
    simp only [ReceiveCounts, hst] at hcounts
    obtain ⟨-, hlen⟩ := hcounts
    have hne : ¬b = 0x0E#8 := hb
    rw [recvEnd_of_length h, if_neg (Nat.not_lt_of_le hlen), hnext 4 b rfl]
    simp [hne, errCode, info8]
  | checksum hst hsum =>
    obtain ⟨hcnt, hlen, -⟩ := hinv.complete_of_wCsum hst
    have hres := (rxsum_read hinv (b := b) (by simp [hst]) rfl).symm
    simp only [bytesRead, hst] at hnext hres
    rw [recvEnd_of_frame hnext (by simp [hcnt]) hlen hres, if_pos hsum]
    rfl

/-- The bytes of a frame are the line of R210 that ends `OK` (R212). -/
theorem recvEnd_of_accepted {d : Nat → Config.Draw} {limit : Nat} {seq : Byte} {payload : List Byte}
    (h : HeardAs d (frame seq payload)) (hlen : payload.length ≤ limit) (hbound : limit ≤ 65535) :
    recvEnd seq limit d = .accepted payload := by
  have htoNat : (lengthHalf payload).toNat = payload.length := by
    rw [lengthHalf, BitVec.toNat_ofNat]
    omega
  have hframe := frame_eq_header_append (hlen.trans hbound) seq
  have hzero : xorAll (frame seq payload) = 0#8 := xorAll_append_xorAll _
  rw [hframe, ← List.append_assoc] at h hzero
  rw [recvEnd_of_frame h htoNat.symm (htoNat ▸ hlen) hzero]
  rfl

/-! ### A receive on a listed line (R210, R217) -/

/-- The end of a receive that began in `s`, as R210 says it. -/
def EndsAs (s t : State) : RecvEnd → Prop
  | .failed status info =>
    t.result = errPort status ∧ t.err = status ∧ t.errinfo = info ∧ t.seq = s.seq ∧ t.cfgf = s.cfgf
  | .accepted payload =>
    t.result = okPort (some (BitVec.ofNat 32 payload.length)) payload ∧ t.seq = s.seq + 1#8 ∧ t.err = s.err

/-- A receive that began in `s` is in progress in `u` and has taken, of the listed outcomes `d`, those of the bytes it has
read. -/
structure HearsLine (s : State) (d : Nat → Config.Draw) (listed : Nat) (u : State) : Prop where
  inv : Inv u
  resetPin : u.resetPin = false
  scan : u.scan = none
  still : StillReceiving s u
  cfgf : u.cfgf = s.cfgf
  rxq : u.rxq = []
  line : u.line = ((List.range listed).map (fun i => drawEvent (d i))).drop (bytesRead u).length
  heard : HeardAs d (bytesRead u)

/-- A receive has read at most 65540 bytes before its last one (R217). -/
theorem length_bytesRead_le (s : State) : (bytesRead s).length ≤ 65540 := by
  have := s.rxcnt.isLt
  unfold bytesRead
  split <;> simp only [List.length_append, List.length_cons, List.length_nil, Memory.length_firstBytes] <;> omega

/-- An event that brings an outcome, at a wait on an empty queue, is a receive step on that outcome (R62). -/
theorem step_drawEvent {s : State} {x : Config.Draw} {rest : List LineEvent} (hp : s.resetPin = false)
    (hs : s.scan = none) (hw : s.rxs ≠ .idle) (hq : s.rxq = []) (hl : s.line = drawEvent x :: rest) :
    step s = recvStep x { s with line := rest } := by
  rw [step_waiting_empty ⟨hp, hs, rfl, hw⟩ hq]
  cases x with
  | byte b =>
    rw [lineStep_byte hl]
    exact arrive_waiting (s := { s with line := rest }) ⟨hp, hs, rfl, hw⟩ hq b
  | timeout => exact lineStep_silence hl

/-- The line a receive still has, while more outcomes are listed than it has read. -/
theorem HearsLine.line_eq {s u : State} {d : Nat → Config.Draw} {listed : Nat} (h : HearsLine s d listed u)
    (hlisted : 65541 ≤ listed) : ∃ rest, u.line = drawEvent (d (bytesRead u).length) :: rest ∧
      rest = ((List.range listed).map (fun i => drawEvent (d i))).drop ((bytesRead u).length + 1) := by
  have hmore : (bytesRead u).length < listed := (Nat.lt_succ_of_le (length_bytesRead_le u)).trans_le hlisted
  refine ⟨_, ?_, rfl⟩
  rw [h.line, List.drop_eq_getElem_cons (by simpa using hmore)]
  simp

/-- A receive step on the next outcome: one more byte is read, or the receive ends as R210 says. -/
theorem recvStep_heard {s u t : State} {d : Nat → Config.Draw} (hinv : Inv u) (hstill : StillReceiving s u)
    (hcfgf : u.cfgf = s.cfgf) (h : HeardAs d (bytesRead u)) (hr : recvStep (d (bytesRead u).length) u = .next t) :
    (StillReceiving s t ∧ (bytesRead t).length = (bytesRead u).length + 1 ∧ HeardAs d (bytesRead t)) ∨
      (t.rxs = .idle ∧ EndsAs s t (recvEnd s.seq s.rxmax.toNat d)) := by
  rw [← hstill.seq, ← hstill.rxmax]
  cases hd : d (bytesRead u).length with
  | timeout =>
    rw [hd, recvStep_timeout hstill.waits] at hr
    cases hr
    rw [recvEnd_of_timeout hinv hstill.waits h hd]
    exact .inr ⟨rfl, rfl, rfl, rfl, hstill.seq, by simp [isConfiguration, hcfgf]⟩
  | byte b =>
    have hnext := h.snoc hd
    rw [hd] at hr
    obtain ⟨hkeeps, -⟩ := recvByte_keeps hr
    cases recvByte_read hinv hstill.waits hr with
    | running hmore hread =>
      rw [hread]
      exact .inl ⟨hstill.trans hmore, List.length_append, hnext⟩
    | accepted payload hread hlen hidle hseq hresult herr =>
      have hbound := u.rxmax.isLt
      rw [← hread] at hnext
      rw [recvEnd_of_accepted hnext hlen (by omega)]
      exact .inr ⟨hidle, hresult, hstill.seq ▸ hseq, herr.trans hstill.err⟩
    | rejected kind info hrej hidle hseq hresult herr hinfo =>
      rw [recvEnd_of_rejects hinv h hd hrej]
      exact .inr ⟨hidle, hresult, herr, hinfo, hseq.trans hstill.seq, hkeeps.cfgf.trans hcfgf⟩

/-- One event of the line: the receive goes on, or ends as R210 says. -/
theorem HearsLine.step {s u : State} {d : Nat → Config.Draw} {listed : Nat} (h : HearsLine s d listed u)
    (hlisted : 65541 ≤ listed) : ∃ t, Machine.step u = .next t ∧
      (HearsLine s d listed t ∨ (t.rxs = .idle ∧ EndsAs s t (recvEnd s.seq s.rxmax.toNat d))) := by
  obtain ⟨t, ht⟩ := stepNeverStops u h.inv
  have hinv := stepKeepsInvariant u t h.inv ht
  have hw := h.still.waits
  obtain ⟨rest, hline, hrest⟩ := h.line_eq hlisted
  have hr : recvStep (d (bytesRead u).length) { u with line := rest } = .next t :=
    (step_drawEvent h.resetPin h.scan hw h.rxq hline).symm.trans ht
  have hkeeps := recvStep_keeps (by exact hw) hr
  have hrxq := recvStep_rxq (by exact hw) hr
  have hheard := recvStep_heard (s := s) (inv_environment h.inv u.rxq rest u.waits u.cmds u.blist)
    { h.still with } (by exact h.cfgf) (by exact h.heard) (by exact hr)
  refine ⟨t, ht, hheard.imp_left fun ⟨hstill, hlength, hbytes⟩ => ?_⟩
  exact ⟨hinv, hkeeps.resetPin.trans h.resetPin, hkeeps.scan.trans h.scan, hstill, hkeeps.cfgf.trans h.cfgf,
    hrxq.trans h.rxq, by rw [hlength]; exact hkeeps.line.trans hrest, hbytes⟩

/-- A receive on a listed line ends as R210 says, within the bound on its reads (R217). -/
theorem HearsLine.run {s u : State} {d : Nat → Config.Draw} {listed k : Nat} (h : HearsLine s d listed u)
    (hlisted : 65541 ≤ listed) (hk : readsLeft u ≤ k) :
    ∃ n t, n ≤ k ∧ Host.Core.run core n u = .next t ∧ t.rxs = .idle ∧ EndsAs s t (recvEnd s.seq s.rxmax.toNat d) := by
  induction k generalizing u with
  | zero =>
    have := readsLeft_pos h.still.waits
    omega
  | succ k ih =>
    obtain ⟨v, hstep, hv | ⟨hidle, hends⟩⟩ := h.step hlisted
    · have hless := (everyReceiveStepProgresses u v h.inv h.scan h.still.waits hstep).1
      obtain ⟨n, t, hn, hrun, hend⟩ := ih hv (by omega)
      exact ⟨n + 1, t, by omega, (run_succ hstep).trans hrun, hend⟩
    · exact ⟨1, v, by omega, run_succ hstep, hidle, hends⟩

/-- Settles O46: by induction on the bound on the reads, one outcome of the line per step. -/
theorem recvEndsAsBigStep : Obligations.RecvEndsAsBigStep := by
  unfold Obligations.RecvEndsAsBigStep
  intro s s1 m d listed hinv hready hq hlisted hline hexec
  cases hexec
  obtain ⟨hp, hs, -⟩ := hready
  have hstart : HearsLine (recvStart m s) d listed (recvStart m s) :=
    { inv := inv_recvStart hinv hs m
      resetPin := hp
      scan := hs
      still := ⟨nofun, rfl, rfl, rfl, rfl, rfl⟩
      cfgf := rfl
      rxq := hq
      line := hline
      heard := heardAs_nil d }
  obtain ⟨n, t, hn, hrun, hidle, hends⟩ := hstart.run hlisted (readsLeft_le _)
  rw [recvStart_rxmax_toNat] at hends
  exact ⟨n, t, hn, hrun, hidle, hends⟩

end Sys2Proof.Machine

/-! PROOFS of the family 43_host_access.md. An illegal word is refused by its fields alone, before the decoder looks at the
byte list (R116, R230); the host access operations are their meanings, and the error record is read as a number (R224). -/

namespace Sys2Proof

/-! ### The words the decoder refuses (R116) -/

/-- A command without byte list that does not decode has a non-zero unused field. -/
theorem whenZero_refused {z : Bool} {op : Byte} {j : Instr} (h : ¬ ∃ i, whenZero z op j = .ok i) :
    whenZero z op j = .error (.unusedField op) := by
  rw [whenZero_isOk] at h
  exact if_neg h

/-- A command that does not decode with its byte list there is refused for its fields, whatever the port holds. -/
theorem whenListed_refused {z : Bool} {op : Byte} {n : Nat} {full : List Byte} {mk : List Byte → Instr}
    (hfull : n ≤ full.length) (h : ¬ ∃ i, whenListed z op n full mk = .ok i) (bytes : List Byte) :
    whenListed z op n bytes mk = .error (.unusedField op) := by
  rw [whenListed_isOk hfull] at h
  exact if_neg h

/-- An operation that does not decode with its byte list there is refused for its fields, whatever the port holds. -/
theorem decodeOp_refused {op : Op} {w : Cmd} {full : List Byte} (hfull : listLen w ≤ full.length)
    (h : ¬ ∃ i, decodeOp op w full = .ok i) (bytes : List Byte) :
    decodeOp op w bytes = .error (.unusedField (cmdOp w)) := by
  cases op with
  | tplload | send => exact whenListed_refused hfull h bytes
  | encaddr => exact absurd ⟨_, rfl⟩ h
  | tplvalid | encfix | encin | decout | outidx | recv | ldbuf | rdbuf | ldresp | rdseq | rderr =>
    exact whenZero_refused h

/-- A word of no row is refused for its `op` value or for its fields, whatever the byte-list port holds (R111, R116). -/
theorem decode_illegal {w : Cmd} (h : ¬ Machine.LegalCommand w) (bytes : List Byte) :
    decode (.cmd w bytes) = .error (.reservedOp (cmdOp w)) ∨
      decode (.cmd w bytes) = .error (.unusedField (cmdOp w)) := by
  have hfull : listLen w ≤ (List.replicate (listLen w) (0#8 : Byte)).length := by simp
  have hnone : ¬ ∃ i, decode (.cmd w (List.replicate (listLen w) 0#8)) = .ok i := fun ⟨i, hi⟩ =>
    h ((legalCommandsDecode w _ hfull).mp ⟨i, Machine.decodeCmd_command hi, hi⟩)
  simp only [decode, decodeCmd] at hnone ⊢
  cases hop : opOfByte (cmdOp w) with
  | none => exact .inl rfl
  | some op =>
    rw [hop] at hnone
    exact .inr (decodeOp_refused hfull hnone bytes)

end Sys2Proof

namespace Sys2Proof.Machine

/-! ### The illegal command (R230) -/

/-- An illegal command writes the record and the port, nothing else (R230, R244). -/
theorem illegalCommand_eq (w : Cmd) (s : State) : illegalCommand w s =
    { s with err := 0x50#8, errinfo := (cmdOp w).setWidth 16, result := errPort 0x50#8 } :=
  raise_usage rfl rfl _ s

/-- Settles O5: the decoder refuses the word, and not for a list that is short. -/
theorem illegalCommandRaises : Obligations.IllegalCommandRaises := by
  unfold Obligations.IllegalCommandRaises
  intro s w rest hready hcmds hillegal
  obtain ⟨hp, hs, hidle⟩ := hready
  have hstep : step s = .next (illegalCommand w (dropCommand rest s)) := by
    rcases decode_illegal hillegal s.blist with hdecode | hdecode <;>
      simp only [step_ready hp hs hidle, commandStep, hcmds, hdecode]
  rw [hstep, illegalCommand_eq]
  rfl

/-! ### The host access operations (R220 to R225) -/

/-- The error record as a number: `CFGF` is bit 24, `ERR` bits 23 to 16, `ERRINFO` bits 15 to 0 (R224). -/
theorem errRecord_toNat (s : State) :
    (errRecord s).toNat = (if s.cfgf then 1 else 0) * 2 ^ 24 + s.err.toNat * 2 ^ 16 + s.errinfo.toNat := by
  have hcode := append_toNat (BitVec.ofBool s.cfgf) s.err (k := 9) rfl
  have hinfo := append_toNat (BitVec.ofBool s.cfgf ++ s.err) s.errinfo (k := 25) rfl
  simp only [BitVec.toNat_cast, BitVec.toNat_ofBool] at hcode hinfo
  calc (errRecord s).toNat
      = (s.cfgf.toNat * 2 ^ 8 + s.err.toNat) * 2 ^ 16 + s.errinfo.toNat := by rw [← hcode]; exact hinfo
    _ = _ := by rw [Bool.toNat, Bool.cond_eq_ite]; omega

/-- Settles O49: each operation is its meaning; the value of RDERR holds the whole record, 25 bits fitting a word. -/
theorem hostAccessOperations : Obligations.HostAccessOperations := by
  unfold Obligations.HostAccessOperations
  intro s w
  have hvalue : ((errRecord s).setWidth 32).toNat = (errRecord s).toNat :=
    BitVec.toNat_setWidth_of_le (by decide)
  exact ⟨rfl, rfl, rfl, rfl, (errRecord s).setWidth 32, rfl, hvalue.trans (errRecord_toNat s)⟩

end Sys2Proof.Machine

/-! PROOFS of the family 60_exceptions.md. An operation checks the parameters, the validity bits and its operands before it
raises, and raising writes none of them: what an operation refuses once it refuses again (R243). -/

namespace Sys2Proof.Machine

/-! ### Raising the same error again (R243, R250) -/

/-- The second of two equal errors changes nothing. -/
@[simp] theorem raise_raise (kind : ErrKind) (info : Half) (s : State) :
    raise kind info (raise kind info s) = raise kind info s := by
  by_cases h : isTransport kind = true <;> simp [raise, h]

@[simp] theorem slotInRange_raise (kind : ErrKind) (info : Half) (s : State) (t : Byte) :
    slotInRange (raise kind info s) t = slotInRange s t := rfl

@[simp] theorem slotValid_raise (kind : ErrKind) (info : Half) (s : State) (t : Byte) :
    slotValid (raise kind info s) t = slotValid s t := rfl

/-- Whatever error `f` raises, it raises again on the state the error left, and that state stays as it is. -/
def RepeatsErrors (f : State → Host.Outcome State Fault Refusal) : Prop :=
  ∀ s kind info, f s = .next (raise kind info s) → f (raise kind info s) = .next (raise kind info s)

/-! ### How the parts of an operation repeat their errors -/

theorem repeatsErrors_raise (kind : ErrKind) (info : Half) : RepeatsErrors fun s => .next (raise kind info s) := by
  intro s kind' info' h
  have hstate : raise kind info s = raise kind' info' s := Host.Outcome.next.inj h
  simp only [← hstate, raise_raise]

/-- An operation that ends `OK` raises nothing. -/
theorem repeatsErrors_endOk (value : State → Option Word) (payload : State → List Byte) (left : State → State) :
    RepeatsErrors fun s => .next (endOk (value s) (payload s) (left s)) := by
  intro s kind info h
  have hport := congrArg State.result (Host.Outcome.next.inj h)
  simp only [endOk_result, raise_result, Option.some.injEq, Result.mk.injEq] at hport
  exact absurd hport.1.symm (errCode_ne_ok kind)

/-- A check whose answer no error changes takes the same branch again. -/
theorem RepeatsErrors.ite {c : State → Prop} [DecidablePred c] {f g : State → Host.Outcome State Fault Refusal}
    (hc : ∀ s kind info, c (raise kind info s) ↔ c s) (hf : RepeatsErrors f) (hg : RepeatsErrors g) :
    RepeatsErrors fun s => if c s then f s else g s := by
  intro s kind info h
  by_cases hs : c s
  · simp only [if_pos hs, if_pos ((hc s kind info).mpr hs)] at h ⊢
    exact hf s kind info h
  · simp only [if_neg hs, if_neg (mt (hc s kind info).mp hs)] at h ⊢
    exact hg s kind info h

theorem RepeatsErrors.rangeCheck (t : Byte) {f : State → Host.Outcome State Fault Refusal} (hf : RepeatsErrors f) :
    RepeatsErrors fun s => rangeCheck t s (f s) :=
  .ite (c := fun s => slotInRange s t = true) (by simp) hf (repeatsErrors_raise _ _)

/-- A user of a template repeats the errors of its template check (R138). -/
theorem repeatsErrors_codecOp (op : ScanOp) (t : Byte) :
    RepeatsErrors fun s => templateCheck t s (.next (codecOp op t s)) :=
  .rangeCheck t <|
    .ite (c := fun s => slotValid s t = true) (by simp) (repeatsErrors_endOk _ _ _) (repeatsErrors_raise _ _)

/-- TPLLOAD repeats its refusals: range, lock, count, codes (R131). -/
theorem repeatsErrors_tplload (t : Byte) (roles : List Byte) : RepeatsErrors (execTplload t roles) := by
  refine .rangeCheck t <|
    .ite (c := fun s => slotValid s t = true) (by simp) (repeatsErrors_raise _ _) <|
    .ite (c := fun _ => roles.length ≠ Config.wordW) (by simp) (repeatsErrors_raise _ _) ?_
  cases firstUndefined 0 roles with
  | none => exact repeatsErrors_endOk _ _ _
  | some bad => exact repeatsErrors_raise _ _

/-- SEND repeats its refusal of a payload that is too long (R174). -/
theorem repeatsErrors_send (payload : List Byte) : RepeatsErrors (execSend payload) :=
  .ite (c := fun s => payload.length ≤ s.par.maxPayload) (by simp) (repeatsErrors_endOk _ _ _) (repeatsErrors_raise _ _)

/-- The start step of RECV returns nothing, so it raises nothing (R185). -/
theorem repeatsErrors_recv (maxSize : Half) : RepeatsErrors (execRecv maxSize) := by
  intro s kind info h
  have hport := congrArg State.result (Host.Outcome.next.inj h)
  simp at hport

/-! ### The operations of the host (R243) -/

/-- Every operation of the host repeats its errors. -/
theorem exec_repeatsErrors {i : Instr} (hi : IsCommand i) : RepeatsErrors (exec i) := by
  cases i with
  | tplload t roles => exact repeatsErrors_tplload t roles
  | tplvalid t => exact .rangeCheck t (repeatsErrors_endOk _ _ _)
  | encfix t => exact repeatsErrors_codecOp .encfix t
  | encaddr t address => exact repeatsErrors_codecOp (.encaddr address) t
  | encin t data => exact repeatsErrors_codecOp (.encin data) t
  | decout t => exact repeatsErrors_codecOp .decout t
  | outidx t => exact repeatsErrors_codecOp .outidx t
  | send payload => exact repeatsErrors_send payload
  | recv maxSize => exact repeatsErrors_recv maxSize
  | ldbuf w => exact repeatsErrors_endOk _ _ _
  | rdbuf => exact repeatsErrors_endOk _ _ _
  | ldresp w => exact repeatsErrors_endOk _ _ _
  | rdseq => exact repeatsErrors_endOk _ _ _
  | rderr => exact repeatsErrors_endOk _ _ _
  | roleF0 | roleF1 | roleX | roleA | roleI | roleO | frameHeader => exact hi.elim

/-- Settles O58: an operation whose status is not `OK` has raised, and it repeats what it raised. -/
theorem configurationErrorRepeats : Obligations.ConfigurationErrorRepeats := by
  unfold Obligations.ConfigurationErrorRepeats
  rintro i s t hi hexec ⟨r, hport, hstatus⟩
  have hstatus_ne : r.status ≠ okCode := fun hok => absurd (hok ▸ hstatus) (by decide)
  cases exec_command_cases hi hexec with
  | raised kind info => exact exec_repeatsErrors hi s kind info hexec
  | receiving => cases hport
  | sent | loaded | plain =>
    cases hport
    exact absurd rfl hstatus_ne

end Sys2Proof.Machine

/-! PROOFS of the family 70_reset_and_hazards.md. A legal word decodes or is short of its byte list, nothing else, so the block
waits for the list (R111, log 6); the reset event is a step of its own, which goes before everything else (R280). -/

namespace Sys2Proof

/-! ### The words whose byte list is not fully there (R111) -/

/-- A command with a byte list that some list makes decode is refused for the list alone when the list is short. -/
theorem whenListed_short {z : Bool} {op : Byte} {n : Nat} {full bytes : List Byte} {mk : List Byte → Instr}
    (h : ∃ i, whenListed z op n full mk = .ok i) (hshort : bytes.length < n) :
    whenListed z op n bytes mk = .error (.shortList n) := by
  obtain ⟨i, hi⟩ := h
  obtain ⟨rfl, -, -⟩ := whenListed_eq_ok.mp hi
  simp [whenListed, hshort]

/-- An operation that some list makes decode is refused for its list alone when the list is short; only TPLLOAD and SEND
have a list that can be short. -/
theorem decodeOp_short {op : Op} {w : Cmd} {full bytes : List Byte} (hop : opOfByte (cmdOp w) = some op)
    (h : ∃ i, decodeOp op w full = .ok i) (hshort : bytes.length < listLen w) :
    decodeOp op w bytes = .error (.shortList (listLen w)) := by
  cases op with
  | tplload | send => exact whenListed_short h hshort
  | tplvalid | encfix | encaddr | encin | decout | outidx | recv | ldbuf | rdbuf | ldresp | rdseq | rderr =>
    have hnone : listLen w = 0 := by simp only [listLen, hop]
    omega

/-- A word of some row whose byte list is not fully there is refused for its list alone (R111, R116). -/
theorem decode_short {w : Cmd} {bytes : List Byte} (h : Machine.LegalCommand w) (hshort : bytes.length < listLen w) :
    decode (.cmd w bytes) = .error (.shortList (listLen w)) := by
  have hfull : listLen w ≤ (List.replicate (listLen w) (0#8 : Byte)).length := by simp
  obtain ⟨i, -, hi⟩ := (legalCommandsDecode w _ hfull).mpr h
  simp only [decode, decodeCmd] at hi ⊢
  cases hop : opOfByte (cmdOp w) with
  | none => simp [hop] at hi
  | some op =>
    rw [hop] at hi
    exact decodeOp_short hop ⟨i, hi⟩ hshort

end Sys2Proof

namespace Sys2Proof.Machine

/-! ### The idle block (R282; log 6) -/

/-- Where the listed line ends, an idle block waits for the host (R282). -/
theorem lineStep_ready_ended {s : State} (h : Ready s) (hl : s.line = []) : lineStep s = .next s := by
  obtain ⟨-, -, hidle⟩ := h
  simp [lineStep, hl, busy, hidle]

/-- An idle block waits for the byte list of its command (R111, log 6). -/
theorem commandStep_short {s : State} {w : Cmd} {rest : List Cmd} (hcmds : s.cmds = w :: rest) (hlegal : LegalCommand w)
    (hshort : s.blist.length < listLen w) : commandStep s = .next s := by
  simp only [commandStep, hcmds, decode_short hlegal hshort]

/-- Settles O9: without a command by the end of the line; with one, the decoder asks for its list. -/
theorem idleBlockWaits : Obligations.IdleBlockWaits := by
  unfold Obligations.IdleBlockWaits
  refine ⟨fun s hready hcmds hline => ?_, fun s w rest hready hcmds hlegal hshort => ?_⟩
  · exact (step_ready_lineStep hready hcmds).trans (lineStep_ready_ended hready hline)
  · obtain ⟨hp, hs, hidle⟩ := hready
    exact (step_ready hp hs hidle).trans (commandStep_short hcmds hlegal hshort)

/-! ### The reset event (R47, R280, R281) -/

/-- Settles O10: the step is the reset event, whatever else is under way; then field by field. -/
theorem resetEventValues : Obligations.ResetEventValues := by
  unfold Obligations.ResetEventValues
  intro s hp
  refine ⟨resetEvent s, step_reset hp, ?_⟩
  simp

end Sys2Proof.Machine
